-- ==== Sys2Proof/Word.lean ====
section
/-! DEFINITION. The word types of the ECA: an 8-bit byte and a 16-bit address (R1, R60). -/

namespace Sys2Proof

/-- "The byte size is 8-bits" (R9): a register, a memory byte, an instruction byte. -/
abbrev Byte := BitVec 8

/-- A 16-bit address, also the value of a register pair, of `pc` and of `sp` (R22, R35, R36, R60). -/
abbrev Addr := BitVec 16

end Sys2Proof
end

