-- ==== Sys2Proof/Machine/Bits.lean ====
section
/-! DEFINITION. The bit-field helpers every other file shares: the halves of a 16-bit value, single bits of a byte
(numbered 7..0 with 7 the most significant, R8), and the two extensions of R10. -/

namespace Sys2Proof

/-- Bits 15..8 of a 16-bit value (R8). -/
def hiByte (w : Addr) : Byte := w.extractLsb' 8 8

/-- Bits 7..0 of a 16-bit value (R8). -/
def loByte (w : Addr) : Byte := w.extractLsb' 0 8

/-- The 16-bit value `hi * 256 + lo` (R10, R22). -/
def joinBytes (hi lo : Byte) : Addr := hi ++ lo

/-- Bit `i` of a byte, bit 0 the least significant (R8). -/
def bitOf (b : Byte) (i : Nat) : Bool := b.getLsbD i

/-- The mask `2^i` of R150 (c): the source's "2 << I_3" corrected to "1 << I_3". -/
def bitMask (i : BitVec 3) : Byte := 1#8 <<< i.toNat

/-- `b` with bit `i` replaced by `v`, the other bits kept (the `C <- b` and `Z <- b` of R10). -/
def withBit (b : Byte) (i : Nat) (v : Bool) : Byte :=
  (b &&& ~~~(1#8 <<< i)) ||| (if v then 1#8 <<< i else 0#8)

/-- `b` with the bits selected by `mask` taken from `v`. -/
def mergeBits (mask b v : Byte) : Byte := (b &&& ~~~mask) ||| (v &&& mask)

/-- `sext_16` of a branch offset (R100, R201): "with the sign bit as the highest-order bit". -/
def sext16 (b : Byte) : Addr := b.signExtend 16

/-- `zext_16` of a displacement (R68, R99). -/
def zext16 (d : BitVec 4) : Addr := d.setWidth 16

/-- The channel field, bits 3..0 of a PCON value (R33). -/
def channelOf (w : Byte) : BitVec 4 := w.extractLsb' 0 4

/-- The control field, bits 7..4 of a PCON value, in place (R33). -/
def controlOf (w : Byte) : Byte := w &&& 0xF0#8

end Sys2Proof
end

