-- ==== Sys2Proof/Syntax.lean ====
section
/-! DEFINITION. The instructions: one constructor per row of spec/opcode_table.json (43 rows), with operands as the
machine sees them. Register specifiers and pair fields are already resolved to names (R93, R96, R97). -/

namespace Sys2Proof

/-- The sixteen registers an `R` operand reaches (R20 (a) to (c), R40): R0..R7, the four special registers and the
four control registers. -/
inductive Reg where
  | r0 | r1 | r2 | r3 | r4 | r5 | r6 | r7
  | ecdata | pdata | c0 | c1
  | ecscr | ecscw | pcon | status
deriving DecidableEq, Repr, Inhabited

/-- The sixteen registers, in the order of R97. -/
def Reg.all : List Reg :=
  [.r0, .r1, .r2, .r3, .r4, .r5, .r6, .r7, .ecdata, .pdata, .c0, .c1, .ecscr, .ecscw, .pcon, .status]

/-- A general-purpose register pair (R22, R93). -/
inductive Pair where
  | rp0 | rp1 | rp2 | rp3
deriving DecidableEq, Repr, Inhabited

/-- The 43 instructions (R1, R109). `off` is I_8 of a branch (R100), `imm` an I_8 of format e, `n` an I_3 (R98),
`disp` an I_4 (R99), `target` and `value` an I_16 (R101). -/
inductive Instr where
  /-- RESET (R212), format a. -/
  | reset
  /-- RETURN (R211), format a. -/
  | ret
  /-- INC RP (R185), format b. -/
  | inc (p : Pair)
  /-- DEC RP (R186), format b. -/
  | dec (p : Pair)
  /-- POP RP (R184), format b. -/
  | pop (p : Pair)
  /-- PUSH RP (R183), format b. -/
  | push (p : Pair)
  /-- DECL RP (R138), format c. -/
  | decl (p : Pair)
  /-- DECH RP (R137), format c. -/
  | dech (p : Pair)
  /-- INCL RP (R136), format c. -/
  | incl (p : Pair)
  /-- INCH RP (R135), format c. -/
  | inch (p : Pair)
  /-- BR I_8 (R208), format d. -/
  | br (off : Byte)
  /-- BRNZ I_8 (R205), format d. -/
  | brnz (off : Byte)
  /-- BRNC I_8 (R203), format d. -/
  | brnc (off : Byte)
  /-- BRNCZ I_8 (R207), format d. -/
  | brncz (off : Byte)
  /-- BRZ I_8 (R204), format d. -/
  | brz (off : Byte)
  /-- BRC I_8 (R202), format d. -/
  | brc (off : Byte)
  /-- BRCZ I_8 (R206), format d. -/
  | brcz (off : Byte)
  /-- MOVEL RP, I_8 (R172), format e. -/
  | movel (p : Pair) (imm : Byte)
  /-- MOVEH RP, I_8 (R171), format e. -/
  | moveh (p : Pair) (imm : Byte)
  /-- COMPL RP, I_8 (R140), format e. -/
  | compl (p : Pair) (imm : Byte)
  /-- COMPH RP, I_8 (R139), format e. -/
  | comph (p : Pair) (imm : Byte)
  /-- ADD R(left), R(right) (R131), format f. -/
  | add (l r : Reg)
  /-- SUB R(left), R(right) (R133), format f. -/
  | sub (l r : Reg)
  /-- ADDC R(left), R(right) (R132), format f. -/
  | addc (l r : Reg)
  /-- SUBC R(left), R(right) (R134), format f. -/
  | subc (l r : Reg)
  /-- MOVE R(left), R(right) (R173), format f. -/
  | move (l r : Reg)
  /-- AND R(left), R(right) (R160), format f. -/
  | and (l r : Reg)
  /-- OR R(left), R(right) (R161), format f. -/
  | or (l r : Reg)
  /-- XOR R(left), R(right) (R162), format f. -/
  | xor (l r : Reg)
  /-- LOAD R, [RP+I_4] (R181), format g. -/
  | load (r : Reg) (p : Pair) (disp : BitVec 4)
  /-- STORE [RP+I_4], R (R182), format g. -/
  | store (p : Pair) (disp : BitVec 4) (r : Reg)
  /-- SHLL R, I_3 (R151), format h. -/
  | shll (r : Reg) (n : BitVec 3)
  /-- ROTR R, I_3 (R156), format h. -/
  | rotr (r : Reg) (n : BitVec 3)
  /-- TEST R, I_3 (R159), format h. -/
  | test (r : Reg) (n : BitVec 3)
  /-- CLEAR R, I_3 (R158), format h. -/
  | clear (r : Reg) (n : BitVec 3)
  /-- SET R, I_3 (R157), format h. -/
  | set (r : Reg) (n : BitVec 3)
  /-- ROTL R, I_3 (R155), format h. -/
  | rotl (r : Reg) (n : BitVec 3)
  /-- SHLR R, I_3 (R152), format h. -/
  | shlr (r : Reg) (n : BitVec 3)
  /-- SHAL R, I_3 (R153), format h. -/
  | shal (r : Reg) (n : BitVec 3)
  /-- SHAR R, I_3 (R154), format h. -/
  | shar (r : Reg) (n : BitVec 3)
  /-- CALL I_16 (R209), format i. -/
  | call (target : Addr)
  /-- JUMP I_16 (R210), format i. -/
  | jump (target : Addr)
  /-- MOVEI RP, I_16 (R174), format j. -/
  | movei (p : Pair) (value : Addr)
deriving DecidableEq, Repr, Inhabited

/-- The 24 instructions of formats d, f and h, whose first bytes the source's own encodings make collide (R107) and
the parameter `OPCODE_MAP_DFH` assigns (R108). -/
inductive DfhOp where
  | br | brnz | brnc | brncz | brz | brc | brcz
  | add | sub | addc | subc | move | and | or | xor
  | shll | rotr | test | clear | set | rotl | shlr | shal | shar
deriving DecidableEq, Repr, Inhabited

/-- The 24 of them, in the order of the table. -/
def DfhOp.all : List DfhOp :=
  [.br, .brnz, .brnc, .brncz, .brz, .brc, .brcz,
   .add, .sub, .addc, .subc, .move, .and, .or, .xor,
   .shll, .rotr, .test, .clear, .set, .rotl, .shlr, .shal, .shar]

/-- The three maskable interrupt sources (R220, R224). -/
inductive Irq where
  | timer | smb | acpi
deriving DecidableEq, Repr, Inhabited

end Sys2Proof
end

