-- ==== Sys2Proof/Config.lean ====
section
/-! DEFINITION. The parameters of R6, as one plain record that the machine's state carries and no step changes, so
that a claim about every state is a claim about every value of every parameter; and the free values, opaque
constants with no body, which stand for what the spec leaves open. -/

namespace Sys2Proof

/-- `UNUSED_BITS` (R6, R102, D4): what the decoder does with a nonzero unused bit. -/
inductive UnusedBits where
  | refuse | ignore | invalid
deriving DecidableEq, Repr, Inhabited

/-- `STATUS_UNUSED_READ` (R6, R28, D10): what STATUS bits 2..0 and ECSCR bits 7 and 2 read as. -/
inductive UnusedRead where
  | draw | storage
deriving DecidableEq, Repr, Inhabited

/-- `NMI_MODE` (R6, R233, R234, D15). -/
inductive NmiMode where
  | fault | enter
deriving DecidableEq, Repr, Inhabited

/-- `SUBC_BORROW_IN` (R6, R134, D34). -/
inductive BorrowIn where
  | notCarry | carry
deriving DecidableEq, Repr, Inhabited

/-- `ACPI_IRQ` (R6, R266, D14), which the spec leaves OPEN. -/
inductive AcpiIrq where
  | event | levelIbf
deriving DecidableEq, Repr, Inhabited

/-- The parameters a model takes (R6), and two that other rules name: `regCodes` is `SPECIAL_REG_CODES` (R97), the
register of each 4-bit specifier in turn, and `irqOrder` the priority of R227, over which "a proof that must not
depend on this order should quantify". -/
structure Config where
  flashTop : Addr
  ramTop : Addr
  dfhMap : List (Byte × DfhOp)
  regCodes : List Reg
  unusedBits : UnusedBits
  unusedRead : UnusedRead
  vecNmi : Addr
  vecTimer : Addr
  vecSmb : Addr
  vecAcpi : Addr
  nmiMode : NmiMode
  subcBorrowIn : BorrowIn
  timerMinSteps : Nat
  acpiIrq : AcpiIrq
  irqOrder : List Irq
deriving DecidableEq, Repr

/-- FREE VALUE: the setting of `ACPI_IRQ`, which the spec leaves OPEN (R6, R266). -/
opaque Config.acpiIrqOpen : AcpiIrq

/-- FREE VALUE: the value each register the spec gives no reset value for holds at power-on (R41, R45). -/
opaque Config.powerOnReg : Reg → Byte

/-- FREE VALUE: the value the byte at an address holds while nothing has written it (R45: "any value", drawn once per
location, U34), for the RAM; and the program image byte nothing has placed, for the FLASH (R38, R39). -/
opaque Config.powerOnByte : Nat → Byte

/-- FREE VALUE: the `n`th byte drawn from the environment or from an unspecified value (R28, R233, R253 to R259). -/
opaque Config.drawByte : Nat → Byte

/-- FREE VALUE: the `n`th duration drawn, the finite unknown number of steps of a port operation (R257, R258, D21). -/
opaque Config.drawDelay : Nat → Nat

end Sys2Proof
end

