-- ==== Sys2Proof/Machine/Params.lean ====
section
/-! DEFINITION. The parameters at the defaults of R6, with the two tables of the spec's own decisions: the first bytes
of the format d, f and h instructions (R108) and the register specifiers (R97). -/

namespace Sys2Proof

/-- The decided first-byte map of R108 (`OPCODE_MAP_DFH`, D2); it is the encoding of no real device. -/
def dfhMapDecided : List (Byte × DfhOp) :=
  [(0x80#8, .br), (0x81#8, .shll), (0x82#8, .rotr), (0x83#8, .brnz), (0x85#8, .brnc), (0x87#8, .brncz),
   (0x88#8, .test), (0x89#8, .clear), (0x8A#8, .set), (0x8B#8, .brz), (0x8C#8, .rotl), (0x8D#8, .brc),
   (0x8F#8, .brcz),
   (0x90#8, .add), (0x92#8, .sub), (0x93#8, .shlr), (0x94#8, .addc), (0x95#8, .shal), (0x96#8, .subc),
   (0x97#8, .shar), (0x98#8, .move), (0x99#8, .and), (0x9A#8, .or), (0x9B#8, .xor)]

/-- The decided register codes of R97 (`SPECIAL_REG_CODES`, D3): specifier 0 first. -/
def regCodesDecided : List Reg :=
  [.r0, .r1, .r2, .r3, .r4, .r5, .r6, .r7, .ecdata, .pdata, .c0, .c1, .ecscr, .ecscw, .pcon, .status]

/-- Every parameter at the default of R6; `ACPI_IRQ`, which has none, at a free value. -/
def Config.default : Config where
  flashTop := 0x7FFF#16
  ramTop := 0xFFFF#16
  dfhMap := dfhMapDecided
  regCodes := regCodesDecided
  unusedBits := .refuse
  unusedRead := .draw
  vecNmi := 0x0005#16
  vecTimer := 0x000A#16
  vecSmb := 0x000F#16
  vecAcpi := 0x0014#16
  nmiMode := .fault
  subcBorrowIn := .notCarry
  timerMinSteps := 0
  acpiIrq := Config.acpiIrqOpen
  irqOrder := [.timer, .smb, .acpi]

/-- The first byte the map gives an operation (R108); 00h, an invalid op-code, if it gives none. -/
def Config.dfhByte (c : Config) (op : DfhOp) : Byte :=
  match c.dfhMap.find? (fun e => e.2 == op) with
  | some e => e.1
  | none => 0x00#8

end Sys2Proof
end

