-- ==== Sys2Proof/Machine/State.lean ====
section
/-! DEFINITION. The state of the ECA as plain data (R20, R37), the reasons a step can stop, and the state right after
power-on (R41, R281 to R283). -/

namespace Sys2Proof.Machine

/-- The causes of the non-maskable interrupt (R221). -/
inductive NmiCause where
  | invalidData | invalidBranch | invalidOpcode | stack | invalidFetch
deriving DecidableEq, Repr, Inhabited

/-- Why the machine stops with a fault. Both constructors are the spec's own; both are safe (the model goes no
further where the hardware would). -/
inductive Fault where
  /-- Raised by any NMI under `NMI_MODE` = `fault`, the spec's default, with the cause and the offending address
  (R234). Safe: under `enter` the same event is a next state (R233). -/
  | nmi (cause : NmiCause) (info : Addr)
  /-- Raised by an NMI under `NMI_MODE` = `enter` whose two bytes do not fit the stack (R233, "model fault "double
  fault""). Safe. -/
  | doubleFault (cause : NmiCause) (info : Addr)
deriving DecidableEq, Repr, Inhabited

/-- Why the model gives a step no meaning. Each constructor but the first is a refusal the spec itself makes; each is
safe (nothing is claimed about the hardware). -/
inductive Refusal where
  /-- Raised by an arm of `exec` for an instruction not modelled yet. Safe. No arm raises it now. -/
  | notModelled (mnemonic : String)
  /-- Raised by the fetch of an instruction with a nonzero unused bit under `UNUSED_BITS` = `refuse` (R102, U7). Safe. -/
  | unusedBits
  /-- Raised by ADD, ADDC, SUB, SUBC, AND, OR, XOR, ROTL, ROTR with destination STATUS (R142, U23). Safe. -/
  | statusDestination
  /-- Raised by a write to PCON that turns a 1 in bits 7..4 into 0 (R251, U25). Safe. -/
  | portCancel
  /-- Raised by an access, with policing off, to an address implemented in neither memory (R76 (a), U28). Safe. -/
  | unimplementedAddress (a : Addr)
  /-- Raised by a store to program memory with policing off (R76 (b), U29). Safe. -/
  | flashStore (a : Addr)
deriving DecidableEq, Repr, Inhabited

/-- The registers of R20 (a), (b) and (c), eight bits each (R21, R23 to R33). -/
structure Regs where
  r0 : Byte
  r1 : Byte
  r2 : Byte
  r3 : Byte
  r4 : Byte
  r5 : Byte
  r6 : Byte
  r7 : Byte
  ecdata : Byte
  pdata : Byte
  c0 : Byte
  c1 : Byte
  ecscr : Byte
  ecscw : Byte
  pcon : Byte
  status : Byte
deriving DecidableEq, Repr

/-- The bytes something has written, as (address, byte) pairs with strictly rising addresses (R38). An address that is
not listed holds the byte it was powered on with. -/
structure Memory where
  cells : List Host.Cell
deriving DecidableEq, Repr

/-- The stored pending requests, one per maskable source (R37 (a), R225). -/
structure Pending where
  timer : Bool
  smb : Bool
  acpi : Bool
deriving DecidableEq, Repr

/-- `port_busy` (R37 (b), R259): the port operation in progress with its start data. DIR and DOW complete in the step
that starts them (R255, R256), so they are never in progress between steps. `wait` is how many more boundaries pass
before it completes of itself. -/
inductive PortBusy where
  /-- No operation in progress. -/
  | idle
  /-- An ADC conversion of a channel (R257). -/
  | adc (channel : BitVec 4) (wait : Nat)
  /-- A PWM write of a duty cycle to a channel (R258). -/
  | pwm (channel : BitVec 4) (duty : Byte) (wait : Nat)
  /-- Several operations started together, or one during another (R253, R259); the first to complete ends them. -/
  | several (wait : Nat)
deriving DecidableEq, Repr, Inhabited

/-- What an agent other than the core can do between two steps (R275). -/
inductive EnvAction where
  /-- HostWriteCommand(b) (R261). -/
  | hostWriteCommand (b : Byte)
  /-- HostWriteData(b) (R262). -/
  | hostWriteData (b : Byte)
  /-- HostReadStatus (R263). -/
  | hostReadStatus
  /-- HostReadData (R264). -/
  | hostReadData
  /-- TimerTick (R247). -/
  | timerTick
  /-- SmbEvent (R271). -/
  | smbEvent
  /-- AdcComplete(v) (R257). -/
  | adcComplete (v : Byte)
  /-- PwmComplete (R258). -/
  | pwmComplete
  /-- SetPolicingPin(level): true is policing on, the pin low (R75, R246). -/
  | setPolicingPin (on : Bool)
  /-- DeviceReset (R280, R281). -/
  | deviceReset
deriving DecidableEq, Repr, Inhabited

/-- The whole machine (R20). -/
structure State where
  /-- R0..R7, ECDATA, PDATA, C0, C1, STATUS, ECSCR, ECSCW, PCON (R20 (a) to (c)). -/
  regs : Regs
  /-- The program counter (R35). -/
  pc : Addr
  /-- The stack pointer (R36). -/
  sp : Addr
  /-- Memory (R38). -/
  mem : Memory
  /-- The pending interrupt requests (R37 (a)). -/
  irq : Pending
  /-- The port operation in progress (R37 (b)). -/
  port : PortBusy
  /-- PDATA is undefined: every read of it is a fresh draw until it is written (R24, R253, R254). -/
  pdataUndefined : Bool
  /-- The sixteen PWM duty-cycle latches, channel 0 first (R37 (c)). -/
  pwmDuty : Vector Byte 16
  /-- The digital output latch (R37 (d)). -/
  dout : Byte
  /-- The level of the policing pin: true is policing on, the pin low (R37 (e), R75). -/
  policing : Bool
  /-- The SCI output: the step just taken raised an SCI (R37 (f), R265). -/
  sci : Bool
  /-- THE MODEL'S OWN: the byte the host's last read obtained (R263, R264). -/
  hostRead : Byte
  /-- THE MODEL'S OWN: what the environment will do, one list of actions for each step boundary to come (R39: "left to
  the scheduler of the model"; R275). -/
  arrivals : List (List EnvAction)
  /-- THE MODEL'S OWN: how many more boundaries must pass before a Timer tick may arrive (`TIMER_MIN_STEPS`, R247). -/
  timerWait : Nat
  /-- THE MODEL'S OWN: how many free values have been drawn. -/
  draws : Nat
  /-- The parameters of the implementation (R6); no step changes them. -/
  config : Config
deriving DecidableEq, Repr

/-- The registers at power-on: STATUS and PCON are 00h (R41, R281); the spec gives the others no value and forbids
picking one (R45), so each holds a free value. -/
def Regs.powerOn : Regs where
  r0 := Config.powerOnReg .r0
  r1 := Config.powerOnReg .r1
  r2 := Config.powerOnReg .r2
  r3 := Config.powerOnReg .r3
  r4 := Config.powerOnReg .r4
  r5 := Config.powerOnReg .r5
  r6 := Config.powerOnReg .r6
  r7 := Config.powerOnReg .r7
  ecdata := Config.powerOnReg .ecdata
  pdata := Config.powerOnReg .pdata
  c0 := Config.powerOnReg .c0
  c1 := Config.powerOnReg .c1
  ecscr := Config.powerOnReg .ecscr
  ecscw := Config.powerOnReg .ecscw
  pcon := 0x00#8
  status := 0x00#8

/-- The machine right after power-on with the parameters `c` (R41, R281, R282). -/
def State.powerOn (c : Config) : State where
  regs := Regs.powerOn
  pc := 0x0000#16
  sp := c.ramTop
  mem := ⟨[]⟩
  irq := ⟨false, false, false⟩
  port := .idle
  pdataUndefined := false
  pwmDuty := Vector.replicate 16 0x00#8
  dout := 0x00#8
  policing := true
  sci := false
  hostRead := 0x00#8
  arrivals := []
  timerWait := 0
  draws := 0
  config := c

/-- The machine right after reset: power-on with every parameter at its default (R6, R280). No program is placed: the
program memory "keeps the image it was given" (R283). -/
def State.reset : State := State.powerOn Config.default

end Sys2Proof.Machine
end

