-- ==== Sys2Proof/Machine/Update.lean ====
section
/-! DEFINITION. One named update per field of the state that something changes (`config` has none: no step changes
it), and the read and the write of one register by its name. Laws/State.lean says what each leaves unchanged. -/

namespace Sys2Proof.Machine

/-- `s` with `regs` replaced. -/
def State.withRegs (s : State) (x : Regs) : State := { s with regs := x }

/-- `s` with `pc` replaced. -/
def State.withPc (s : State) (x : Addr) : State := { s with pc := x }

/-- `s` with `sp` replaced. -/
def State.withSp (s : State) (x : Addr) : State := { s with sp := x }

/-- `s` with `mem` replaced. -/
def State.withMem (s : State) (x : Memory) : State := { s with mem := x }

/-- `s` with `irq` replaced. -/
def State.withIrq (s : State) (x : Pending) : State := { s with irq := x }

/-- `s` with `port` replaced. -/
def State.withPort (s : State) (x : PortBusy) : State := { s with port := x }

/-- `s` with `pdataUndefined` replaced. -/
def State.withPdataUndefined (s : State) (x : Bool) : State := { s with pdataUndefined := x }

/-- `s` with `pwmDuty` replaced. -/
def State.withPwmDuty (s : State) (x : Vector Byte 16) : State := { s with pwmDuty := x }

/-- `s` with `dout` replaced. -/
def State.withDout (s : State) (x : Byte) : State := { s with dout := x }

/-- `s` with `policing` replaced. -/
def State.withPolicing (s : State) (x : Bool) : State := { s with policing := x }

/-- `s` with `sci` replaced. -/
def State.withSci (s : State) (x : Bool) : State := { s with sci := x }

/-- `s` with `hostRead` replaced. -/
def State.withHostRead (s : State) (x : Byte) : State := { s with hostRead := x }

/-- `s` with `arrivals` replaced. -/
def State.withArrivals (s : State) (x : List (List EnvAction)) : State := { s with arrivals := x }

/-- `s` with `timerWait` replaced. -/
def State.withTimerWait (s : State) (x : Nat) : State := { s with timerWait := x }

/-- `s` with `draws` replaced. -/
def State.withDraws (s : State) (x : Nat) : State := { s with draws := x }

/-- The stored byte of a register. -/
def Regs.get (g : Regs) : Reg → Byte
  | .r0 => g.r0
  | .r1 => g.r1
  | .r2 => g.r2
  | .r3 => g.r3
  | .r4 => g.r4
  | .r5 => g.r5
  | .r6 => g.r6
  | .r7 => g.r7
  | .ecdata => g.ecdata
  | .pdata => g.pdata
  | .c0 => g.c0
  | .c1 => g.c1
  | .ecscr => g.ecscr
  | .ecscw => g.ecscw
  | .pcon => g.pcon
  | .status => g.status

/-- The registers with one of them replaced. -/
def Regs.set (g : Regs) (r : Reg) (v : Byte) : Regs :=
  match r with
  | .r0 => { g with r0 := v }
  | .r1 => { g with r1 := v }
  | .r2 => { g with r2 := v }
  | .r3 => { g with r3 := v }
  | .r4 => { g with r4 := v }
  | .r5 => { g with r5 := v }
  | .r6 => { g with r6 := v }
  | .r7 => { g with r7 := v }
  | .ecdata => { g with ecdata := v }
  | .pdata => { g with pdata := v }
  | .c0 => { g with c0 := v }
  | .c1 => { g with c1 := v }
  | .ecscr => { g with ecscr := v }
  | .ecscw => { g with ecscw := v }
  | .pcon => { g with pcon := v }
  | .status => { g with status := v }

/-- The stored byte of a register, whatever a read of it would show (R28, R253). -/
def State.reg (s : State) (r : Reg) : Byte := s.regs.get r

/-- `s` with the stored byte of a register replaced, and nothing else (no side effect of the write). -/
def State.putReg (s : State) (r : Reg) (v : Byte) : State := s.withRegs (s.regs.set r v)

end Sys2Proof.Machine
end

