-- ==== Sys2Proof/Machine/Flags.lean ====
section
/-! DEFINITION. The results and the flags of every computation (R130, R150, R185, R186), and the writing of the flags
into STATUS: C is bit 4, Z is bit 3 (R26). A flag an instruction affects is written on every execution (D7). -/

namespace Sys2Proof.Machine

/-- A result with the two flags it sets. -/
structure AluOut where
  value : Byte
  carry : Bool
  zero : Bool
deriving DecidableEq, Repr

/-- `a + b + cin` (R131, R132): C is the carry out of bit 7. -/
def addOut (a b : Byte) (cin : Bool) : AluOut :=
  let sum := a.toNat + b.toNat + cin.toNat
  { value := BitVec.ofNat 8 sum, carry := decide (256 ≤ sum), zero := BitVec.ofNat 8 sum == 0#8 }

/-- `a - b - bin` (R133, R134): C is the borrow. -/
def subOut (a b : Byte) (bin : Bool) : AluOut :=
  let v := a - b - BitVec.ofNat 8 bin.toNat
  { value := v, carry := decide (a.toNat < b.toNat + bin.toNat), zero := v == 0#8 }

/-- The borrow SUBC subtracts, by the parameter `SUBC_BORROW_IN` (R134). -/
def borrowIn (m : BorrowIn) (c : Bool) : Bool :=
  match m with
  | .notCarry => !c
  | .carry => c

/-- Increment of a pair half (R135, R136). -/
def incOut (a : Byte) : AluOut := { value := a + 1#8, carry := a == 0xFF#8, zero := a == 0xFF#8 }

/-- Decrement of a pair half (R137, R138). -/
def decOut (a : Byte) : AluOut := { value := a - 1#8, carry := a == 0x00#8, zero := a == 0x01#8 }

/-- The flags of AND, OR and XOR: "The Carry flag is cleared." (R160 to R162). -/
def logicOut (v : Byte) : AluOut := { value := v, carry := false, zero := v == 0#8 }

/-- C after a compare: register below immediate, unsigned (R139, R140). -/
def compareCarry (a imm : Byte) : Bool := decide (a < imm)

/-- Z after a compare: equal (R139, R140). -/
def compareZero (a imm : Byte) : Bool := a == imm

/-- C of INC: 1 only for FFFFh -> 0000h (R185). -/
def incPairCarry (v : Addr) : Bool := v == 0xFFFF#16

/-- C of DEC: the borrow, from the old value (R186). -/
def decPairCarry (v : Addr) : Bool := v == 0x0000#16

/-- SHLL: zeroes from the right (R151). -/
def shiftLeftLogical (v : Byte) (n : BitVec 3) : Byte := v <<< n.toNat

/-- SHLR: zeroes from the left (R152). -/
def shiftRightLogical (v : Byte) (n : BitVec 3) : Byte := v >>> n.toNat

/-- SHAL: the sign bit stays, the low seven bits shift left among themselves (R153). -/
def shiftLeftArith (v : Byte) (n : BitVec 3) : Byte := (v &&& 0x80#8) ||| ((v <<< n.toNat) &&& 0x7F#8)

/-- SHAR: the sign bit is replicated, a floor division (R154). -/
def shiftRightArith (v : Byte) (n : BitVec 3) : Byte := v.sshiftRight n.toNat

/-- The nine-bit ring of ROTL and ROTR: C is bit 8 (R155). -/
def ringOf (c : Bool) (v : Byte) : BitVec 9 := BitVec.ofBool c ++ v

/-- ROTL: the ring turned `n` places towards the more significant end (R155). -/
def ringLeft (x : BitVec 9) (n : BitVec 3) : BitVec 9 := (x <<< n.toNat) ||| (x >>> (9 - n.toNat))

/-- ROTR: the ring turned the other way (R156). -/
def ringRight (x : BitVec 9) (n : BitVec 3) : BitVec 9 := (x >>> n.toNat) ||| (x <<< (9 - n.toNat))

/-- The register byte of the ring. -/
def ringByte (x : BitVec 9) : Byte := x.extractLsb' 0 8

/-- The Carry of the ring. -/
def ringCarry (x : BitVec 9) : Bool := x.getLsbD 8

/-- The Carry flag (R10, R26). -/
def State.carry (s : State) : Bool := bitOf s.regs.status 4

/-- The Zero flag (R10, R26). -/
def State.zero (s : State) : Bool := bitOf s.regs.status 3

/-- `C <- b`, that bit only (R10). -/
def State.setCarry (s : State) (b : Bool) : State := s.putReg .status (withBit s.regs.status 4 b)

/-- `Z <- b`, that bit only (R10). -/
def State.setZero (s : State) (b : Bool) : State := s.putReg .status (withBit s.regs.status 3 b)

/-- Both flags. -/
def State.setFlags (s : State) (c z : Bool) : State := (s.setCarry c).setZero z

end Sys2Proof.Machine
end

