-- ==== Sys2Proof/Machine/Ops.lean ====
section
/-! DEFINITION. The shared operations: drawing a free value, the bytes of memory, policing (R70 to R76), the stack,
taking an exception and returning from one (R222, R228, R233, R211), and the device reset (R281). -/

namespace Sys2Proof.Machine

/-- What a step answers. -/
abbrev Result := Host.Outcome State Fault Refusal

/-! ### Free values -/

/-- The next byte the spec leaves unspecified or the environment supplies ("a draw"). -/
def State.draw (s : State) : Byte × State := (Config.drawByte s.draws, s.withDraws (s.draws + 1))

/-- The next unspecified 16-bit value (R233). -/
def State.drawWord (s : State) : Addr × State :=
  (joinBytes s.draw.1 s.draw.2.draw.1, s.draw.2.draw.2)

/-- The next unspecified finite duration (R257, R258). -/
def State.drawDelay (s : State) : Nat × State := (Config.drawDelay s.draws, s.withDraws (s.draws + 1))

/-! ### Memory -/

/-- What something has written at an address, if anything has (R38). -/
def Memory.read (m : Memory) (a : Nat) : Option Byte := m.cells.lookup a

/-- The cells with one byte written, addresses kept strictly rising. -/
def insertCell : List Host.Cell → Nat → Byte → List Host.Cell
  | [], a, v => [(a, v)]
  | (b, w) :: rest, a, v =>
    if a < b then (a, v) :: (b, w) :: rest
    else if a = b then (a, v) :: rest
    else (b, w) :: insertCell rest a v

/-- Memory with one byte written. -/
def Memory.write (m : Memory) (a : Nat) (v : Byte) : Memory := ⟨insertCell m.cells a v⟩

/-- The canonical form: strictly rising 16-bit addresses. An unlisted address reads as NO WRITTEN BYTE at this layer, so
no listed cell equals it, and equal memories are equal data. -/
abbrev Memory.wf (m : Memory) : Prop :=
  m.cells.Pairwise (fun x y => x.1 < y.1) ∧ ∀ x ∈ m.cells, x.1 < 65536

/-- The byte an address holds: the one written last (R81), else the one it was powered on with (R45). -/
def State.byteAt (s : State) (a : Addr) : Byte := (s.mem.read a.toNat).getD (Config.powerOnByte a.toNat)

/-- The SMB register zone 8200h..82FFh (R78). -/
def inSmbZone (a : Addr) : Bool := decide (0x8200#16 ≤ a) && decide (a ≤ 0x82FF#16)

/-- Implemented data memory, 8000h..`RAM_TOP` (R63). -/
def State.inRam (s : State) (a : Addr) : Bool := decide (0x8000#16 ≤ a) && decide (a ≤ s.config.ramTop)

/-- Implemented program memory, 0000h..`FLASH_TOP` (R63). -/
def State.inFlash (s : State) (a : Addr) : Bool := decide (a ≤ s.config.flashTop)

/-- Implemented in either memory (R75). -/
def State.implemented (s : State) (a : Addr) : Bool := s.inFlash a || s.inRam a

/-- One byte read, after its check (R66): a register of the SMB zone answers a draw (R78), anything else the byte it
holds, with no side effect. -/
def State.readByte (s : State) (a : Addr) : Byte × State :=
  if inSmbZone a then s.draw else (s.byteAt a, s)

/-- One byte written, after its check: in the SMB zone an event with no modelled effect (R78), anywhere else the byte. -/
def State.writeByte (s : State) (a : Addr) (v : Byte) : State :=
  if inSmbZone a then s else s.withMem (s.mem.write a.toNat v)

/-! ### Policing -/

/-- What the checks before an access or a transfer say (R222: they come before every state change). -/
inductive Check where
  | pass
  | nmi (cause : NmiCause) (info : Addr)
  | refuse (r : Refusal)
deriving DecidableEq, Repr

/-- The first check that does not pass. -/
def Check.andThen (x y : Check) : Check :=
  match x with
  | .pass => y
  | .nmi c i => .nmi c i
  | .refuse r => .refuse r

/-- With policing off: a read or a fetch needs an implemented address (R75, R76 (a)). -/
def State.openReadCheck (s : State) (a : Addr) : Check :=
  if s.implemented a then .pass else .refuse (.unimplementedAddress a)

/-- With policing off: a write needs an address in data memory; a store to FLASH is refused (R76 (b)). -/
def State.openWriteCheck (s : State) (a : Addr) : Check :=
  if s.inRam a then .pass
  else if s.inFlash a then .refuse (.flashStore a)
  else .refuse (.unimplementedAddress a)

/-- A LOAD address: "Valid addresses for data references are in the domain 8000h-FFFFh" (R72, R75). -/
def State.loadCheck (s : State) (a : Addr) : Check :=
  if s.policing then
    if s.inRam a then .pass else .nmi .invalidData a
  else s.openReadCheck a

/-- A STORE address (R72, R76). -/
def State.storeCheck (s : State) (a : Addr) : Check :=
  if s.policing then
    if s.inRam a then .pass else .nmi .invalidData a
  else s.openWriteCheck a

/-- The target of a control transfer: "Valid target addresses for branches are in the domain 0000h-7FFFh" (R71). With
policing off no target is checked (R75). -/
def State.targetCheck (s : State) (t : Addr) : Check :=
  if s.policing && !s.inFlash t then .nmi .invalidBranch t else .pass

/-- A fetched byte, policed like a branch target (R73, R75). -/
def State.fetchCheck (s : State) (a : Addr) : Check :=
  if s.policing then
    if s.inFlash a then .pass else .nmi .invalidFetch a
  else s.openReadCheck a

/-- The two bytes PUSH, CALL and a trap entry write, `sp-2` and `sp-1` (R74, R75, R76). DESIGN CHOICE (log 23): at `sp` =
0000h, after a POP at FFFEh, these are FFFEh and FFFFh (D8), and with `RAM_TOP` = FFFFh the pseudocode of R183, R209 and
R228 lets the push happen, while the prose of R184 has every later stack operation raise the NMI; the model follows the
pseudocode. -/
def State.pushCheck (s : State) : Check :=
  if s.policing then
    if s.inRam (s.sp - 2#16) && s.inRam (s.sp - 1#16) then .pass else .nmi .stack s.sp
  else (s.openWriteCheck (s.sp - 2#16)).andThen (s.openWriteCheck (s.sp - 1#16))

/-- The two bytes POP and RETURN read, `sp` and `sp+1` (R74, R75, R76). -/
def State.popCheck (s : State) : Check :=
  if s.policing then
    if s.inRam s.sp && s.inRam (s.sp + 1#16) then .pass else .nmi .stack s.sp
  else (s.openReadCheck s.sp).andThen (s.openReadCheck (s.sp + 1#16))

/-! ### The stack -/

/-- PUSH, CALL and a trap entry: `sp` falls by two, the HIGH byte goes to the lower address (R65 (a), R183). -/
def State.pushWord (s : State) (v : Addr) : State :=
  ((s.withSp (s.sp - 2#16)).writeByte (s.sp - 2#16) (hiByte v)).writeByte (s.sp - 1#16) (loByte v)

/-- POP and RETURN: the word on top of the stack, lower address first; `sp` is left to the caller (R65 (a), R184). -/
def State.topWord (s : State) : Addr × State :=
  (joinBytes (s.readByte s.sp).1 ((s.readByte s.sp).2.readByte (s.sp + 1#16)).1,
    ((s.readByte s.sp).2.readByte (s.sp + 1#16)).2)

/-! ### Exceptions -/

/-- TAKING AN EXCEPTION, for a maskable interrupt and for the NMI alike (R228, R233): push the saved address as CALL
does and go to the entry address; STATUS is neither saved nor modified, nothing is masked. -/
def State.enterTrap (s : State) (vec saved : Addr) : State := (s.pushWord saved).withPc vec

/-- NMI entry under `NMI_MODE` = `enter` (R233): the saved address is an unspecified 16-bit value; an NMI that cannot
push is the double fault. -/
def nmiEntry (cause : NmiCause) (info : Addr) (s : State) : Result :=
  if s.inRam (s.sp - 2#16) && s.inRam (s.sp - 1#16) then
    .next (s.drawWord.2.enterTrap s.config.vecNmi s.drawWord.1)
  else .fault (.doubleFault cause info)

/-- `raise NMI(cause, info)` (R222): nothing of the instruction is done; by `NMI_MODE` the run ends (R234) or the entry
is taken (R233). -/
def raiseNmi (cause : NmiCause) (info : Addr) (s : State) : Result :=
  match s.config.nmiMode with
  | .fault => .fault (.nmi cause info)
  | .enter => nmiEntry cause info s

/-- Go on with `k` if the checks pass; otherwise raise the NMI in `s`, or refuse. -/
def guarded (x : Check) (s : State) (k : Result) : Result :=
  match x with
  | .pass => k
  | .nmi cause info => raiseNmi cause info s
  | .refuse r => .refused r

/-- RETURNING, from a subroutine or a handler alike (R211, R231): `pc` from the top of the stack, `sp` up by two, and
nothing else restored; a bad target leaves `sp` unchanged. -/
def returnFromTrap (s : State) : Result :=
  guarded s.popCheck s
    (guarded (s.topWord.2.targetCheck s.topWord.1) s.topWord.2
      (.next ((s.topWord.2.withSp (s.sp + 2#16)).withPc s.topWord.1)))

/-! ### Maskable interrupts -/

/-- The enable bit of a source: STATUS bit 5, 6 or 7 (R224, R26). -/
def State.irqEnabled (s : State) : Irq → Bool
  | .timer => bitOf s.regs.status 5
  | .smb => bitOf s.regs.status 6
  | .acpi => bitOf s.regs.status 7

/-- The pending request of a source; for ACPI by the parameter `ACPI_IRQ`: the stored bit, or the level of ECSCR.IBF
(R225, R266). -/
def State.irqPending (s : State) : Irq → Bool
  | .timer => s.irq.timer
  | .smb => s.irq.smb
  | .acpi =>
    match s.config.acpiIrq with
    | .event => s.irq.acpi
    | .levelIbf => bitOf s.regs.ecscr 1

/-- `req(x) = pending(x) and enable(x)` (R226). -/
def State.irqRequested (s : State) (x : Irq) : Bool := s.irqEnabled x && s.irqPending x

/-- The interrupt taken at this boundary: the first in the priority order that is requested (R226, R227). -/
def State.nextIrq (s : State) : Option Irq := s.config.irqOrder.find? s.irqRequested

/-- `pending(x) <- 0`, stored bits only (R225 (c)). -/
def State.clearPending (s : State) : Irq → State
  | .timer => s.withIrq { s.irq with timer := false }
  | .smb => s.withIrq { s.irq with smb := false }
  | .acpi => s.withIrq { s.irq with acpi := false }

/-- The entry address of a source (R220, R229). -/
def vecOf (c : Config) : Irq → Addr
  | .timer => c.vecTimer
  | .smb => c.vecSmb
  | .acpi => c.vecAcpi

/-- Trap entry for a maskable interrupt (R228). -/
def takeIrq (x : Irq) (s : State) : Result :=
  guarded s.pushCheck s (.next ((s.clearPending x).enterTrap (vecOf s.config x) s.pc))

/-! ### Reset -/

/-- The device reset, by RESET or from outside (R212, R280, R281): a port operation in progress is dropped without its
completion effects, the stored pending bits are cleared, and nothing else changes (R283). -/
def State.deviceReset (s : State) : State :=
  ((((((s.withPc 0x0000#16).withSp s.config.ramTop).putReg .status 0x00#8).putReg .pcon 0x00#8).withPort
    .idle).withIrq ⟨false, false, false⟩)

end Sys2Proof.Machine
end

