-- ==== Sys2Proof/Machine/Ports.lean ====
section
/-! DEFINITION. The port hardware behind PCON and PDATA (R250 to R259): what a program write to PCON starts, and how an
operation completes. -/

namespace Sys2Proof.Machine

/-- One of the four port operations, one per PCON bit 7..4 (R250). -/
inductive PortOp where
  | dir | dow | pwm | adc
deriving DecidableEq, Repr, Inhabited

/-- The one operation a set of control bits names, if it is one (R251). -/
def soleOp (started : Byte) : Option PortOp :=
  if started = 0x80#8 then some .dir
  else if started = 0x40#8 then some .dow
  else if started = 0x20#8 then some .pwm
  else if started = 0x10#8 then some .adc
  else none

/-- A read of PDATA: a fresh draw while it is undefined (R24, R253). -/
def State.readPdata (s : State) : Byte × State :=
  if s.pdataUndefined then s.draw else (s.regs.pdata, s)

/-- A write of PDATA, which ends its being undefined (R253). -/
def State.putPdata (s : State) (v : Byte) : State := (s.putReg .pdata v).withPdataUndefined false

/-- One duty-cycle latch written (R258). -/
def State.putDuty (s : State) (ch : BitVec 4) (v : Byte) : State :=
  s.withPwmDuty (s.pwmDuty.set ch.toNat v ch.isLt)

/-- One duty-cycle latch made undefined: any value, drawn once (U1). -/
def State.scrambleDuty (s : State) (ch : BitVec 4) : State := s.draw.2.putDuty ch s.draw.1

/-- The output latch made undefined: any value, drawn once (U1). -/
def State.scrambleDout (s : State) : State := s.draw.2.withDout s.draw.1

/-- The end of a port operation: PCON bits 7..4 become 0, "the channel bits remain unchanged" (R252). -/
def State.endPort (s : State) : State :=
  (s.putReg .pcon (s.regs.pcon &&& 0x0F#8)).withPort .idle

/-- DIR: the input levels are loaded into PDATA within the step (R255). -/
def startDir (s : State) : State := (s.draw.2.putPdata s.draw.1).endPort

/-- DOW: PDATA goes to the output latch within the step (R256). -/
def startDow (s : State) : State := (s.readPdata.2.withDout s.readPdata.1).endPort

/-- ADC: a conversion of the selected channel, in progress until at least the next boundary (R257). -/
def startAdc (ch : BitVec 4) (s : State) : State := s.drawDelay.2.withPort (.adc ch s.drawDelay.1)

/-- PWM: a write of `duty`, complete after a finite number of steps, possibly within this one (R258). -/
def startPwm (ch : BitVec 4) (duty : Byte) (s : State) : State :=
  match s.drawDelay.1 with
  | 0 => (s.drawDelay.2.putDuty ch duty).endPort
  | n + 1 => s.drawDelay.2.withPort (.pwm ch duty n)

/-- Exactly one operation started, channel bits unchanged (R251 (b)). `s` already holds the written PCON. -/
def startClean (op : PortOp) (w : Byte) (s : State) : State :=
  match op with
  | .dir => startDir s
  | .dow => startDow s
  | .adc => startAdc (channelOf w) s
  | .pwm => startPwm (channelOf w) s.readPdata.1 s.readPdata.2

/-- Exactly one operation started by the write that changes the channel bits (R251 (c), R254, U2): PDATA and the result of
the operation are undefined. DESIGN CHOICE (log 25): so they are for DIR and DOW too, by the words of R254, while R286 says
that "the digital ports have no channel and need no lead". -/
def startSkewed (op : PortOp) (old w : Byte) (s : State) : State :=
  let u := s.withPdataUndefined true
  match op with
  | .dir => u.endPort
  | .dow => u.scrambleDout.endPort
  | .adc => startAdc (channelOf w) u
  | .pwm =>
    let v := (u.scrambleDuty (channelOf old)).scrambleDuty (channelOf w)
    startPwm (channelOf w) v.draw.1 v.draw.2

/-- The channel of a PWM write in progress, whose latch a clash makes undefined too (R253). -/
def State.scrambleBusyDuty (s : State) : State :=
  match s.port with
  | .pwm ch _ _ => s.scrambleDuty ch
  | .idle | .adc _ _ | .several _ => s

/-- Several operations started, or one during another (R251 (d), R253, R259): PDATA undefined; the latches of the
operations involved undefined; the bits clear when the first completes, which is within the step if DIR or DOW is
among those started, and otherwise after a finite number of steps. -/
def startSeveral (old w : Byte) (s : State) : State :=
  let u := s.withPdataUndefined true
  let v := if bitOf w 6 then u.scrambleDout else u
  let x := if bitOf w 5 then
      ((v.scrambleBusyDuty).scrambleDuty (channelOf old)).scrambleDuty (channelOf w)
    else v
  if bitOf w 7 || bitOf w 6 then x.endPort
  else
    match x.drawDelay.1 with
    | 0 => x.drawDelay.2.endPort
    | n + 1 => x.drawDelay.2.withPort (.several n)

/-- A program write of PCON (R251). A write that turns a 1 of bits 7..4 into 0 is refused. -/
def writePcon (w : Byte) (s : State) : Except Refusal State :=
  let old := s.regs.pcon
  let started := controlOf (w &&& ~~~old)
  let s1 := s.putReg .pcon w
  if controlOf (old &&& ~~~w) ≠ 0#8 then .error .portCancel
  else if started = 0#8 then .ok s1
  else
    match (if controlOf old = 0#8 then soleOp started else none) with
    | some op => if channelOf w = channelOf old then .ok (startClean op w s1) else .ok (startSkewed op old w s1)
    | none => .ok (startSeveral old w s1)

/-- The end of several operations at once: PCON bits 7..4 clear; which of them completed is not stated, so PDATA is
undefined again (R253). -/
def State.endSeveral (s : State) : State := s.endPort.withPdataUndefined true

/-- AdcComplete(v), only while an ADC operation is in progress (R257, R275). -/
def adcComplete (v : Byte) (s : State) : State :=
  match s.port with
  | .adc _ _ => (s.putPdata v).endPort
  | .several _ => s.endSeveral
  | .idle | .pwm _ _ _ => s

/-- PwmComplete, only while a PWM operation is in progress (R258, R275). -/
def pwmComplete (s : State) : State :=
  match s.port with
  | .pwm ch duty _ => (s.putDuty ch duty).endPort
  | .several _ => s.endSeveral
  | .idle | .adc _ _ => s

/-- One boundary passes for the operation in progress: it completes when its duration has run out, so that it always
completes after finitely many steps (R257); the conversion result is a draw (R259). -/
def portBoundary (s : State) : State :=
  match s.port with
  | .idle => s
  | .adc _ 0 => adcComplete s.draw.1 s.draw.2
  | .adc ch (n + 1) => s.withPort (.adc ch n)
  | .pwm _ _ 0 => pwmComplete s
  | .pwm ch duty (n + 1) => s.withPort (.pwm ch duty n)
  | .several 0 => s.endSeveral
  | .several (n + 1) => s.withPort (.several n)

end Sys2Proof.Machine
end

