-- ==== Sys2Proof/Machine/Operands.lean ====
section
/-! DEFINITION. The operand forms: a read and a write of an `R` operand with what the spec attaches to each register
(R40, R163, R175), register pairs and their halves (R22, R94), and the effective address of LOAD and STORE (R68). -/

namespace Sys2Proof

/-- The LOW half of a pair: the even register (R22). -/
def Pair.lo : Pair → Reg
  | .rp0 => .r0
  | .rp1 => .r2
  | .rp2 => .r4
  | .rp3 => .r6

/-- The HIGH half of a pair: the odd register (R22). -/
def Pair.hi : Pair → Reg
  | .rp0 => .r1
  | .rp1 => .r3
  | .rp2 => .r5
  | .rp3 => .r7

namespace Machine

/-- The bits of a register that the spec calls "unused" or "Ignored": STATUS bits 2..0, ECSCR bits 7 and 2 (R28, R29). -/
def unusedMask : Reg → Byte
  | .status => 0x07#8
  | .ecscr => 0x84#8
  | .r0 | .r1 | .r2 | .r3 | .r4 | .r5 | .r6 | .r7 | .ecdata | .pdata | .c0 | .c1 | .ecscw | .pcon => 0x00#8

/-- A read of a register with such bits, by the parameter `STATUS_UNUSED_READ` (R28). -/
def State.readUnused (s : State) (r : Reg) : Byte × State :=
  match s.config.unusedRead with
  | .storage => (s.reg r, s)
  | .draw => (mergeBits (unusedMask r) (s.reg r) s.draw.1, s.draw.2)

/-- A read of an `R` operand. It has no side effect on the register (R30, R141, R175). -/
def State.readReg (s : State) (r : Reg) : Byte × State :=
  match r with
  | .status => s.readUnused .status
  | .ecscr => s.readUnused .ecscr
  | .pdata => s.readPdata
  | .r0 | .r1 | .r2 | .r3 | .r4 | .r5 | .r6 | .r7 | .ecdata | .c0 | .c1 | .ecscw | .pcon => (s.reg r, s)

/-- Both operands of a format f instruction, read before anything is written; one register named twice is read once,
"the old value is used for both" (R130 (d)). -/
def State.readTwo (s : State) (l r : Reg) : (Byte × Byte) × State :=
  if l = r then (((s.readReg l).1, (s.readReg l).1), (s.readReg l).2)
  else (((s.readReg l).1, ((s.readReg l).2.readReg r).1), ((s.readReg l).2.readReg r).2)

/-- A write of ECSCR by the program raises an SCI when it sets SCI_EVT, sets OBF or clears IBF (R265). -/
def sciRaised (old new : Byte) : Bool :=
  (bitOf new 5 && !bitOf old 5) || (bitOf new 0 && !bitOf old 0) || (!bitOf new 1 && bitOf old 1)

/-- A program write of an `R` operand: PCON may start port operations (R251), PDATA becomes defined (R253), ECSCR may
raise the SCI (R265), and every other register is a plain write (R141, R175). -/
def State.writeReg (s : State) (r : Reg) (v : Byte) : Except Refusal State :=
  match r with
  | .pcon => writePcon v s
  | .pdata => .ok (s.putPdata v)
  | .ecscr => .ok ((s.putReg .ecscr v).withSci (s.sci || sciRaised s.regs.ecscr v))
  | .r0 | .r1 | .r2 | .r3 | .r4 | .r5 | .r6 | .r7 | .ecdata | .c0 | .c1 | .ecscw | .status => .ok (s.putReg r v)

/-- The outcome of an instruction that ends in a register write. -/
def settle (x : Except Refusal State) : Result :=
  match x with
  | .ok s => .next s
  | .error r => .refused r

/-- `RP[p]`, the 16-bit value of a pair (R22). -/
def State.pair (s : State) (p : Pair) : Addr := joinBytes (s.reg p.hi) (s.reg p.lo)

/-- `RP[p] <- v`: both halves (R10). -/
def State.putPair (s : State) (p : Pair) (v : Addr) : State := (s.putReg p.lo (loByte v)).putReg p.hi (hiByte v)

/-- The effective address of LOAD and STORE: `(RP[p] + zext_16(I_4)) mod 2^16` (R68). -/
def State.effAddr (s : State) (p : Pair) (disp : BitVec 4) : Addr := s.pair p + zext16 disp

end Machine

end Sys2Proof
end

