-- ==== Sys2Proof/Machine/AddressArith.lean ====
section
/-! DEFINITION. The address arithmetic instructions (R180 to R187): LOAD, STORE, PUSH, POP, INC, DEC. -/

namespace Sys2Proof.Machine

/-- LOAD (R181): policed, then the byte at the effective address goes to the register, with the side effects of a MOVE
to it (R180 (c)). -/
def execLoad (r : Reg) (p : Pair) (disp : BitVec 4) (s : State) : Result :=
  let ea := s.effAddr p disp
  guarded (s.loadCheck ea) s (settle ((s.readByte ea).2.writeReg r (s.readByte ea).1))

/-- STORE (R182): policed, then the register's value goes to the effective address. -/
def execStore (p : Pair) (disp : BitVec 4) (r : Reg) (s : State) : Result :=
  let ea := s.effAddr p disp
  guarded (s.storeCheck ea) s (.next ((s.readReg r).2.writeByte ea (s.readReg r).1))

/-- PUSH (R183). -/
def execPush (p : Pair) (s : State) : Result := guarded s.pushCheck s (.next (s.pushWord (s.pair p)))

/-- POP (R184). -/
def execPop (p : Pair) (s : State) : Result :=
  guarded s.popCheck s (.next ((s.topWord.2.putPair p s.topWord.1).withSp (s.sp + 2#16)))

/-- A pair replaced, both flags written, Z testing all sixteen bits (R185, R186). -/
def execPair (p : Pair) (v : Addr) (c : Bool) (s : State) : Result :=
  .next ((s.putPair p v).setFlags c (v == 0x0000#16))

/-- INC (R185). -/
def execInc (p : Pair) (s : State) : Result := execPair p (s.pair p + 1#16) (incPairCarry (s.pair p)) s

/-- DEC (R186). -/
def execDec (p : Pair) (s : State) : Result := execPair p (s.pair p - 1#16) (decPairCarry (s.pair p)) s

end Sys2Proof.Machine
end

