-- ==== Sys2Proof/Machine/DataHandling.lean ====
section
/-! DEFINITION. The data handling instructions (R170 to R175): MOVEH, MOVEL, MOVE, MOVEI. None writes a flag as a side
effect. -/

namespace Sys2Proof.Machine

/-- MOVEH (R171). -/
def execMoveh (p : Pair) (imm : Byte) (s : State) : Result := .next (s.putReg p.hi imm)

/-- MOVEL (R172). -/
def execMovel (p : Pair) (imm : Byte) (s : State) : Result := .next (s.putReg p.lo imm)

/-- MOVE (R173), with the side effects of the destination (R175). -/
def execMove (l r : Reg) (s : State) : Result := settle ((s.readReg r).2.writeReg l (s.readReg r).1)

/-- MOVEI (R174): the immediate is not policed. -/
def execMovei (p : Pair) (value : Addr) (s : State) : Result := .next (s.putPair p value)

end Sys2Proof.Machine
end

