-- ==== Sys2Proof/Machine/FixedPoint.lean ====
section
/-! DEFINITION. The fixed-point arithmetic instructions (R130 to R142): ADD, ADDC, SUB, SUBC, INCH, INCL, DECH, DECL,
COMPH, COMPL. -/

namespace Sys2Proof.Machine

/-- An instruction that writes its left operand and both flags (R130, R160 to R162). STATUS as the destination is
refused (R142). -/
def execFlagged (l r : Reg) (f : Byte → Byte → AluOut) (s : State) : Result :=
  if l = .status then .refused .statusDestination
  else
    let ops := s.readTwo l r
    let out := f ops.1.1 ops.1.2
    match ops.2.writeReg l out.value with
    | .error e => .refused e
    | .ok t => .next (t.setFlags out.carry out.zero)

/-- ADD (R131): the old C is not an input. -/
def execAdd (l r : Reg) (s : State) : Result := execFlagged l r (fun a b => addOut a b false) s

/-- ADDC (R132). -/
def execAddc (l r : Reg) (s : State) : Result := execFlagged l r (fun a b => addOut a b s.carry) s

/-- SUB (R133): C is a borrow flag; the old C is not an input. -/
def execSub (l r : Reg) (s : State) : Result := execFlagged l r (fun a b => subOut a b false) s

/-- SUBC (R134): left minus right minus the borrow of `SUBC_BORROW_IN`. -/
def execSubc (l r : Reg) (s : State) : Result :=
  execFlagged l r (fun a b => subOut a b (borrowIn s.config.subcBorrowIn s.carry)) s

/-- One half of a pair replaced, both flags written (R135 to R138). -/
def execHalf (r : Reg) (out : AluOut) (s : State) : Result :=
  .next ((s.putReg r out.value).setFlags out.carry out.zero)

/-- INCH (R135). -/
def execInch (p : Pair) (s : State) : Result := execHalf p.hi (incOut (s.reg p.hi)) s

/-- INCL (R136): no carry into the high half. -/
def execIncl (p : Pair) (s : State) : Result := execHalf p.lo (incOut (s.reg p.lo)) s

/-- DECH (R137). -/
def execDech (p : Pair) (s : State) : Result := execHalf p.hi (decOut (s.reg p.hi)) s

/-- DECL (R138): no borrow from the high half. -/
def execDecl (p : Pair) (s : State) : Result := execHalf p.lo (decOut (s.reg p.lo)) s

/-- A compare writes the flags and no register (R139, R140). -/
def execCompare (a imm : Byte) (s : State) : Result :=
  .next (s.setFlags (compareCarry a imm) (compareZero a imm))

/-- COMPH (R139). -/
def execComph (p : Pair) (imm : Byte) (s : State) : Result := execCompare (s.reg p.hi) imm s

/-- COMPL (R140). -/
def execCompl (p : Pair) (imm : Byte) (s : State) : Result := execCompare (s.reg p.lo) imm s

end Sys2Proof.Machine
end

