-- ==== Sys2Proof/Machine/LogicShift.lean ====
section
/-! DEFINITION. The logic and shift instructions (R150 to R163): SHLL, SHLR, SHAL, SHAR, ROTL, ROTR, SET, CLEAR, TEST,
AND, OR, XOR. -/

namespace Sys2Proof.Machine

/-- Read the whole register, change it, write all eight bits back, no flag as a side effect (R150 (e), R163). -/
def execModify (r : Reg) (f : Byte → Byte) (s : State) : Result :=
  settle ((s.readReg r).2.writeReg r (f (s.readReg r).1))

/-- SHLL (R151). -/
def execShll (r : Reg) (n : BitVec 3) (s : State) : Result := execModify r (fun v => shiftLeftLogical v n) s

/-- SHLR (R152). -/
def execShlr (r : Reg) (n : BitVec 3) (s : State) : Result := execModify r (fun v => shiftRightLogical v n) s

/-- SHAL (R153). -/
def execShal (r : Reg) (n : BitVec 3) (s : State) : Result := execModify r (fun v => shiftLeftArith v n) s

/-- SHAR (R154). -/
def execShar (r : Reg) (n : BitVec 3) (s : State) : Result := execModify r (fun v => shiftRightArith v n) s

/-- A rotate through carry: the register and C, not Z (R155, R156). STATUS is refused (R142). -/
def execRotate (r : Reg) (f : BitVec 9 → BitVec 9) (s : State) : Result :=
  if r = .status then .refused .statusDestination
  else
    let w := f (ringOf s.carry (s.readReg r).1)
    match (s.readReg r).2.writeReg r (ringByte w) with
    | .error e => .refused e
    | .ok t => .next (t.setCarry (ringCarry w))

/-- ROTL (R155). -/
def execRotl (r : Reg) (n : BitVec 3) (s : State) : Result := execRotate r (fun x => ringLeft x n) s

/-- ROTR (R156). -/
def execRotr (r : Reg) (n : BitVec 3) (s : State) : Result := execRotate r (fun x => ringRight x n) s

/-- SET (R157). -/
def execSet (r : Reg) (n : BitVec 3) (s : State) : Result := execModify r (fun v => v ||| bitMask n) s

/-- CLEAR (R158). -/
def execClear (r : Reg) (n : BitVec 3) (s : State) : Result := execModify r (fun v => v &&& ~~~(bitMask n)) s

/-- TEST (R159): "The Zero flag takes the value of the I_3th bit." -/
def execTest (r : Reg) (n : BitVec 3) (s : State) : Result :=
  .next ((s.readReg r).2.setZero (bitOf (s.readReg r).1 n.toNat))

/-- AND (R160). -/
def execAnd (l r : Reg) (s : State) : Result := execFlagged l r (fun a b => logicOut (a &&& b)) s

/-- OR (R161). -/
def execOr (l r : Reg) (s : State) : Result := execFlagged l r (fun a b => logicOut (a ||| b)) s

/-- XOR (R162). -/
def execXor (l r : Reg) (s : State) : Result := execFlagged l r (fun a b => logicOut (a ^^^ b)) s

end Sys2Proof.Machine
end

