-- ==== Sys2Proof/Machine/Sequencing.lean ====
section
/-! DEFINITION. The sequencing instructions (R200 to R213): the seven relative branches, CALL, JUMP, RETURN, RESET. An
instruction executes with `pc` already at the next instruction (R35, R200). -/

namespace Sys2Proof.Machine

/-- A relative branch (R201): the base is the address of the next instruction; a target is computed and policed only
when the branch is taken. -/
def execBranch (taken : Bool) (off : Byte) (s : State) : Result :=
  if taken then guarded (s.targetCheck (s.pc + sext16 off)) s (.next (s.withPc (s.pc + sext16 off)))
  else .next s

/-- BR (R208). -/
def execBr (off : Byte) (s : State) : Result := execBranch true off s

/-- BRC (R202). -/
def execBrc (off : Byte) (s : State) : Result := execBranch s.carry off s

/-- BRNC (R203). -/
def execBrnc (off : Byte) (s : State) : Result := execBranch (!s.carry) off s

/-- BRZ (R204). -/
def execBrz (off : Byte) (s : State) : Result := execBranch s.zero off s

/-- BRNZ (R205). -/
def execBrnz (off : Byte) (s : State) : Result := execBranch (!s.zero) off s

/-- BRCZ (R206): both flags set. -/
def execBrcz (off : Byte) (s : State) : Result := execBranch (s.carry && s.zero) off s

/-- BRNCZ (R207): neither flag set; not the complement of BRCZ. -/
def execBrncz (off : Byte) (s : State) : Result := execBranch (!s.carry && !s.zero) off s

/-- CALL (R209): both checks come before any change, the target's first. -/
def execCall (target : Addr) (s : State) : Result :=
  guarded (s.targetCheck target) s (guarded s.pushCheck s (.next ((s.pushWord s.pc).withPc target)))

/-- JUMP (R210). -/
def execJump (target : Addr) (s : State) : Result :=
  guarded (s.targetCheck target) s (.next (s.withPc target))

/-- RETURN (R211). -/
def execRet (s : State) : Result := returnFromTrap s

/-- RESET (R212). -/
def execReset (s : State) : Result := .next s.deviceReset

end Sys2Proof.Machine
end

