-- ==== Sys2Proof/Machine/Dispatch.lean ====
section
/-! DEFINITION. One arm per instruction, each a direct call of its meaning (R200: the instruction executes with `pc`
already at the next one). -/

namespace Sys2Proof.Machine

def exec (i : Instr) (s : State) : Host.Outcome State Fault Refusal :=
  match i with
  | .reset => Sys2Proof.Machine.execReset s
  | .ret => Sys2Proof.Machine.execRet s
  | .inc p => Sys2Proof.Machine.execInc p s
  | .dec p => Sys2Proof.Machine.execDec p s
  | .pop p => Sys2Proof.Machine.execPop p s
  | .push p => Sys2Proof.Machine.execPush p s
  | .decl p => Sys2Proof.Machine.execDecl p s
  | .dech p => Sys2Proof.Machine.execDech p s
  | .incl p => Sys2Proof.Machine.execIncl p s
  | .inch p => Sys2Proof.Machine.execInch p s
  | .br off => Sys2Proof.Machine.execBr off s
  | .brnz off => Sys2Proof.Machine.execBrnz off s
  | .brnc off => Sys2Proof.Machine.execBrnc off s
  | .brncz off => Sys2Proof.Machine.execBrncz off s
  | .brz off => Sys2Proof.Machine.execBrz off s
  | .brc off => Sys2Proof.Machine.execBrc off s
  | .brcz off => Sys2Proof.Machine.execBrcz off s
  | .movel p imm => Sys2Proof.Machine.execMovel p imm s
  | .moveh p imm => Sys2Proof.Machine.execMoveh p imm s
  | .compl p imm => Sys2Proof.Machine.execCompl p imm s
  | .comph p imm => Sys2Proof.Machine.execComph p imm s
  | .add l r => Sys2Proof.Machine.execAdd l r s
  | .sub l r => Sys2Proof.Machine.execSub l r s
  | .addc l r => Sys2Proof.Machine.execAddc l r s
  | .subc l r => Sys2Proof.Machine.execSubc l r s
  | .move l r => Sys2Proof.Machine.execMove l r s
  | .and l r => Sys2Proof.Machine.execAnd l r s
  | .or l r => Sys2Proof.Machine.execOr l r s
  | .xor l r => Sys2Proof.Machine.execXor l r s
  | .load r p disp => Sys2Proof.Machine.execLoad r p disp s
  | .store p disp r => Sys2Proof.Machine.execStore p disp r s
  | .shll r n => Sys2Proof.Machine.execShll r n s
  | .rotr r n => Sys2Proof.Machine.execRotr r n s
  | .test r n => Sys2Proof.Machine.execTest r n s
  | .clear r n => Sys2Proof.Machine.execClear r n s
  | .set r n => Sys2Proof.Machine.execSet r n s
  | .rotl r n => Sys2Proof.Machine.execRotl r n s
  | .shlr r n => Sys2Proof.Machine.execShlr r n s
  | .shal r n => Sys2Proof.Machine.execShal r n s
  | .shar r n => Sys2Proof.Machine.execShar r n s
  | .call target => Sys2Proof.Machine.execCall target s
  | .jump target => Sys2Proof.Machine.execJump target s
  | .movei p value => Sys2Proof.Machine.execMovei p value s

end Sys2Proof.Machine
end

