-- ==== Sys2Proof/Machine/Environment.lean ====
section
/-! DEFINITION. The agents other than the core (R7, R275): the host, the timer, the SMB block, the ports and the two
pins. They act only between instruction steps (R200, D28); `boundary` is what happens there. -/

namespace Sys2Proof.Machine

/-- The ACPI interrupt request of a host write: under `event` it is latched (R225 (b), R266). -/
def State.requestAcpi (s : State) : State :=
  match s.config.acpiIrq with
  | .event => s.withIrq { s.irq with acpi := true }
  | .levelIbf => s

/-- HostWriteCommand(b) (R261): ECSCW <- b, CMD <- 1, IBF <- 1, request; ECDATA is unchanged. -/
def hostWriteCommand (b : Byte) (s : State) : State :=
  ((s.putReg .ecscw b).putReg .ecscr (withBit (withBit s.regs.ecscr 3 true) 1 true)).requestAcpi

/-- HostWriteData(b) (R262): ECDATA <- b, CMD <- 0, IBF <- 1, request; ECSCW is unchanged. -/
def hostWriteData (b : Byte) (s : State) : State :=
  ((s.putReg .ecdata b).putReg .ecscr (withBit (withBit s.regs.ecscr 3 false) 1 true)).requestAcpi

/-- HostReadStatus (R263): the host obtains ECSCR, bits 7 and 2 as R29 says. -/
def hostReadStatus (s : State) : State := (s.readReg .ecscr).2.withHostRead (s.readReg .ecscr).1

/-- HostReadData (R264): the host obtains ECDATA; OBF <- 0. -/
def hostReadData (s : State) : State :=
  (s.withHostRead s.regs.ecdata).putReg .ecscr (withBit s.regs.ecscr 0 false)

/-- TimerTick (R247): `irq_timer` <- 1, unless fewer than `TIMER_MIN_STEPS` steps have passed since the last. -/
def timerTick (s : State) : State :=
  if s.timerWait = 0 then
    (s.withIrq { s.irq with timer := true }).withTimerWait s.config.timerMinSteps
  else s

/-- SmbEvent (R271): `irq_smb` <- 1. -/
def smbEvent (s : State) : State := s.withIrq { s.irq with smb := true }

/-- One action of the environment (R275). -/
def act (a : EnvAction) (s : State) : State :=
  match a with
  | .hostWriteCommand b => hostWriteCommand b s
  | .hostWriteData b => hostWriteData b s
  | .hostReadStatus => hostReadStatus s
  | .hostReadData => hostReadData s
  | .timerTick => timerTick s
  | .smbEvent => smbEvent s
  | .adcComplete v => adcComplete v s
  | .pwmComplete => pwmComplete s
  | .setPolicingPin on => s.withPolicing on
  | .deviceReset => s.deviceReset

/-- Several actions, in turn. -/
def actAll : List EnvAction → State → State
  | [], s => s
  | a :: rest, s => actAll rest (act a s)

/-- The SCI pulse of the step before is over, and one boundary has passed for the Timer. -/
def clockBoundary (s : State) : State := (s.withSci false).withTimerWait (s.timerWait - 1)

/-- What happens between two steps: the operation in progress comes one boundary nearer its end, and the actions that
arrive here are done (R200, R275). -/
def boundary (s : State) : State :=
  let t := portBoundary (clockBoundary s)
  actAll (s.arrivals.headD []) (t.withArrivals s.arrivals.tail)

end Sys2Proof.Machine
end

