-- ==== Sys2Proof/WellFormed.lean ====
section
/-! DEFINITION. What a well-formed instruction and a well-formed configuration are. Field widths are in the types of
Syntax.lean; what is left to check of an instruction is R142. -/

namespace Sys2Proof

/-- The destination an instruction writes beside the flags it writes as a side effect (R142): the left operand of ADD,
ADDC, SUB, SUBC, AND, OR, XOR and the operand of ROTL and ROTR. -/
def Instr.flagWritingDest : Instr → Option Reg
  | .add l _ | .addc l _ | .sub l _ | .subc l _ | .and l _ | .or l _ | .xor l _ => some l
  | .rotl r _ | .rotr r _ => some r
  | .reset | .ret | .inc _ | .dec _ | .pop _ | .push _ | .decl _ | .dech _ | .incl _ | .inch _ => none
  | .br _ | .brnz _ | .brnc _ | .brncz _ | .brz _ | .brc _ | .brcz _ => none
  | .movel _ _ | .moveh _ _ | .compl _ _ | .comph _ _ | .move _ _ | .load _ _ _ | .store _ _ _ => none
  | .shll _ _ | .shlr _ _ | .shal _ _ | .shar _ _ | .set _ _ | .clear _ _ | .test _ _ => none
  | .call _ | .jump _ | .movei _ _ => none

/-- An instruction the spec gives a result: no flag-writing instruction with destination STATUS (R142, U23). -/
def Instr.wellFormed (i : Instr) : Bool := i.flagWritingDest != some .status

/-- The map is usable: every operation has a byte of its own, under the prefixes 1000 and 1001 (R108). -/
def Config.dfhMapOk (c : Config) : Bool :=
  DfhOp.all.all (fun op => c.dfhMap.lookup (c.dfhByte op) == some op)
    && c.dfhMap.all (fun e => c.dfhByte e.2 == e.1 && e.1.extractLsb' 5 3 == 0b100#3)

/-- The specifier codes are usable: sixteen codes, one for each register (R97: no specifier value is left over). -/
def Config.regCodesOk (c : Config) : Bool :=
  c.regCodes.length == 16 && Reg.all.all (fun r => c.regCodes.contains r)

/-- The bounds of R5 on the implemented amounts of memory. -/
def Config.memoryOk (c : Config) : Bool :=
  decide (c.flashTop ≤ 0x7FFF#16) && decide (0x8000#16 ≤ c.ramTop)

/-- Every interrupt source stands in the priority order (R227). -/
def Config.irqOrderOk (c : Config) : Bool :=
  [Irq.timer, .smb, .acpi].all (fun x => c.irqOrder.contains x)

/-- A usable setting of the parameters: R5's bounds, a usable op-code map, usable register codes, a full priority
order. -/
def Config.wellFormed (c : Config) : Bool :=
  c.memoryOk && c.dfhMapOk && c.regCodesOk && c.irqOrderOk

end Sys2Proof
end

