-- ==== Sys2Proof/Decode.lean ====
section
/-! DEFINITION. The decoder (R111), total on any bytes and refusing by name, and the encoder written from the same
encoding tables (R103 to R108). Byte 0 alone determines the instruction (R90), so decoding has two parts: the head,
from byte 0, and the operands, from the bytes after it. -/

namespace Sys2Proof

/-- Why bytes are no instruction: an invalid op-code (R110), a nonzero unused bit under `UNUSED_BITS` = `refuse`
(R102), or too few bytes. -/
inductive DecodeError where
  | invalidOpcode | unusedBits | short
deriving DecidableEq, Repr, Inhabited

/-- What byte 0 says: a whole one-byte instruction (formats a, b, c), or the operation and pair of a longer one. -/
inductive Head where
  | one (i : Instr)
  | dfh (op : DfhOp)
  | movel (p : Pair)
  | moveh (p : Pair)
  | compl (p : Pair)
  | comph (p : Pair)
  | load (p : Pair)
  | store (p : Pair)
  | call
  | jump
  | movei (p : Pair)
deriving DecidableEq, Repr, Inhabited

/-- How many bytes follow byte 0 (R90, R92). -/
def Head.extra : Head → Nat
  | .one _ => 0
  | .dfh _ | .movel _ | .moveh _ | .compl _ | .comph _ | .load _ | .store _ => 1
  | .call | .jump | .movei _ => 2

/-- "The first two bits specify instruction length in bytes" (R90); 0 for the prefix 00, which no instruction has. -/
def prefixLength (b : Byte) : Nat := (b.extractLsb' 6 2).toNat

/-- Pair(2), bits 2..1 of byte 0 (R93). -/
def pairOfBits (x : BitVec 2) : Pair :=
  match x.toNat with
  | 0 => .rp0
  | 1 => .rp1
  | 2 => .rp2
  | _ => .rp3

/-- The inverse of `pairOfBits` (R93). -/
def pairBits : Pair → BitVec 2
  | .rp0 => 0#2
  | .rp1 => 1#2
  | .rp2 => 2#2
  | .rp3 => 3#2

/-- The pair that byte 0 names in the formats with a Pair field (R91, R93). -/
def pairField (b0 : Byte) : Pair := pairOfBits (b0.extractLsb' 1 2)

/-- What a nonzero unused bit does (R102, parameter `UNUSED_BITS`); `k` is the reading with the bit ignored. -/
def checkUnused (c : Config) {α : Type} (zero : Bool) (k : Except DecodeError α) : Except DecodeError α :=
  if zero then k
  else
    match c.unusedBits with
    | .refuse => .error .unusedBits
    | .invalid => .error .invalidOpcode
    | .ignore => k

/-- The first-byte map of R109, by the high nibble: formats a (0100), b (0110), c (0111), d, f and h (1000, 1001, by
the parameter map of R108), g (1010), e (1011), i (1100), j (1110, with bit 3 = 0); every other byte is an invalid
op-code (R110). -/
def decodeHead (c : Config) (b0 : Byte) : Except DecodeError Head :=
  let p := pairField b0
  match (b0.extractLsb' 4 4).toNat with
  | 0x4 => checkUnused c (b0.extractLsb' 0 3 == 0#3) (.ok (.one (if bitOf b0 3 then .ret else .reset)))
  | 0x6 =>
    .ok (.one (match bitOf b0 3, bitOf b0 0 with
      | false, false => .inc p
      | false, true => .dec p
      | true, false => .pop p
      | true, true => .push p))
  | 0x7 =>
    .ok (.one (match bitOf b0 3, bitOf b0 0 with
      | false, false => .decl p
      | false, true => .dech p
      | true, false => .incl p
      | true, true => .inch p))
  | 0x8 | 0x9 =>
    match c.dfhMap.lookup b0 with
    | some op => .ok (.dfh op)
    | none => .error .invalidOpcode
  | 0xA => checkUnused c (!bitOf b0 0) (.ok (if bitOf b0 3 then .store p else .load p))
  | 0xB =>
    .ok (match bitOf b0 3, bitOf b0 0 with
      | false, false => .movel p
      | false, true => .moveh p
      | true, false => .compl p
      | true, true => .comph p)
  | 0xC => checkUnused c (b0.extractLsb' 1 3 == 0#3) (.ok (if bitOf b0 0 then .jump else .call))
  | 0xE =>
    if bitOf b0 3 then .error .invalidOpcode
    else checkUnused c (!bitOf b0 0) (.ok (.movei p))
  | _ => .error .invalidOpcode

/-- The register a 4-bit specifier names (R96, R97, parameter `SPECIAL_REG_CODES`). -/
def regOfCode (c : Config) (x : BitVec 4) : Reg := c.regCodes.getD x.toNat .r0

/-- The 4-bit specifier of a register (R97). -/
def codeOfReg (c : Config) (r : Reg) : BitVec 4 := BitVec.ofNat 4 (c.regCodes.idxOf r)

/-- Bits 7..4 of byte 1: `R(left)` of format f, the register of formats g and h (R111). -/
def highField (c : Config) (b1 : Byte) : Reg := regOfCode c (b1.extractLsb' 4 4)

/-- Bits 3..0 of byte 1: `R(right)` of format f (R111). -/
def lowField (c : Config) (b1 : Byte) : Reg := regOfCode c (b1.extractLsb' 0 4)

/-- Byte 1 of a format h instruction: Reg(4), an unused bit, I_3 (R92, R98, R102). -/
def decodeBitForm (c : Config) (f : Reg → BitVec 3 → Instr) (b1 : Byte) : Except DecodeError Instr :=
  checkUnused c (!bitOf b1 3) (.ok (f (highField c b1) (b1.extractLsb' 0 3)))

/-- Byte 1 of a format f instruction: Reg(4) Reg(4), the left operand first (R96, R117). -/
def decodeRegForm (c : Config) (f : Reg → Reg → Instr) (b1 : Byte) : Except DecodeError Instr :=
  .ok (f (highField c b1) (lowField c b1))

/-- Byte 1 of the format d, f and h instructions (R92, R111). -/
def decodeDfh (c : Config) (op : DfhOp) (b1 : Byte) : Except DecodeError Instr :=
  match op with
  | .br => .ok (.br b1)
  | .brnz => .ok (.brnz b1)
  | .brnc => .ok (.brnc b1)
  | .brncz => .ok (.brncz b1)
  | .brz => .ok (.brz b1)
  | .brc => .ok (.brc b1)
  | .brcz => .ok (.brcz b1)
  | .add => decodeRegForm c .add b1
  | .sub => decodeRegForm c .sub b1
  | .addc => decodeRegForm c .addc b1
  | .subc => decodeRegForm c .subc b1
  | .move => decodeRegForm c .move b1
  | .and => decodeRegForm c .and b1
  | .or => decodeRegForm c .or b1
  | .xor => decodeRegForm c .xor b1
  | .shll => decodeBitForm c .shll b1
  | .rotr => decodeBitForm c .rotr b1
  | .test => decodeBitForm c .test b1
  | .clear => decodeBitForm c .clear b1
  | .set => decodeBitForm c .set b1
  | .rotl => decodeBitForm c .rotl b1
  | .shlr => decodeBitForm c .shlr b1
  | .shal => decodeBitForm c .shal b1
  | .shar => decodeBitForm c .shar b1

/-- The bytes after byte 0 (R111). In formats i and j byte 1 is I_16[7:0] and byte 2 is I_16[15:8] (R101). -/
def decodeTail (c : Config) (h : Head) (rest : List Byte) : Except DecodeError Instr :=
  match h, rest with
  | .one i, _ => .ok i
  | .dfh op, b1 :: _ => decodeDfh c op b1
  | .movel p, b1 :: _ => .ok (.movel p b1)
  | .moveh p, b1 :: _ => .ok (.moveh p b1)
  | .compl p, b1 :: _ => .ok (.compl p b1)
  | .comph p, b1 :: _ => .ok (.comph p b1)
  | .load p, b1 :: _ => .ok (.load (highField c b1) p (b1.extractLsb' 0 4))
  | .store p, b1 :: _ => .ok (.store p (b1.extractLsb' 0 4) (highField c b1))
  | .call, b1 :: b2 :: _ => .ok (.call (joinBytes b2 b1))
  | .jump, b1 :: b2 :: _ => .ok (.jump (joinBytes b2 b1))
  | .movei p, b1 :: b2 :: _ => .ok (.movei p (joinBytes b2 b1))
  | _, _ => .error .short

/-- The instruction at the front of a list of bytes (R111). -/
def decode (c : Config) (bytes : List Byte) : Except DecodeError Instr :=
  match bytes with
  | [] => .error .short
  | b0 :: rest =>
    match decodeHead c b0 with
    | .error e => .error e
    | .ok h => decodeTail c h rest

/-- The length of an instruction in bytes (R90, R92). -/
def Instr.length : Instr → Nat
  | .reset | .ret | .inc _ | .dec _ | .pop _ | .push _ | .decl _ | .dech _ | .incl _ | .inch _ => 1
  | .br _ | .brnz _ | .brnc _ | .brncz _ | .brz _ | .brc _ | .brcz _ => 2
  | .movel _ _ | .moveh _ _ | .compl _ _ | .comph _ _ => 2
  | .add _ _ | .sub _ _ | .addc _ _ | .subc _ _ | .move _ _ | .and _ _ | .or _ _ | .xor _ _ => 2
  | .load _ _ _ | .store _ _ _ => 2
  | .shll _ _ | .rotr _ _ | .test _ _ | .clear _ _ | .set _ _ | .rotl _ _ | .shlr _ _ | .shal _ _ | .shar _ _ => 2
  | .call _ | .jump _ | .movei _ _ => 3

/-- Byte 0 of the formats with a Pair field: five bits, the pair, the last bit (R103 to R105). -/
def pairByte (op : BitVec 5) (p : Pair) (last : BitVec 1) : Byte := op ++ pairBits p ++ last

/-- Byte 1 of format f: `l * 16 + r` (R96). -/
def regRegByte (c : Config) (l r : Reg) : Byte := codeOfReg c l ++ codeOfReg c r

/-- Byte 1 of format h: Reg(4), the unused bit 0, I_3 (R92). -/
def bitFormByte (c : Config) (r : Reg) (n : BitVec 3) : Byte := codeOfReg c r ++ 0#1 ++ n

/-- The bytes of an instruction, byte 0 first, unused bits 0 (R102 to R108). -/
def encode (c : Config) (i : Instr) : List Byte :=
  match i with
  | .reset => [0x40#8]
  | .ret => [0x48#8]
  | .inc p => [pairByte 0b01100#5 p 0#1]
  | .dec p => [pairByte 0b01100#5 p 1#1]
  | .pop p => [pairByte 0b01101#5 p 0#1]
  | .push p => [pairByte 0b01101#5 p 1#1]
  | .decl p => [pairByte 0b01110#5 p 0#1]
  | .dech p => [pairByte 0b01110#5 p 1#1]
  | .incl p => [pairByte 0b01111#5 p 0#1]
  | .inch p => [pairByte 0b01111#5 p 1#1]
  | .br off => [c.dfhByte .br, off]
  | .brnz off => [c.dfhByte .brnz, off]
  | .brnc off => [c.dfhByte .brnc, off]
  | .brncz off => [c.dfhByte .brncz, off]
  | .brz off => [c.dfhByte .brz, off]
  | .brc off => [c.dfhByte .brc, off]
  | .brcz off => [c.dfhByte .brcz, off]
  | .movel p imm => [pairByte 0b10110#5 p 0#1, imm]
  | .moveh p imm => [pairByte 0b10110#5 p 1#1, imm]
  | .compl p imm => [pairByte 0b10111#5 p 0#1, imm]
  | .comph p imm => [pairByte 0b10111#5 p 1#1, imm]
  | .add l r => [c.dfhByte .add, regRegByte c l r]
  | .sub l r => [c.dfhByte .sub, regRegByte c l r]
  | .addc l r => [c.dfhByte .addc, regRegByte c l r]
  | .subc l r => [c.dfhByte .subc, regRegByte c l r]
  | .move l r => [c.dfhByte .move, regRegByte c l r]
  | .and l r => [c.dfhByte .and, regRegByte c l r]
  | .or l r => [c.dfhByte .or, regRegByte c l r]
  | .xor l r => [c.dfhByte .xor, regRegByte c l r]
  | .load r p disp => [pairByte 0b10100#5 p 0#1, codeOfReg c r ++ disp]
  | .store p disp r => [pairByte 0b10101#5 p 0#1, codeOfReg c r ++ disp]
  | .shll r n => [c.dfhByte .shll, bitFormByte c r n]
  | .rotr r n => [c.dfhByte .rotr, bitFormByte c r n]
  | .test r n => [c.dfhByte .test, bitFormByte c r n]
  | .clear r n => [c.dfhByte .clear, bitFormByte c r n]
  | .set r n => [c.dfhByte .set, bitFormByte c r n]
  | .rotl r n => [c.dfhByte .rotl, bitFormByte c r n]
  | .shlr r n => [c.dfhByte .shlr, bitFormByte c r n]
  | .shal r n => [c.dfhByte .shal, bitFormByte c r n]
  | .shar r n => [c.dfhByte .shar, bitFormByte c r n]
  | .call t => [0xC0#8, loByte t, hiByte t]
  | .jump t => [0xC1#8, loByte t, hiByte t]
  | .movei p v => [pairByte 0b11100#5 p 0#1, loByte v, hiByte v]

/-- The offset the assembler stores in a relative branch at `a` to `target` (R118): `target - (a + 2)`, which must lie
in -128..127. -/
def branchOffset (a target : Addr) : Option Byte :=
  let d := target - (a + 2#16)
  if sext16 (loByte d) = d then some (loByte d) else none

/-- The bytes of a table word, byte 0 first. The table numbers its words with byte 0 most significant (the convention
of 30_encoding.md: "byte 0 most significant"); a word numbered the other way round, byte 0 least significant, is
taken so when only that reading has the length its first byte states (R90). -/
def tableBytes (nbits w : Nat) : List Byte :=
  let n := nbits / 8
  let loFirst := (List.range n).map (fun k => BitVec.ofNat 8 (w >>> (8 * k)))
  let hiFirst := loFirst.reverse
  if prefixLength (hiFirst.headD 0#8) = n then hiFirst
  else if prefixLength (loFirst.headD 0#8) = n then loFirst
  else hiFirst

/-- The instruction the decoder reads from a table word, under the default parameters. -/
def decodeTableWord (nbits w : Nat) : Option Instr :=
  match decode Config.default (tableBytes nbits w ++ [0#8, 0#8]) with
  | .ok i => some i
  | .error _ => none

end Sys2Proof
end

