-- ==== Sys2Proof/Machine/Fetch.lean ====
section
/-! DEFINITION. Fetching the bytes of an instruction and decoding them (R73, R84, R111, R200). -/

namespace Sys2Proof.Machine

/-- What a fetch ends in. -/
inductive Fetched where
  /-- An instruction, in the state that executes it: `pc` is at the next instruction. -/
  | instr (i : Instr) (s : State)
  /-- A non-maskable interrupt, raised in a state. -/
  | nmi (cause : NmiCause) (info : Addr) (s : State)
  /-- No meaning. -/
  | refused (r : Refusal)
deriving DecidableEq, Repr

/-- What the fetch of the bytes after byte 0 ends in. -/
inductive FetchedBytes where
  | got (bytes : List Byte) (s : State)
  | nmi (cause : NmiCause) (info : Addr) (s : State)
  | refused (r : Refusal)
deriving DecidableEq, Repr

/-- `n` more bytes from address `a` on, each policed (R73). -/
def fetchBytes : Nat → Addr → State → FetchedBytes
  | 0, _, s => .got [] s
  | n + 1, a, s =>
    match s.fetchCheck a with
    | .nmi cause info => .nmi cause info s
    | .refuse r => .refused r
    | .pass =>
      match fetchBytes n (a + 1#16) (s.readByte a).2 with
      | .got bytes t => .got ((s.readByte a).1 :: bytes) t
      | .nmi cause info t => .nmi cause info t
      | .refused r => .refused r

/-- What a decoding error becomes (R102, R110): the NMI carries the address of byte 0. -/
def decodeStop (e : DecodeError) (pc : Addr) (s : State) : Fetched :=
  match e with
  | .invalidOpcode | .short => .nmi .invalidOpcode pc s
  | .unusedBits => .refused .unusedBits

/-- The instruction at `pc` (R111): byte 0 is looked up first, then the bytes its length asks for are fetched. -/
def fetch (s : State) : Fetched :=
  match fetchBytes 1 s.pc s with
  | .nmi cause info t => .nmi cause info t
  | .refused r => .refused r
  | .got first t =>
    match decodeHead s.config (first.headD 0#8) with
    | .error e => decodeStop e s.pc t
    | .ok h =>
      match fetchBytes h.extra (s.pc + 1#16) t with
      | .nmi cause info u => .nmi cause info u
      | .refused r => .refused r
      | .got rest u =>
        match decodeTail s.config h rest with
        | .error e => decodeStop e s.pc u
        | .ok i => .instr i (u.withPc (s.pc + 1#16 + BitVec.ofNat 16 h.extra))

/-- Bytes placed in memory from an address on, with no check: what a loader does outside the machine. -/
def placeBytes : List Byte → Addr → State → State
  | [], _, s => s
  | b :: rest, a, s => placeBytes rest (a + 1#16) (s.withMem (s.mem.write a.toNat b))

/-- A table word placed where the next instruction is fetched, with zeros up to three bytes. -/
def placeTableWord (nbits w : Nat) (s : State) : State :=
  placeBytes ((tableBytes nbits w ++ [0#8, 0#8, 0#8]).take 3) s.pc s

end Sys2Proof.Machine
end

