-- ==== Sys2Proof/Machine/Step.lean ====
section
/-! DEFINITION. One step of the machine (R200), and the placing of a program word for the host. -/

namespace Sys2Proof.Machine

/-- One step after the boundary: a requested interrupt, if any, is the whole step (R226); otherwise the instruction at
`pc` is fetched and executed (R200). -/
def coreStep (s : State) : Host.Outcome State Fault Refusal :=
  match s.nextIrq with
  | some x => takeIrq x s
  | none =>
    match fetch s with
    | .instr i t => exec i t
    | .nmi cause info t => raiseNmi cause info t
    | .refused r => .refused r

/-- One step: what the other agents do at the boundary, then the core (R200, R275). -/
def step (s : State) : Host.Outcome State Fault Refusal := coreStep (boundary s)

/-- `s` with an instruction of the table stored where the next step fetches. -/
def State.withFetchWord (s : State) (nbits w : Nat) : State := placeTableWord nbits w s

end Sys2Proof.Machine
end

