-- ==== Sys2Proof/Safety.lean ====
section
/-! DEFINITION. What the claims are stated in: the invariant of the machine, safe runs and the end of a run, what a read
may show, and what a step leaves unchanged. -/

namespace Sys2Proof

/-- The `R` operand an instruction writes (R40): the left or only register of formats f and h, TEST apart, and that of
LOAD. Pairs are named by their own instructions. -/
def Instr.regDest : Instr → Option Reg
  | .add l _ | .sub l _ | .addc l _ | .subc l _ | .move l _ | .and l _ | .or l _ | .xor l _ | .load l _ _ => some l
  | .shll r _ | .rotr r _ | .clear r _ | .set r _ | .rotl r _ | .shlr r _ | .shal r _ | .shar r _ => some r
  | .reset | .ret | .inc _ | .dec _ | .pop _ | .push _ | .decl _ | .dech _ | .incl _ | .inch _ => none
  | .br _ | .brnz _ | .brnc _ | .brncz _ | .brz _ | .brc _ | .brcz _ | .call _ | .jump _ => none
  | .movel _ _ | .moveh _ _ | .compl _ _ | .comph _ _ | .movei _ _ | .store _ _ _ | .test _ _ => none

end Sys2Proof

namespace Sys2Proof.Machine

/-! ### The invariant -/

/-- PCON bits 7..4 mirror the port operation in progress (R37 (b), R251): DIR and DOW never last beyond their step. -/
def PortMirrored (s : State) : Prop :=
  match s.port with
  | .idle => controlOf s.regs.pcon = 0x00#8
  | .adc _ _ => controlOf s.regs.pcon = 0x10#8
  | .pwm _ _ _ => controlOf s.regs.pcon = 0x20#8
  | .several _ => controlOf s.regs.pcon = 0x30#8

/-- Nothing is held where nothing is implemented (R63), nor in the SMB zone, which is not RAM (R78). -/
def CellsPlaced (s : State) : Prop :=
  ∀ x ∈ s.mem.cells, s.implemented (BitVec.ofNat 16 x.1) = true ∧ inSmbZone (BitVec.ofNat 16 x.1) = false

/-- The invariant: usable parameters, the memory in canonical form and in its place, PCON true to the ports. -/
structure Inv (s : State) : Prop where
  config : s.config.wellFormed = true
  memory : s.mem.wf
  placed : CellsPlaced s
  mirrored : PortMirrored s

/-! ### Runs -/

/-- A run of `k` steps that meets no fault and no refusal (R293: those are model results, not machine states). -/
def SafeFor (k : Nat) (s : State) : Prop := ∃ t, core.run k s = .next t

/-- The next step fetches `i`: every one of its bytes at `pc` may be fetched (R73, R75), lies outside the SMB zone (R78),
and is that of the encoding. -/
def Fetches (s : State) (i : Instr) : Prop :=
  (∀ k, k < i.length → s.fetchCheck (s.pc + BitVec.ofNat 16 k) = .pass ∧
    inSmbZone (s.pc + BitVec.ofNat 16 k) = false) ∧
  (List.range i.length).map (fun k => s.byteAt (s.pc + BitVec.ofNat 16 k)) = encode s.config i

/-- The action requests the interrupt (R225, R247, R261, R262, R271). -/
def EnvAction.requests : EnvAction → Irq → Bool
  | .timerTick, .timer | .smbEvent, .smb | .hostWriteCommand _, .acpi | .hostWriteData _, .acpi => true
  | .timerTick, .smb | .timerTick, .acpi | .smbEvent, .timer | .smbEvent, .acpi => false
  | .hostWriteCommand _, .timer | .hostWriteCommand _, .smb | .hostWriteData _, .timer | .hostWriteData _, .smb => false
  | .hostReadStatus, _ | .hostReadData, _ | .adcComplete _, _ | .pwmComplete, _ => false
  | .setPolicingPin _, _ | .deviceReset, _ => false

/-- The interrupt is declared not to arrive: it is not pending, and nothing that is scheduled requests it (R293: "or the
test declares that none arrives"; the declaration is the schedule, log 24). -/
def NeverArrives (s : State) (x : Irq) : Prop :=
  s.irqPending x = false ∧ ∀ l ∈ s.arrivals, ∀ a ∈ l, a.requests x = false

/-- The end of a run (R293): `pc` addresses `BR` to itself, bytes 80 FE in the decided map, where it can be fetched, and
each interrupt is disabled or declared not to arrive. -/
def AtEnd (s : State) : Prop :=
  Fetches s (.br 0xFE#8) ∧ ∀ x : Irq, s.irqEnabled x = false ∨ NeverArrives s x

/-- A run that ends: after `k` steps without a fault or a refusal the machine is at the end, in the final state `t`
(R293). -/
def EndsIn (k : Nat) (s t : State) : Prop := core.run k s = .next t ∧ AtEnd t

/-! ### The ports between two steps -/

/-- Nothing in the next step but the passing of time bears on the port operation: no completion and no reset is scheduled
for the boundary, and the instruction, if one is executed, writes no PCON and is not RESET. -/
structure LeavesPortsAlone (s : State) : Prop where
  arrivals : ∀ a ∈ s.arrivals.headD [], a ≠ .pwmComplete ∧ a ≠ .deviceReset ∧ ∀ v, a ≠ .adcComplete v
  instr : (boundary s).nextIrq = none → ∀ i u, fetch (boundary s) = .instr i u → i ≠ .reset ∧ i.regDest ≠ some .pcon

/-! ### Reads -/

/-- The bits of a register that a read may show as anything: all of an undefined PDATA (R253), the unused bits under
`STATUS_UNUSED_READ` = `draw` (R28, R29). -/
def openBits (s : State) (r : Reg) : Byte :=
  match r with
  | .pdata => if s.pdataUndefined then 0xFF#8 else 0x00#8
  | .status | .ecscr =>
    match s.config.unusedRead with
    | .draw => unusedMask r
    | .storage => 0x00#8
  | .r0 | .r1 | .r2 | .r3 | .r4 | .r5 | .r6 | .r7 | .ecdata | .c0 | .c1 | .ecscw | .pcon => 0x00#8

/-- A value that a read of a register may show: the stored byte, but for the open bits. -/
def ReadShows (s : State) (r : Reg) (v : Byte) : Prop :=
  v &&& ~~~(openBits s r) = s.reg r &&& ~~~(openBits s r)

/-! ### Frames -/

/-- What is the same after as before, but for the registers listed: every other register, every byte of memory, `sp`,
the pending requests, the pin, the environment and the parameters; the ports and their latches unless PCON is listed,
whether PDATA is undefined unless PCON or PDATA is, the SCI unless ECSCR is. -/
structure Frame (rs : List Reg) (s t : State) : Prop where
  regs : ∀ q, q ∉ rs → t.reg q = s.reg q
  bytes : ∀ a, t.byteAt a = s.byteAt a
  sp : t.sp = s.sp
  irq : t.irq = s.irq
  policing : t.policing = s.policing
  hostRead : t.hostRead = s.hostRead
  arrivals : t.arrivals = s.arrivals
  timerWait : t.timerWait = s.timerWait
  config : t.config = s.config
  ports : Reg.pcon ∉ rs → t.port = s.port ∧ t.pwmDuty = s.pwmDuty ∧ t.dout = s.dout
  pdataUndefined : Reg.pcon ∉ rs → Reg.pdata ∉ rs → t.pdataUndefined = s.pdataUndefined
  sci : Reg.ecscr ∉ rs → t.sci = s.sci

/-- The registers a program write of `l` may change: `l`; and PDATA with PCON, since a digital input read completes
within the step (R255). -/
def touched (l : Reg) : List Reg := if l = .pcon then [.pcon, .pdata] else [l]

/-- Writing `v` to `l` would cancel a port operation (R251: refused). -/
def cancels (s : State) (l : Reg) (v : Byte) : Bool :=
  l == .pcon && controlOf (s.regs.pcon &&& ~~~v) != 0x00#8

/-- What a program write of `v` to `l` does to `l` itself: the byte is stored; PDATA becomes defined; the SCI is raised
if an ECSCR write asks for it (R265); PCON and the ports become what the one rule for PCON writes makes of them
(R251). -/
structure Wrote (s t : State) (l : Reg) (v : Byte) : Prop where
  stored : l ≠ .pcon → t.reg l = v
  defined : l = .pdata → t.pdataUndefined = false
  sci : l = .ecscr → t.sci = (s.sci || sciRaised (s.reg .ecscr) v)
  pcon : l = .pcon → ∃ k u, writePcon v (s.withDraws k) = .ok u ∧ t.reg .pcon = u.reg .pcon ∧
    t.reg .pdata = u.reg .pdata ∧ t.pdataUndefined = u.pdataUndefined ∧ t.port = u.port ∧
    t.pwmDuty = u.pwmDuty ∧ t.dout = u.dout

/-- STATUS bits other than C and Z are the same. -/
def StatusKept (s t : State) : Prop := t.reg .status &&& 0xE7#8 = s.reg .status &&& 0xE7#8

/-- The outcome of an instruction that writes `v` to `l` and sets both flags, and does nothing else. -/
def FlaggedWrite (s : State) (l : Reg) (v : Byte) (c z : Bool) (o : Result) : Prop :=
  if cancels s l v then o = .refused .portCancel
  else ∃ t, o = .next t ∧ Wrote s t l v ∧ t.carry = c ∧ t.zero = z ∧ StatusKept s t ∧
    Frame (.status :: touched l) s t ∧ t.pc = s.pc

/-- The outcome of an instruction that writes `v` to `l`, no flag as a side effect, and does nothing else. -/
def PlainWrite (s : State) (l : Reg) (v : Byte) (o : Result) : Prop :=
  if cancels s l v then o = .refused .portCancel
  else ∃ t, o = .next t ∧ Wrote s t l v ∧ Frame (touched l) s t ∧ t.pc = s.pc

/-- Two bytes of the stack, `sp-2` and `sp-1`, hold `v` with its high byte at the lower address, and every other byte
reads as before (R65 (a)); in the SMB zone, which is no RAM, nothing is stored (R78). -/
structure Pushed (s t : State) (v : Addr) : Prop where
  sp : t.sp = s.sp - 2#16
  high : inSmbZone (s.sp - 2#16) = false → t.byteAt (s.sp - 2#16) = hiByte v
  low : inSmbZone (s.sp - 1#16) = false → t.byteAt (s.sp - 1#16) = loByte v
  others : ∀ a, a ≠ s.sp - 2#16 → a ≠ s.sp - 1#16 → t.byteAt a = s.byteAt a
  zone : ∀ a, inSmbZone a = true → t.byteAt a = s.byteAt a

/-- Everything but `pc`, `sp`, memory and the pending requests is the same: what a trap entry leaves alone (R228). -/
structure SameMachine (s t : State) : Prop where
  regs : t.regs = s.regs
  port : t.port = s.port
  pdataUndefined : t.pdataUndefined = s.pdataUndefined
  pwmDuty : t.pwmDuty = s.pwmDuty
  dout : t.dout = s.dout
  policing : t.policing = s.policing
  sci : t.sci = s.sci
  hostRead : t.hostRead = s.hostRead
  arrivals : t.arrivals = s.arrivals
  timerWait : t.timerWait = s.timerWait
  config : t.config = s.config

/-- The two bytes a push would write lie in data memory (R74). -/
def pushRoom (s : State) : Bool := s.inRam (s.sp - 2#16) && s.inRam (s.sp - 1#16)

/-- A data read of the address is performed: it lies in data memory (R72), or policing is off and it is implemented
(R75). -/
def readable (s : State) (a : Addr) : Bool := s.inRam a || (!s.policing && s.implemented a)

/-- The two bytes a pop would read may be read (R74, R75). -/
def popRoom (s : State) : Bool := readable s s.sp && readable s (s.sp + 1#16)

/-- A control transfer to the address is valid: any with policing off, program memory with policing on (R71, R75). -/
def targetOk (s : State) (t : Addr) : Bool := !s.policing || s.inFlash t

/-- Why a store outside data memory has no meaning with policing off (R76). -/
def storeRefusal (s : State) (a : Addr) : Refusal :=
  if s.inFlash a then .flashStore a else .unimplementedAddress a

/-! ### Encodings as the rules print them -/

/-- The specifier of a register in the table of R97. -/
def specifier (r : Reg) : Nat := Reg.all.idxOf r

/-- The number of a pair (R93). -/
def pairNumber : Pair → Nat
  | .rp0 => 0
  | .rp1 => 1
  | .rp2 => 2
  | .rp3 => 3

/-- The bytes `b0 + 2p` of formats b and c. -/
def bytesB (b0 : Nat) (p : Pair) : List Byte := [BitVec.ofNat 8 (b0 + 2 * pairNumber p)]

/-- The bytes of a format e instruction. -/
def bytesE (b0 : Nat) (p : Pair) (imm : Byte) : List Byte := [BitVec.ofNat 8 (b0 + 2 * pairNumber p), imm]

/-- The bytes of a format f instruction: byte 1 is `l * 16 + r`. -/
def bytesF (b0 : Nat) (l r : Reg) : List Byte :=
  [BitVec.ofNat 8 b0, BitVec.ofNat 8 (specifier l * 16 + specifier r)]

/-- The bytes of a format g instruction: byte 1 is `r * 16 + I_4`. -/
def bytesG (b0 : Nat) (p : Pair) (r : Reg) (disp : BitVec 4) : List Byte :=
  [BitVec.ofNat 8 (b0 + 2 * pairNumber p), BitVec.ofNat 8 (specifier r * 16 + disp.toNat)]

/-- The bytes of a format h instruction: byte 1 is `r * 16 + I_3`. -/
def bytesH (b0 : Nat) (r : Reg) (n : BitVec 3) : List Byte :=
  [BitVec.ofNat 8 b0, BitVec.ofNat 8 (specifier r * 16 + n.toNat)]

/-- The bytes of a format i or j instruction: the low byte of I_16 before the high one. -/
def bytesI (b0 : Nat) (v : Addr) : List Byte :=
  [BitVec.ofNat 8 b0, BitVec.ofNat 8 (v.toNat % 256), BitVec.ofNat 8 (v.toNat / 256)]

/-- The unused bits of an instruction's bytes (R102): format a bits 2..0, format g bit 0, format h byte 1 bit 3, format i
bits 3..1, format j bit 0. -/
def unusedBitsOf : Instr → List Byte
  | .reset | .ret => [0x07#8]
  | .inc _ | .dec _ | .pop _ | .push _ | .decl _ | .dech _ | .incl _ | .inch _ => [0x00#8]
  | .br _ | .brnz _ | .brnc _ | .brncz _ | .brz _ | .brc _ | .brcz _ => [0x00#8, 0x00#8]
  | .movel _ _ | .moveh _ _ | .compl _ _ | .comph _ _ => [0x00#8, 0x00#8]
  | .add _ _ | .sub _ _ | .addc _ _ | .subc _ _ | .move _ _ | .and _ _ | .or _ _ | .xor _ _ => [0x00#8, 0x00#8]
  | .load _ _ _ | .store _ _ _ => [0x01#8, 0x00#8]
  | .shll _ _ | .rotr _ _ | .test _ _ | .clear _ _ | .set _ _ | .rotl _ _ | .shlr _ _ | .shal _ _ | .shar _ _ =>
    [0x00#8, 0x08#8]
  | .call _ | .jump _ => [0x0E#8, 0x00#8, 0x00#8]
  | .movei _ _ => [0x01#8, 0x00#8, 0x00#8]

end Sys2Proof.Machine
end

