-- ==== Sys2Proof/Certificates/Slice0/Obligations.lean ====
section
/-! DEFINITION. The statements for the provers, from the numbered rules of the spec. -/

open Sys2Proof Sys2Proof.Machine

/-! ### Encoding -/

/-- Every instruction is read back from its own bytes, whatever the parameters (R92 to R111). -/
def Obligations.DecodeReadsBackEncode : Prop :=
  ∀ (c : Config) (i : Instr), c.wellFormed = true → decode c (encode c i) = .ok i

/-- Every word has one meaning: bytes that decode are the encoding of what they decode to, unless `UNUSED_BITS` is
`ignore` (R102, R109). -/
def Obligations.DecodedBytesAreTheEncoding : Prop :=
  ∀ (c : Config) (bytes : List Byte) (i : Instr), c.wellFormed = true → c.unusedBits ≠ .ignore →
    decode c bytes = .ok i → encode c i = bytes.take i.length

/-- R90: bits 7..6 of byte 0 are the length in bytes, for every usable op-code map; the prefix 00 is no instruction. -/
def Obligations.FirstBitsGiveTheLength : Prop :=
  ∀ (c : Config), c.wellFormed = true →
    (∀ i : Instr, (encode c i).length = i.length ∧ prefixLength ((encode c i).headD 0#8) = i.length) ∧
    (∀ b : Byte, prefixLength b = 0 → decodeHead c b = .error .invalidOpcode) ∧
    (∀ (b : Byte) (h : Head), decodeHead c b = .ok h → prefixLength b = h.extra + 1)

/-- The invalid op-codes of the decided map, byte by byte (R110; the set is the spec's decision D6 under D2). -/
def Obligations.InvalidOpcodesAreTheListed : Prop :=
  ∀ b : Byte, decodeHead Config.default b = .error .invalidOpcode ↔
    (b.toNat ≤ 0x3F ∨ (0x50 ≤ b.toNat ∧ b.toNat ≤ 0x5F) ∨ b.toNat = 0x84 ∨ b.toNat = 0x86 ∨ b.toNat = 0x8E ∨
      b.toNat = 0x91 ∨ (0x9C ≤ b.toNat ∧ b.toNat ≤ 0x9F) ∨ (0xD0 ≤ b.toNat ∧ b.toNat ≤ 0xDF) ∨ 0xE8 ≤ b.toNat)

/-- A few words written out from the encodings of the spec decode to the instructions they stand for (95_test_vectors). -/
def Obligations.SpecWordsDecode : Prop :=
  decode Config.default [0x90#8, 0x01#8] = .ok (.add .r0 .r1) ∧
  decode Config.default [0x98#8, 0xF0#8] = .ok (.move .status .r0) ∧
  decode Config.default [0xA2#8, 0x5A#8] = .ok (.load .r5 .rp1 0xA#4) ∧
  decode Config.default [0x8A#8, 0xE4#8] = .ok (.set .pcon 4#3) ∧
  decode Config.default [0xC0#8, 0x34#8, 0x12#8] = .ok (.call 0x1234#16) ∧
  decode Config.default [0x6B#8] = .ok (.push .rp1) ∧
  decode Config.default [0x8B#8, 0xF0#8] = .ok (.brz 0xF0#8)

/-- The bytes of an instruction with some unused bit set are refused, an invalid op-code, or read with the bit ignored, by
`UNUSED_BITS` (R102; the parameter is the spec's decision D4). -/
def Obligations.UnusedBitsFollowTheParameter : Prop :=
  ∀ (c : Config) (i : Instr) (bytes : List Byte), c.wellFormed = true → bytes.length = i.length →
    List.zipWith (fun b m => b &&& ~~~m) bytes (unusedBitsOf i) = encode c i → bytes ≠ encode c i →
    (c.unusedBits = .refuse → decode c bytes = .error .unusedBits) ∧
    (c.unusedBits = .invalid → decode c bytes = .error .invalidOpcode) ∧
    (c.unusedBits = .ignore → decode c bytes = .ok i)

/-- R118: the offset the assembler stores makes the branch reach its target; it exists exactly for the targets from 128
bytes before the next instruction to 127 after. -/
def Obligations.BranchOffsetReachesTheTarget : Prop :=
  ∀ a target : Addr,
    (∀ off, branchOffset a target = some off → a + 2#16 + sext16 off = target) ∧
    ((∃ off, branchOffset a target = some off) ↔
      -128 ≤ (target - (a + 2#16)).toInt ∧ (target - (a + 2#16)).toInt ≤ 127)

/-! ### One step -/

/-- A step runs the decoded instruction: with no interrupt requested at the boundary, and every byte of the instruction
fetchable and in ordinary memory, the step is `exec` of it, `pc` already at the next instruction (R111, R200). -/
def Obligations.StepRunsTheDecodedInstruction : Prop :=
  ∀ (s : State) (i : Instr), (boundary s).nextIrq = none → (boundary s).config.wellFormed = true →
    (∀ k, k < i.length → (boundary s).fetchCheck ((boundary s).pc + BitVec.ofNat 16 k) = .pass ∧
      inSmbZone ((boundary s).pc + BitVec.ofNat 16 k) = false) →
    decode (boundary s).config
      ((List.range i.length).map (fun k => (boundary s).byteAt ((boundary s).pc + BitVec.ofNat 16 k))) = .ok i →
    step s = exec i ((boundary s).withPc ((boundary s).pc + BitVec.ofNat 16 i.length))

/-- What a step does whose bytes are no instruction. Any byte, first or later, beyond `FLASH_TOP` raises the NMI
invalid_fetch with its own address when policing is on, and is refused where it is not implemented when policing is off
(R73, R112, R76 (a)); whatever the pin, an invalid op-code raises the NMI invalid_opcode with the address of byte 0, and no
further byte is fetched (R110, R246); a nonzero unused bit does as `UNUSED_BITS` says, and one in byte 0 is refused before
any further byte is fetched (R102, R111). Policing of the fetch is the spec's decision D16, the refusals are D17 and D4. -/
def Obligations.BadFetchRaisesTheNmi : Prop :=
  ∀ s b : State, b = boundary s → b.nextIrq = none →
    (∀ k, (k = 0 ∨ ∃ h, decodeHead b.config (b.byteAt b.pc) = .ok h ∧ k ≤ h.extra) →
      (∀ j, j < k → b.fetchCheck (b.pc + BitVec.ofNat 16 j) = .pass ∧ inSmbZone (b.pc + BitVec.ofNat 16 j) = false) →
      (b.policing = true → b.config.flashTop < b.pc + BitVec.ofNat 16 k →
        step s = raiseNmi .invalidFetch (b.pc + BitVec.ofNat 16 k) b) ∧
      (b.policing = false → b.implemented (b.pc + BitVec.ofNat 16 k) = false →
        step s = .refused (.unimplementedAddress (b.pc + BitVec.ofNat 16 k)))) ∧
    (b.fetchCheck b.pc = .pass → inSmbZone b.pc = false →
      (decodeHead b.config (b.byteAt b.pc) = .error .invalidOpcode → step s = raiseNmi .invalidOpcode b.pc b) ∧
      (decodeHead b.config (b.byteAt b.pc) = .error .unusedBits → step s = .refused .unusedBits)) ∧
    (∀ (i : Instr) (bytes : List Byte), b.config.wellFormed = true → bytes.length = i.length →
      List.zipWith (fun x m => x &&& ~~~m) bytes (unusedBitsOf i) = encode b.config i → bytes ≠ encode b.config i →
      (∀ j, j < i.length → b.fetchCheck (b.pc + BitVec.ofNat 16 j) = .pass ∧
        inSmbZone (b.pc + BitVec.ofNat 16 j) = false) →
      (List.range i.length).map (fun j => b.byteAt (b.pc + BitVec.ofNat 16 j)) = bytes →
      (b.config.unusedBits = .refuse → step s = .refused .unusedBits) ∧
      (b.config.unusedBits = .invalid → step s = raiseNmi .invalidOpcode b.pc b) ∧
      (b.config.unusedBits = .ignore → step s = exec i (b.withPc (b.pc + BitVec.ofNat 16 i.length))))

/-! ### Registers -/

/-- R22: the even register is the low byte of a pair, the odd one the high byte; a pair is no separate state. -/
def Obligations.PairIsOddHighEvenLow : Prop :=
  (Pair.rp0.lo = .r0 ∧ Pair.rp0.hi = .r1 ∧ Pair.rp1.lo = .r2 ∧ Pair.rp1.hi = .r3 ∧
    Pair.rp2.lo = .r4 ∧ Pair.rp2.hi = .r5 ∧ Pair.rp3.lo = .r6 ∧ Pair.rp3.hi = .r7) ∧
  ∀ (s : State) (p : Pair) (v : Addr) (b : Byte),
    (s.pair p).toNat = (s.reg p.hi).toNat * 256 + (s.reg p.lo).toNat ∧
    (s.putPair p v).pair p = v ∧
    ((s.putReg p.lo b).pair p).toNat = (s.reg p.hi).toNat * 256 + b.toNat ∧
    ((s.putReg p.hi b).pair p).toNat = b.toNat * 256 + (s.reg p.lo).toNat ∧
    (∀ q : Pair, q ≠ p → (s.putPair p v).pair q = s.pair q)

/-- Reading a register shows its stored byte, but for the bits the spec leaves open, and has no side effect (R28, R29,
R30, R141, R175). -/
def Obligations.ReadsHaveNoSideEffect : Prop :=
  ∀ (s : State) (r : Reg), ReadShows s r (s.readReg r).1 ∧ Frame [] s (s.readReg r).2 ∧ (s.readReg r).2.pc = s.pc

/-- A flag-writing instruction with destination STATUS is refused, and only those (R142, the spec's decision D9). -/
def Obligations.StatusDestinationIsRefused : Prop :=
  ∀ (i : Instr) (s : State), (exec i s = .refused .statusDestination ↔
    (∃ r, i = .add .status r ∨ i = .addc .status r ∨ i = .sub .status r ∨ i = .subc .status r ∨ i = .and .status r ∨
      i = .or .status r ∨ i = .xor .status r) ∨ (∃ n, i = .rotl .status n ∨ i = .rotr .status n))

/-- The instructions that write a register and flags answer a next state, when the destination is not STATUS and no
port operation is there to cancel. -/
def Obligations.FlaggedInstructionsComplete : Prop :=
  ∀ (l r : Reg) (n : BitVec 3) (s : State), l ≠ .status → (l = .pcon → controlOf (s.reg .pcon) = 0x00#8) →
    (∃ t, exec (.add l r) s = .next t) ∧ (∃ t, exec (.addc l r) s = .next t) ∧ (∃ t, exec (.sub l r) s = .next t) ∧
    (∃ t, exec (.subc l r) s = .next t) ∧ (∃ t, exec (.and l r) s = .next t) ∧ (∃ t, exec (.or l r) s = .next t) ∧
    (∃ t, exec (.xor l r) s = .next t) ∧ (∃ t, exec (.rotl l n) s = .next t) ∧ (∃ t, exec (.rotr l n) s = .next t)

/-- The instructions that write a register and no flag answer a next state, when no port operation is there to cancel and,
for LOAD, the address may be read; TEST always. That a LOAD from the SMB zone 8200h to 82FFh completes is the model's
choice: the oracle alternative, where the spec allows a refusal too (R78, decision D24; log 13). -/
def Obligations.PlainInstructionsComplete : Prop :=
  ∀ (l r : Reg) (n : BitVec 3) (p : Pair) (disp : BitVec 4) (s : State),
    (l = .pcon → controlOf (s.reg .pcon) = 0x00#8) →
    (∃ t, exec (.move l r) s = .next t) ∧ (∃ t, exec (.set l n) s = .next t) ∧ (∃ t, exec (.clear l n) s = .next t) ∧
    (∃ t, exec (.shll l n) s = .next t) ∧ (∃ t, exec (.shlr l n) s = .next t) ∧ (∃ t, exec (.shal l n) s = .next t) ∧
    (∃ t, exec (.shar l n) s = .next t) ∧ (∃ t, exec (.test r n) s = .next t) ∧
    (readable s (s.effAddr p disp) = true → ∃ t, exec (.load l p disp) s = .next t)

/-! ### Fixed-point arithmetic -/

/-- ADD (R131; the first byte is the spec's decision D2, the register codes D3, STATUS as destination D9). -/
def Obligations.AddWritesTheSum : Prop :=
  ∀ (l r : Reg) (s : State), encode Config.default (.add l r) = bytesF 0x90 l r ∧
    (l = .status → exec (.add l r) s = .refused .statusDestination) ∧
    (l ≠ .status → ∃ a b : Byte, ReadShows s l a ∧ ReadShows s r b ∧ (l = r → a = b) ∧
      FlaggedWrite s l (BitVec.ofNat 8 (a.toNat + b.toNat)) (decide (256 ≤ a.toNat + b.toNat))
        (decide ((a.toNat + b.toNat) % 256 = 0)) (exec (.add l r) s))

/-- ADDC (R132; the first byte is the spec's decision D2, the register codes D3, STATUS as destination D9). -/
def Obligations.AddcWritesTheSumWithCarry : Prop :=
  ∀ (l r : Reg) (s : State), encode Config.default (.addc l r) = bytesF 0x94 l r ∧
    (l = .status → exec (.addc l r) s = .refused .statusDestination) ∧
    (l ≠ .status → ∃ a b : Byte, ReadShows s l a ∧ ReadShows s r b ∧ (l = r → a = b) ∧
      FlaggedWrite s l (BitVec.ofNat 8 (a.toNat + b.toNat + s.carry.toNat))
        (decide (256 ≤ a.toNat + b.toNat + s.carry.toNat))
        (decide ((a.toNat + b.toNat + s.carry.toNat) % 256 = 0)) (exec (.addc l r) s))

/-- SUB: C is set on borrow (R133; the first byte is the spec's decision D2, the register codes D3, STATUS as destination
D9). -/
def Obligations.SubWritesTheDifference : Prop :=
  ∀ (l r : Reg) (s : State), encode Config.default (.sub l r) = bytesF 0x92 l r ∧
    (l = .status → exec (.sub l r) s = .refused .statusDestination) ∧
    (l ≠ .status → ∃ a b : Byte, ReadShows s l a ∧ ReadShows s r b ∧ (l = r → a = b) ∧
      FlaggedWrite s l (BitVec.ofInt 8 ((a.toNat : Int) - b.toNat)) (decide (a.toNat < b.toNat))
        (decide (a = b)) (exec (.sub l r) s))

/-- SUBC: left minus right minus `1 - C`, or minus C, by `SUBC_BORROW_IN` (R134; the parameter is the spec's decision D34,
the first byte D2, the register codes D3, STATUS as destination D9). -/
def Obligations.SubcWritesTheDifferenceWithBorrow : Prop :=
  ∀ (l r : Reg) (s : State), encode Config.default (.subc l r) = bytesF 0x96 l r ∧
    (l = .status → exec (.subc l r) s = .refused .statusDestination) ∧
    (l ≠ .status → ∃ (a b : Byte) (bin : Int), ReadShows s l a ∧ ReadShows s r b ∧ (l = r → a = b) ∧
      (s.config.subcBorrowIn = .notCarry → bin = 1 - s.carry.toNat) ∧
      (s.config.subcBorrowIn = .carry → bin = s.carry.toNat) ∧
      FlaggedWrite s l (BitVec.ofInt 8 ((a.toNat : Int) - b.toNat - bin))
        (decide ((a.toNat : Int) - b.toNat - bin < 0))
        (decide (((a.toNat : Int) - b.toNat - bin) % 256 = 0)) (exec (.subc l r) s))

/-- R135 to R138: INCH, INCL, DECH and DECL step one half of a pair, with the flags each rule gives; the other half and
everything else is unchanged. -/
def Obligations.HalvesStepByOne : Prop :=
  ∀ (p : Pair) (s : State),
    encode Config.default (.inch p) = bytesB 0x79 p ∧ encode Config.default (.incl p) = bytesB 0x78 p ∧
    encode Config.default (.dech p) = bytesB 0x71 p ∧ encode Config.default (.decl p) = bytesB 0x70 p ∧
    (∃ t, exec (.inch p) s = .next t ∧ (t.reg p.hi).toNat = ((s.reg p.hi).toNat + 1) % 256 ∧
      t.carry = decide (s.reg p.hi = 0xFF#8) ∧ t.zero = decide (s.reg p.hi = 0xFF#8) ∧ StatusKept s t ∧
      Frame [.status, p.hi] s t ∧ t.pc = s.pc) ∧
    (∃ t, exec (.incl p) s = .next t ∧ (t.reg p.lo).toNat = ((s.reg p.lo).toNat + 1) % 256 ∧
      t.carry = decide (s.reg p.lo = 0xFF#8) ∧ t.zero = decide (s.reg p.lo = 0xFF#8) ∧ StatusKept s t ∧
      Frame [.status, p.lo] s t ∧ t.pc = s.pc) ∧
    (∃ t, exec (.dech p) s = .next t ∧ (t.reg p.hi).toNat = ((s.reg p.hi).toNat + 255) % 256 ∧
      t.carry = decide (s.reg p.hi = 0x00#8) ∧ t.zero = decide (s.reg p.hi = 0x01#8) ∧ StatusKept s t ∧
      Frame [.status, p.hi] s t ∧ t.pc = s.pc) ∧
    (∃ t, exec (.decl p) s = .next t ∧ (t.reg p.lo).toNat = ((s.reg p.lo).toNat + 255) % 256 ∧
      t.carry = decide (s.reg p.lo = 0x00#8) ∧ t.zero = decide (s.reg p.lo = 0x01#8) ∧ StatusKept s t ∧
      Frame [.status, p.lo] s t ∧ t.pc = s.pc)

/-- R139, R140: COMPH and COMPL set C on register below immediate, unsigned, and Z on equality, and write no register
but STATUS. -/
def Obligations.CompareSetsTheFlags : Prop :=
  ∀ (p : Pair) (imm : Byte) (s : State),
    encode Config.default (.comph p imm) = bytesE 0xB9 p imm ∧
    encode Config.default (.compl p imm) = bytesE 0xB8 p imm ∧
    (∃ t, exec (.comph p imm) s = .next t ∧ t.carry = decide ((s.reg p.hi).toNat < imm.toNat) ∧
      t.zero = decide (s.reg p.hi = imm) ∧ StatusKept s t ∧ Frame [.status] s t ∧ t.pc = s.pc) ∧
    (∃ t, exec (.compl p imm) s = .next t ∧ t.carry = decide ((s.reg p.lo).toNat < imm.toNat) ∧
      t.zero = decide (s.reg p.lo = imm) ∧ StatusKept s t ∧ Frame [.status] s t ∧ t.pc = s.pc)

/-- ADD on the low bytes, then ADDC on the high bytes, is a 16-bit addition with its carry (R131, R132). -/
def Obligations.AddThenAddcAddsPairs : Prop :=
  ∀ (p q : Pair) (s t u : State), p ≠ q → exec (.add p.lo q.lo) s = .next t → exec (.addc p.hi q.hi) t = .next u →
    (u.pair p).toNat = ((s.pair p).toNat + (s.pair q).toNat) % 65536 ∧ u.pair q = s.pair q ∧
    u.carry = decide (65536 ≤ (s.pair p).toNat + (s.pair q).toNat)

/-- With `SUBC_BORROW_IN` = `carry`, SUB on the low bytes, then SUBC on the high bytes, is a 16-bit subtraction with its
borrow (R134: "under which SUB then SUBC chains correctly"). -/
def Obligations.SubThenSubcSubtractsPairs : Prop :=
  ∀ (p q : Pair) (s t u : State), p ≠ q → s.config.subcBorrowIn = .carry →
    exec (.sub p.lo q.lo) s = .next t → exec (.subc p.hi q.hi) t = .next u →
    (u.pair p).toNat = ((s.pair p).toNat + 65536 - (s.pair q).toNat) % 65536 ∧ u.pair q = s.pair q ∧
    u.carry = decide ((s.pair p).toNat < (s.pair q).toNat)

/-! ### Logic and shift -/

/-- The logical shifts; SHAL, which keeps the sign bit and shifts the low seven bits; SHAR, a floor division of the signed
value: one register written, no flag (R151 to R154; first bytes by the spec's decision D2, register codes by D3). -/
def Obligations.ShiftsWriteTheRegister : Prop :=
  ∀ (r : Reg) (n : BitVec 3) (s : State),
    encode Config.default (.shll r n) = bytesH 0x81 r n ∧ encode Config.default (.shlr r n) = bytesH 0x93 r n ∧
    encode Config.default (.shal r n) = bytesH 0x95 r n ∧ encode Config.default (.shar r n) = bytesH 0x97 r n ∧
    (∃ v, ReadShows s r v ∧ PlainWrite s r (BitVec.ofNat 8 (v.toNat * 2 ^ n.toNat)) (exec (.shll r n) s)) ∧
    (∃ v, ReadShows s r v ∧ PlainWrite s r (BitVec.ofNat 8 (v.toNat / 2 ^ n.toNat)) (exec (.shlr r n) s)) ∧
    (∃ v, ReadShows s r v ∧ PlainWrite s r
      (BitVec.ofNat 8 (v.toNat / 128 * 128 + v.toNat * 2 ^ n.toNat % 128)) (exec (.shal r n) s)) ∧
    (∃ v, ReadShows s r v ∧ PlainWrite s r
      (BitVec.ofInt 8 (v.toInt / (2 ^ n.toNat : Int))) (exec (.shar r n) s))

/-- ROTL turns the nine-bit ring of the register and C left, ROTR right; Z is not written; STATUS is refused (R155, R156,
R142; first bytes by the spec's decision D2, register codes by D3). -/
def Obligations.RotatesTurnTheRing : Prop :=
  ∀ (r : Reg) (n : BitVec 3) (s : State),
    encode Config.default (.rotl r n) = bytesH 0x8C r n ∧ encode Config.default (.rotr r n) = bytesH 0x82 r n ∧
    (r = .status → exec (.rotl r n) s = .refused .statusDestination ∧
      exec (.rotr r n) s = .refused .statusDestination) ∧
    (r ≠ .status → ∃ (b : Byte) (v wl wr : Nat), ReadShows s r b ∧ v = s.carry.toNat * 256 + b.toNat ∧
      wl = v * 2 ^ n.toNat % 512 + v / 2 ^ (9 - n.toNat) ∧ wr = v / 2 ^ n.toNat + v * 2 ^ (9 - n.toNat) % 512 ∧
      FlaggedWrite s r (BitVec.ofNat 8 (wl % 256)) (decide (wl / 256 = 1)) s.zero (exec (.rotl r n) s) ∧
      FlaggedWrite s r (BitVec.ofNat 8 (wr % 256)) (decide (wr / 256 = 1)) s.zero (exec (.rotr r n) s))

/-- SET and CLEAR change one bit of the register and no flag beside it (R157, R158; first bytes are the source's, register
codes by the spec's decision D3). -/
def Obligations.SetAndClearChangeOneBit : Prop :=
  ∀ (r : Reg) (n : BitVec 3) (s : State),
    encode Config.default (.set r n) = bytesH 0x8A r n ∧ encode Config.default (.clear r n) = bytesH 0x89 r n ∧
    (∃ v w, ReadShows s r v ∧ (∀ j, j < 8 → bitOf w j = (decide (j = n.toNat) || bitOf v j)) ∧
      PlainWrite s r w (exec (.set r n) s)) ∧
    (∃ v w, ReadShows s r v ∧ (∀ j, j < 8 → bitOf w j = (!decide (j = n.toNat) && bitOf v j)) ∧
      PlainWrite s r w (exec (.clear r n) s))

/-- TEST: Z takes the value of the bit; C and every register but STATUS are unchanged (R159; register codes by the spec's
decision D3). -/
def Obligations.TestCopiesTheBitIntoZero : Prop :=
  ∀ (r : Reg) (n : BitVec 3) (s : State), encode Config.default (.test r n) = bytesH 0x88 r n ∧
    ∃ v t, ReadShows s r v ∧ exec (.test r n) s = .next t ∧ t.zero = decide (v.toNat / 2 ^ n.toNat % 2 = 1) ∧
      t.carry = s.carry ∧ StatusKept s t ∧ Frame [.status] s t ∧ t.pc = s.pc

/-- AND, OR and XOR bit by bit; C is cleared, Z set on zero (R160 to R162; first bytes by the spec's decision D2, register
codes by D3, STATUS as destination D9). -/
def Obligations.LogicWorksBitByBit : Prop :=
  ∀ (l r : Reg) (s : State),
    encode Config.default (.and l r) = bytesF 0x99 l r ∧ encode Config.default (.or l r) = bytesF 0x9A l r ∧
    encode Config.default (.xor l r) = bytesF 0x9B l r ∧
    (l = .status → exec (.and l r) s = .refused .statusDestination ∧
      exec (.or l r) s = .refused .statusDestination ∧ exec (.xor l r) s = .refused .statusDestination) ∧
    (l ≠ .status → ∃ a b : Byte, ReadShows s l a ∧ ReadShows s r b ∧ (l = r → a = b) ∧
      (∃ v, (∀ j, j < 8 → bitOf v j = (bitOf a j && bitOf b j)) ∧
        FlaggedWrite s l v false (decide (v = 0x00#8)) (exec (.and l r) s)) ∧
      (∃ v, (∀ j, j < 8 → bitOf v j = (bitOf a j || bitOf b j)) ∧
        FlaggedWrite s l v false (decide (v = 0x00#8)) (exec (.or l r) s)) ∧
      (∃ v, (∀ j, j < 8 → bitOf v j = (bitOf a j != bitOf b j)) ∧
        FlaggedWrite s l v false (decide (v = 0x00#8)) (exec (.xor l r) s)))

/-! ### Data handling -/

/-- MOVE, with the side effects R175 gives the destination (R173; the first byte is the spec's decision D2, the register
codes D3). -/
def Obligations.MoveCopiesTheRegister : Prop :=
  ∀ (l r : Reg) (s : State), encode Config.default (.move l r) = bytesF 0x98 l r ∧
    ∃ v, ReadShows s r v ∧ PlainWrite s l v (exec (.move l r) s)

/-- R171, R172: MOVEH and MOVEL write one half of a pair, and nothing else. -/
def Obligations.HalfMovesWriteTheHalf : Prop :=
  ∀ (p : Pair) (imm : Byte) (s : State),
    encode Config.default (.moveh p imm) = bytesE 0xB1 p imm ∧
    encode Config.default (.movel p imm) = bytesE 0xB0 p imm ∧
    (∃ t, exec (.moveh p imm) s = .next t ∧ t.reg p.hi = imm ∧ Frame [p.hi] s t ∧ t.pc = s.pc) ∧
    (∃ t, exec (.movel p imm) s = .next t ∧ t.reg p.lo = imm ∧ Frame [p.lo] s t ∧ t.pc = s.pc)

/-- MOVEI writes both halves of a pair, and nothing else (R174); the low byte of the immediate stands first in the
instruction (the spec's decision D5). -/
def Obligations.MoveiWritesThePair : Prop :=
  ∀ (p : Pair) (value : Addr) (s : State),
    encode Config.default (.movei p value) = bytesI (0xE0 + 2 * pairNumber p) value ∧
    ∃ t, exec (.movei p value) s = .next t ∧ (t.reg p.lo).toNat = value.toNat % 256 ∧
      (t.reg p.hi).toNat = value.toNat / 256 ∧ Frame [p.lo, p.hi] s t ∧ t.pc = s.pc

/-! ### Address arithmetic -/

/-- LOAD (R181): the byte at the effective address goes to the register, when it lies in data memory or, with policing
off, is implemented; otherwise the NMI with policing on and a refusal with it off (R72, R75, R76). A register of the SMB
zone answers an unspecified byte: the spec's oracle alternative (R78, decision D24; log 13). -/
def Obligations.LoadReadsTheEffectiveAddress : Prop :=
  ∀ (r : Reg) (p : Pair) (disp : BitVec 4) (s : State),
    encode Config.default (.load r p disp) = bytesG 0xA0 p r disp ∧
    (s.effAddr p disp).toNat = ((s.pair p).toNat + disp.toNat) % 65536 ∧
    (readable s (s.effAddr p disp) = true →
      (inSmbZone (s.effAddr p disp) = false →
        PlainWrite s r (s.byteAt (s.effAddr p disp)) (exec (.load r p disp) s)) ∧
      (inSmbZone (s.effAddr p disp) = true → ∃ v, PlainWrite s r v (exec (.load r p disp) s))) ∧
    (readable s (s.effAddr p disp) = false →
      (s.policing = true → exec (.load r p disp) s = raiseNmi .invalidData (s.effAddr p disp) s) ∧
      (s.policing = false → exec (.load r p disp) s = .refused (.unimplementedAddress (s.effAddr p disp))))

/-- STORE (R182): the register's value goes to the effective address and no other byte changes, when it lies in data
memory; otherwise the NMI with policing on and a refusal with it off (R72, R76). A store into the SMB zone stores nothing:
the spec's oracle alternative (R78, decision D24; log 13). -/
def Obligations.StoreWritesTheEffectiveAddress : Prop :=
  ∀ (r : Reg) (p : Pair) (disp : BitVec 4) (s : State),
    encode Config.default (.store p disp r) = bytesG 0xA8 p r disp ∧
    (s.inRam (s.effAddr p disp) = true → ∃ v t, ReadShows s r v ∧ exec (.store p disp r) s = .next t ∧
      (inSmbZone (s.effAddr p disp) = false → t.byteAt (s.effAddr p disp) = v) ∧
      (∀ a, (a ≠ s.effAddr p disp ∨ inSmbZone (s.effAddr p disp) = true) → t.byteAt a = s.byteAt a) ∧
      SameMachine s t ∧ t.sp = s.sp ∧ t.irq = s.irq ∧ t.pc = s.pc) ∧
    (s.inRam (s.effAddr p disp) = false →
      (s.policing = true → exec (.store p disp r) s = raiseNmi .invalidData (s.effAddr p disp) s) ∧
      (s.policing = false → exec (.store p disp r) s = .refused (storeRefusal s (s.effAddr p disp))))

/-- PUSH: the pair goes below the stack, its high byte at the lower address, when both bytes lie in data memory; otherwise
the NMI with policing on, and a refusal with policing off (R183, R76). Two clauses are the model's choice: a PUSH into the
SMB zone 8200h to 82FFh completes and stores nothing there, the oracle alternative extended from LOAD and STORE to the stack
(decision D24; log 13); and at `sp` = 0000h with `RAM_TOP` = FFFFh a PUSH completes (log 23). -/
def Obligations.PushStoresHighByteLower : Prop :=
  ∀ (p : Pair) (s : State), encode Config.default (.push p) = bytesB 0x69 p ∧
    (pushRoom s = true → ∃ t, exec (.push p) s = .next t ∧ Pushed s t (s.pair p) ∧ SameMachine s t ∧
      t.irq = s.irq ∧ t.pc = s.pc) ∧
    (pushRoom s = false → s.policing = true → exec (.push p) s = raiseNmi .stack s.sp s) ∧
    (pushRoom s = false → s.policing = false → ∃ a, (a = s.sp - 2#16 ∨ a = s.sp - 1#16) ∧ s.inRam a = false ∧
      exec (.push p) s = .refused (storeRefusal s a))

/-- POP: the pair takes the two bytes on top of the stack, `sp` rises by two, and no byte of memory changes; where they may
not be read, the NMI with policing on, and a refusal with policing off (R184, R76). That a POP from the SMB zone 8200h to
82FFh completes, the half read there unspecified, is the model's choice: the oracle alternative extended from LOAD to the
stack (decision D24; log 13). -/
def Obligations.PopLoadsThePair : Prop :=
  ∀ (p : Pair) (s : State), encode Config.default (.pop p) = bytesB 0x68 p ∧
    (popRoom s = true → ∃ t, exec (.pop p) s = .next t ∧
      (inSmbZone s.sp = false → t.reg p.hi = s.byteAt s.sp) ∧
      (inSmbZone (s.sp + 1#16) = false → t.reg p.lo = s.byteAt (s.sp + 1#16)) ∧
      t.sp = s.sp + 2#16 ∧ Frame [p.lo, p.hi] (s.withSp (s.sp + 2#16)) t ∧ t.pc = s.pc) ∧
    (popRoom s = false → s.policing = true → exec (.pop p) s = raiseNmi .stack s.sp s) ∧
    (popRoom s = false → s.policing = false → ∃ a, (a = s.sp ∨ a = s.sp + 1#16) ∧ readable s a = false ∧
      exec (.pop p) s = .refused (.unimplementedAddress a))

/-- POP undoes PUSH (R184: "same pair, same sp"), and moves it into another pair, wherever the stack is ordinary memory. -/
def Obligations.PopUndoesPush : Prop :=
  ∀ (p q : Pair) (s t : State), pushRoom s = true → inSmbZone (s.sp - 2#16) = false →
    inSmbZone (s.sp - 1#16) = false → exec (.push p) s = .next t →
    ∃ u, exec (.pop q) t = .next u ∧ u.pair q = s.pair p ∧ u.sp = s.sp ∧ Frame [q.lo, q.hi] s (u.withMem s.mem)

/-- INC and DEC step a pair as one 16-bit value, with its carry or borrow in C and its zero in Z (R185, R186; that the flags
are cleared otherwise is the spec's decision D7). -/
def Obligations.PairsStepByOne : Prop :=
  ∀ (p : Pair) (s : State),
    encode Config.default (.inc p) = bytesB 0x60 p ∧ encode Config.default (.dec p) = bytesB 0x61 p ∧
    (∃ t, exec (.inc p) s = .next t ∧ (t.pair p).toNat = ((s.pair p).toNat + 1) % 65536 ∧
      t.carry = decide ((s.pair p).toNat + 1 = 65536) ∧ t.zero = decide ((t.pair p).toNat = 0) ∧
      StatusKept s t ∧ Frame [.status, p.lo, p.hi] s t ∧ t.pc = s.pc) ∧
    (∃ t, exec (.dec p) s = .next t ∧ (t.pair p).toNat = ((s.pair p).toNat + 65535) % 65536 ∧
      t.carry = decide ((s.pair p).toNat = 0) ∧ t.zero = decide ((t.pair p).toNat = 0) ∧
      StatusKept s t ∧ Frame [.status, p.lo, p.hi] s t ∧ t.pc = s.pc)

/-! ### Sequencing -/

/-- Each relative branch with its first byte and its condition on STATUS bits 4 (C) and 3 (Z); taken, it adds its signed
offset to the next instruction's address and polices the target; not taken, it changes nothing (R201 to R208; the first
bytes are the source's, kept by the spec's decision D2). -/
def Obligations.BranchesFollowTheFlags : Prop :=
  ∀ (off : Byte) (s : State) (c z : Bool), c = bitOf (s.reg .status) 4 → z = bitOf (s.reg .status) 3 →
    ∀ (i : Instr) (b0 : Byte) (taken : Bool),
      ((i = .brc off ∧ b0 = 0x8D#8 ∧ taken = c) ∨ (i = .brnc off ∧ b0 = 0x85#8 ∧ taken = !c) ∨
       (i = .brz off ∧ b0 = 0x8B#8 ∧ taken = z) ∨ (i = .brnz off ∧ b0 = 0x83#8 ∧ taken = !z) ∨
       (i = .brcz off ∧ b0 = 0x8F#8 ∧ taken = (c && z)) ∨ (i = .brncz off ∧ b0 = 0x87#8 ∧ taken = (!c && !z)) ∨
       (i = .br off ∧ b0 = 0x80#8 ∧ taken = true)) →
      encode Config.default i = [b0, off] ∧
      (taken = false → exec i s = .next s) ∧
      (taken = true → ∃ t : Addr, (t.toNat : Int) = ((s.pc.toNat : Int) + off.toInt) % 65536 ∧
        (targetOk s t = true → exec i s = .next (s.withPc t)) ∧
        (targetOk s t = false → exec i s = raiseNmi .invalidBranch t s))

/-- CALL: the target is checked first, then the stack; then the address of the next instruction is pushed and `pc` is the
target (R209). The low byte of the target stands first in the instruction (the spec's decision D5). Two clauses are the
model's choice: with its stack in the SMB zone 8200h to 82FFh a CALL completes and stores nothing there, the oracle
alternative extended to the stack (decision D24; log 13); and at `sp` = 0000h with `RAM_TOP` = FFFFh it pushes (log 23). -/
def Obligations.CallPushesTheReturnAddress : Prop :=
  ∀ (target : Addr) (s : State), encode Config.default (.call target) = bytesI 0xC0 target ∧
    (targetOk s target = false → exec (.call target) s = raiseNmi .invalidBranch target s) ∧
    (targetOk s target = true →
      (pushRoom s = true → ∃ t, exec (.call target) s = .next t ∧ t.pc = target ∧ Pushed s t s.pc ∧
        SameMachine s t ∧ t.irq = s.irq) ∧
      (pushRoom s = false → s.policing = true → exec (.call target) s = raiseNmi .stack s.sp s) ∧
      (pushRoom s = false → s.policing = false → ∃ a, (a = s.sp - 2#16 ∨ a = s.sp - 1#16) ∧ s.inRam a = false ∧
        exec (.call target) s = .refused (storeRefusal s a)))

/-- R210, JUMP. The low byte of the target stands first in the instruction (the spec's decision D5). -/
def Obligations.JumpSetsThePc : Prop :=
  ∀ (target : Addr) (s : State), encode Config.default (.jump target) = bytesI 0xC1 target ∧
    (targetOk s target = true → exec (.jump target) s = .next (s.withPc target)) ∧
    (targetOk s target = false → exec (.jump target) s = raiseNmi .invalidBranch target s)

/-- RETURN: `pc` from the two bytes on top of the stack, high byte first, `sp` up by two, and nothing else restored; a bad
address leaves `sp` unchanged (R211). That a RETURN from the SMB zone 8200h to 82FFh is performed, the byte of the address
that is read there unspecified, is the model's choice: the oracle alternative extended from LOAD to the stack (decision D24;
log 13). -/
def Obligations.ReturnPopsThePc : Prop :=
  ∀ s : State, encode Config.default .ret = [0x48#8] ∧
    (popRoom s = true → ∃ (target : Addr) (k : Nat),
      (inSmbZone s.sp = false → target.toNat / 256 = (s.byteAt s.sp).toNat) ∧
      (inSmbZone (s.sp + 1#16) = false → target.toNat % 256 = (s.byteAt (s.sp + 1#16)).toNat) ∧
      (inSmbZone s.sp = false → inSmbZone (s.sp + 1#16) = false → k = s.draws) ∧
      (targetOk s target = true → exec .ret s = .next (((s.withDraws k).withSp (s.sp + 2#16)).withPc target)) ∧
      (targetOk s target = false → exec .ret s = raiseNmi .invalidBranch target (s.withDraws k))) ∧
    (popRoom s = false → s.policing = true → exec .ret s = raiseNmi .stack s.sp s) ∧
    (popRoom s = false → s.policing = false → ∃ a, (a = s.sp ∨ a = s.sp + 1#16) ∧ readable s a = false ∧
      exec .ret s = .refused (.unimplementedAddress a))

/-- RETURN undoes CALL: execution resumes at the instruction after the call, with `sp` as before (R209, R211). -/
def Obligations.ReturnUndoesCall : Prop :=
  ∀ (target : Addr) (s t : State), targetOk s s.pc = true → targetOk s target = true → pushRoom s = true →
    inSmbZone (s.sp - 2#16) = false → inSmbZone (s.sp - 1#16) = false → exec (.call target) s = .next t →
    ∃ u, exec .ret t = .next u ∧ u.pc = s.pc ∧ u.sp = s.sp ∧ SameMachine s u

/-- R212, RESET: `pc`, `sp`, STATUS and PCON at their reset values, the port operation and the pending requests gone,
and every other register, the latches and memory as they were (R281 to R283). -/
def Obligations.ResetInstructionResets : Prop :=
  ∀ s : State, encode Config.default .reset = [0x40#8] ∧
    ∃ t, exec .reset s = .next t ∧ t.pc = 0x0000#16 ∧ t.sp = s.config.ramTop ∧ t.reg .status = 0x00#8 ∧
      t.reg .pcon = 0x00#8 ∧ t.port = .idle ∧ t.irq = ⟨false, false, false⟩ ∧
      (∀ q, q ≠ .status → q ≠ .pcon → t.reg q = s.reg q) ∧ (∀ a, t.byteAt a = s.byteAt a) ∧
      t.pdataUndefined = s.pdataUndefined ∧ t.pwmDuty = s.pwmDuty ∧ t.dout = s.dout ∧ t.policing = s.policing ∧
      t.sci = s.sci ∧ t.hostRead = s.hostRead ∧ t.arrivals = s.arrivals ∧ t.timerWait = s.timerWait ∧
      t.config = s.config

/-! ### Exceptions -/

/-- An NMI ends the run with its cause and address under `fault`; under `enter` an unspecified word is pushed and `pc` goes
to the entry, 0005h by default, nothing else changing, or the double fault stops the machine (R220, R233, R234; the spec's
decisions D12 and D15). Two clauses are the model's choice: with the stack in the SMB zone 8200h to 82FFh the entry
completes and stores nothing there, the oracle alternative extended to the stack (decision D24; log 13); and at `sp` =
0000h with `RAM_TOP` = FFFFh it pushes (log 23). -/
def Obligations.NmiFaultsOrEnters : Prop :=
  Config.default.vecNmi = 0x0005#16 ∧
  ∀ (cause : NmiCause) (info : Addr) (s : State),
    (s.config.nmiMode = .fault → raiseNmi cause info s = .fault (.nmi cause info)) ∧
    (s.config.nmiMode = .enter → pushRoom s = false → raiseNmi cause info s = .fault (.doubleFault cause info)) ∧
    (s.config.nmiMode = .enter → pushRoom s = true → ∃ v t, raiseNmi cause info s = .next t ∧
      t.pc = s.config.vecNmi ∧ Pushed s t v ∧ SameMachine s t ∧ t.irq = s.irq)

/-- An enabled pending interrupt that is first in the priority order is taken at the boundary and is the whole step: the
address of the next instruction is pushed, `pc` is the entry of its source, 000Ah, 000Fh and 0014h by default, its stored
pending bit is cleared and the others kept, STATUS and every register keep their values; without room on the stack, the NMI
with policing on and a refusal with policing off (R220, R226, R228, R229, R76; the entry is the spec's decision D11, the
addresses D12, the order D13). Three clauses are the model's choice: with the stack in the SMB zone 8200h to 82FFh the
entry completes and stores nothing there (decision D24 extended to the stack; log 13); at `sp` = 0000h with `RAM_TOP` =
FFFFh it pushes (log 23); and the stored ACPI bit is cleared under `level_IBF` too, where nothing reads it (log 18). -/
def Obligations.InterruptIsTheWholeStep : Prop :=
  (Config.default.vecTimer = 0x000A#16 ∧ Config.default.vecSmb = 0x000F#16 ∧ Config.default.vecAcpi = 0x0014#16) ∧
  ∀ (s b : State) (x : Irq), b = boundary s → b.nextIrq = some x →
    (pushRoom b = true → ∃ t, step s = .next t ∧
      (x = .timer → t.pc = b.config.vecTimer) ∧ (x = .smb → t.pc = b.config.vecSmb) ∧
      (x = .acpi → t.pc = b.config.vecAcpi) ∧ Pushed b t b.pc ∧ SameMachine b t ∧
      t.irq = ⟨b.irq.timer && decide (x ≠ .timer), b.irq.smb && decide (x ≠ .smb), b.irq.acpi && decide (x ≠ .acpi)⟩) ∧
    (pushRoom b = false → b.policing = true → step s = raiseNmi .stack b.sp b) ∧
    (pushRoom b = false → b.policing = false → ∃ a, (a = b.sp - 2#16 ∨ a = b.sp - 1#16) ∧ b.inRam a = false ∧
      step s = .refused (storeRefusal b a))

/-- Timer, SMB and ACPI are enabled by STATUS bits 5, 6 and 7; a Timer or SMB request is its stored pending bit, an ACPI
request the stored bit or ECSCR.IBF (bit 1) by `ACPI_IRQ` (R26, R224, R225, R266; the bits are the spec's decision D14). An
interrupt is taken exactly when some source is pending and enabled; with the default order, Timer comes before SMB and SMB
before ACPI (R226, R227; the order is the spec's decision D13). -/
def Obligations.PriorityIsTimerSmbAcpi : Prop :=
  ∀ s : State,
    (s.irqEnabled .timer = decide ((s.reg .status).toNat / 32 % 2 = 1) ∧
      s.irqEnabled .smb = decide ((s.reg .status).toNat / 64 % 2 = 1) ∧
      s.irqEnabled .acpi = decide ((s.reg .status).toNat / 128 % 2 = 1)) ∧
    (s.irqPending .timer = s.irq.timer ∧ s.irqPending .smb = s.irq.smb ∧
      (s.config.acpiIrq = .event → s.irqPending .acpi = s.irq.acpi) ∧
      (s.config.acpiIrq = .levelIbf → s.irqPending .acpi = decide ((s.reg .ecscr).toNat / 2 % 2 = 1))) ∧
    (s.config.wellFormed = true → ((∃ x, s.nextIrq = some x) ↔ ∃ x, s.irqEnabled x = true ∧ s.irqPending x = true)) ∧
    (∀ x, s.nextIrq = some x → s.irqEnabled x = true ∧ s.irqPending x = true) ∧
    (s.config.irqOrder = [.timer, .smb, .acpi] →
      (s.irqEnabled .timer = true → s.irqPending .timer = true → s.nextIrq = some .timer) ∧
      (s.irqRequested .timer = false → s.irqEnabled .smb = true → s.irqPending .smb = true → s.nextIrq = some .smb) ∧
      (s.irqRequested .timer = false → s.irqRequested .smb = false → s.irqEnabled .acpi = true →
        s.irqPending .acpi = true → s.nextIrq = some .acpi))

/-! ### Ports -/

/-- A write to PCON that turns one of bits 7..4 to 0 is refused; one that starts nothing and cancels nothing writes PCON and
does nothing else (R251; the refusal is the spec's decision D21). -/
def Obligations.PconWriteThatStartsNothing : Prop :=
  ∀ (w : Byte) (s : State),
    (controlOf (s.reg .pcon &&& ~~~w) ≠ 0x00#8 ↔ writePcon w s = .error .portCancel) ∧
    (controlOf w = controlOf (s.reg .pcon) → writePcon w s = .ok (s.putReg .pcon w))

/-- R255, R256: setting the DIR bit loads PDATA within the step; setting the DOW bit writes PDATA to the output latch
within the step, PDATA unchanged; both clear PCON bits 7..4. -/
def Obligations.DigitalPortsCompleteInTheStep : Prop :=
  ∀ s : State, controlOf (s.reg .pcon) = 0x00#8 →
    (∃ t, exec (.set .pcon 7#3) s = .next t ∧ t.reg .pdata = Config.drawByte s.draws ∧ t.pdataUndefined = false ∧
      t.reg .pcon = s.reg .pcon ∧ t.port = .idle ∧ t.pwmDuty = s.pwmDuty ∧ t.dout = s.dout ∧
      Frame [.pcon, .pdata] s t ∧ t.pc = s.pc) ∧
    (∃ v t, ReadShows s .pdata v ∧ exec (.set .pcon 6#3) s = .next t ∧ t.dout = v ∧
      t.pdataUndefined = s.pdataUndefined ∧ t.reg .pcon = s.reg .pcon ∧ t.port = .idle ∧ t.pwmDuty = s.pwmDuty ∧
      Frame [.pcon] s t ∧ t.pc = s.pc)

/-- Setting the ADC bit starts a conversion of the selected channel, PDATA keeping its old value; a conversion in progress
always completes, after finitely many boundaries and not before, when PDATA holds the result and PCON bits 7..4 are 0; and
every step of the machine that writes no PCON and meets no reset and no scheduled completion brings it one boundary nearer
(R257; the form of its duration is the spec's decision D21 and log 10). -/
def Obligations.AdcConvertsTheChannel : Prop :=
  (∀ s : State, controlOf (s.reg .pcon) = 0x00#8 → ∃ t n, exec (.set .pcon 4#3) s = .next t ∧
    t.port = .adc (channelOf (s.reg .pcon)) n ∧ t.reg .pcon = s.reg .pcon ||| 0x10#8 ∧
    t.pdataUndefined = s.pdataUndefined ∧ t.pwmDuty = s.pwmDuty ∧ t.dout = s.dout ∧ Frame [.pcon] s t ∧
    t.pc = s.pc) ∧
  (∀ (n : Nat) (ch : BitVec 4) (s : State), s.port = .adc ch n →
    (∀ k, k ≤ n → portBoundary^[k] s = s.withPort (.adc ch (n - k))) ∧
    (portBoundary^[n + 1] s).port = .idle ∧ (portBoundary^[n + 1] s).reg .pcon = s.reg .pcon &&& 0x0F#8 ∧
    (portBoundary^[n + 1] s).reg .pdata = Config.drawByte s.draws ∧
    (portBoundary^[n + 1] s).pdataUndefined = false) ∧
  (∀ (ch : BitVec 4) (n : Nat) (s t : State), s.port = .adc ch n → LeavesPortsAlone s → step s = .next t →
    (∀ m, n = m + 1 → t.port = .adc ch m ∧ t.reg .pcon = s.reg .pcon) ∧
    (n = 0 → t.port = .idle ∧ t.reg .pcon = s.reg .pcon &&& 0x0F#8 ∧
      (boundary s).reg .pdata = Config.drawByte s.draws ∧ (boundary s).pdataUndefined = false) ∧
    t.pwmDuty = s.pwmDuty ∧ t.dout = s.dout)

/-- Setting the PWM bit with PDATA showing `v` starts a write of `v` to the latch of the selected channel; it ends within
the step or after finitely many boundaries, when the latch holds it, the other fifteen and PDATA being unchanged, and PCON
bits 7..4 are 0; and every step of the machine that writes no PCON and meets no reset and no scheduled completion brings it
one boundary nearer (R258; its duration is the spec's decision D21). That the latch written is that of the channel selected
at the START, whatever PCON bits 3..0 have become since, is the model's reading of R258 (log 10). -/
def Obligations.PwmWritesTheLatch : Prop :=
  (∀ s : State, controlOf (s.reg .pcon) = 0x00#8 → ∃ v t, ReadShows s .pdata v ∧
    exec (.set .pcon 5#3) s = .next t ∧ t.pdataUndefined = s.pdataUndefined ∧ t.dout = s.dout ∧
    Frame [.pcon] s t ∧ t.pc = s.pc ∧
    ((∃ n, t.port = .pwm (channelOf (s.reg .pcon)) v n ∧ t.reg .pcon = s.reg .pcon ||| 0x20#8 ∧
        t.pwmDuty = s.pwmDuty) ∨
      (t.port = .idle ∧ t.reg .pcon = s.reg .pcon ∧
        ∀ k : Fin 16, t.pwmDuty[k] = if k.val = (channelOf (s.reg .pcon)).toNat then v else s.pwmDuty[k]))) ∧
  (∀ (ch : BitVec 4) (duty : Byte) (n : Nat) (s : State), s.port = .pwm ch duty n →
    portBoundary^[n] s = s.withPort (.pwm ch duty 0) ∧
    (portBoundary^[n + 1] s).port = .idle ∧ (portBoundary^[n + 1] s).reg .pcon = s.reg .pcon &&& 0x0F#8 ∧
    (∀ k : Fin 16, (portBoundary^[n + 1] s).pwmDuty[k] = if k.val = ch.toNat then duty else s.pwmDuty[k]) ∧
    (portBoundary^[n + 1] s).reg .pdata = s.reg .pdata ∧ (portBoundary^[n + 1] s).dout = s.dout) ∧
  (∀ (ch : BitVec 4) (duty : Byte) (n : Nat) (s t : State), s.port = .pwm ch duty n → LeavesPortsAlone s →
    step s = .next t →
    (∀ m, n = m + 1 → t.port = .pwm ch duty m ∧ t.reg .pcon = s.reg .pcon ∧ t.pwmDuty = s.pwmDuty) ∧
    (n = 0 → t.port = .idle ∧ t.reg .pcon = s.reg .pcon &&& 0x0F#8 ∧
      ∀ k : Fin 16, t.pwmDuty[k] = if k.val = ch.toNat then duty else s.pwmDuty[k]) ∧
    t.dout = s.dout)

/-- A write that starts two operations, or one during another, or one together with a change of the channel bits, is not
refused and makes PDATA undefined (R253, R254; "cycle" read as step is the spec's decision D21). It touches the output latch
only if DOW is set in what is written, and a PWM latch only if PWM is, and then only that of the old, the new or the
interrupted channel; nothing else but PCON and PDATA changes. Several operations end within the step, or are in progress and
end after finitely many boundaries, step by step, or on a scheduled completion: PCON bits 7..4 become 0 at the completion of
the first, the channel bits unchanged (R252, R253). Four things are the model's choice: the latches of the operations
involved, which R253 makes undefined and U1 has drawn once, are drawn at the start and stay as drawn when the operations
end (log 11); PDATA is undefined at that end again (log 11); several end within the step if DIR or DOW is set in what is
written (log 11); and DIR or DOW started together with a change of the channel bits is such a careless start, where R286
has the digital ports need no lead (log 25). -/
def Obligations.CarelessStartsSpoilPdata : Prop :=
  (∀ (w : Byte) (s : State), controlOf (s.reg .pcon &&& ~~~w) = 0x00#8 →
    controlOf (w &&& ~~~(s.reg .pcon)) ≠ 0x00#8 →
    (controlOf (s.reg .pcon) ≠ 0x00#8 ∨ soleOp (controlOf (w &&& ~~~(s.reg .pcon))) = none ∨
      channelOf w ≠ channelOf (s.reg .pcon)) →
    ∃ t, writePcon w s = .ok t ∧ t.pdataUndefined = true ∧ channelOf (t.reg .pcon) = channelOf w ∧
      (controlOf (s.reg .pcon) ≠ 0x00#8 ∨ soleOp (controlOf (w &&& ~~~(s.reg .pcon))) = none →
        (t.port = .idle ∧ t.reg .pcon = w &&& 0x0F#8) ∨
          ∃ n, t.port = .several n ∧ t.reg .pcon = w ∧ bitOf w 7 = false ∧ bitOf w 6 = false) ∧
      (∀ op, controlOf (s.reg .pcon) = 0x00#8 → soleOp (controlOf (w &&& ~~~(s.reg .pcon))) = some op →
        (t.port = .idle ∧ t.reg .pcon = w &&& 0x0F#8 ∧ op ≠ .adc) ∨
          (op = .adc ∧ t.reg .pcon = w ∧ ∃ n, t.port = .adc (channelOf w) n) ∨
          (op = .pwm ∧ t.reg .pcon = w ∧ ∃ duty n, t.port = .pwm (channelOf w) duty n)) ∧
      (bitOf w 6 = false → t.dout = s.dout) ∧ (bitOf w 5 = false → t.pwmDuty = s.pwmDuty) ∧
      (∀ k : Fin 16, k.val ≠ (channelOf (s.reg .pcon)).toNat → k.val ≠ (channelOf w).toNat →
        (∀ ch duty n, s.port = .pwm ch duty n → k.val ≠ ch.toNat) → t.pwmDuty[k] = s.pwmDuty[k]) ∧
      Frame [.pcon, .pdata] s t ∧ t.pc = s.pc) ∧
  (∀ (n : Nat) (s : State), s.port = .several n →
    (∀ k, k ≤ n → portBoundary^[k] s = s.withPort (.several (n - k))) ∧
    (∀ t, t = portBoundary^[n + 1] s ∨ t = act .pwmComplete s ∨ (∃ v, t = act (.adcComplete v) s) →
      t.port = .idle ∧ t.reg .pcon = s.reg .pcon &&& 0x0F#8 ∧ t.pdataUndefined = true ∧ t.pwmDuty = s.pwmDuty ∧
        t.dout = s.dout)) ∧
  (∀ (n : Nat) (s t : State), s.port = .several n → LeavesPortsAlone s → step s = .next t →
    (∀ m, n = m + 1 → t.port = .several m ∧ t.reg .pcon = s.reg .pcon) ∧
    (n = 0 → t.port = .idle ∧ t.reg .pcon = s.reg .pcon &&& 0x0F#8 ∧ (boundary s).pdataUndefined = true) ∧
    t.pwmDuty = s.pwmDuty ∧ t.dout = s.dout)

/-! ### The host and the other agents -/

/-- A host command write sets ECSCW, CMD and IBF; a host data write sets ECDATA and IBF and clears CMD; every other register
is unchanged, and the request is latched only if `ACPI_IRQ` is `event` (R261, R262, R266; the actions are the spec's
decision D23). -/
def Obligations.HostWritesSetIbf : Prop :=
  ∀ (b : Byte) (s : State),
    ((act (.hostWriteCommand b) s).reg .ecscw = b ∧
      (act (.hostWriteCommand b) s).reg .ecscr = s.reg .ecscr ||| 0x0A#8 ∧
      (∀ q, q ≠ .ecscw → q ≠ .ecscr → (act (.hostWriteCommand b) s).reg q = s.reg q)) ∧
    ((act (.hostWriteData b) s).reg .ecdata = b ∧
      (act (.hostWriteData b) s).reg .ecscr = (s.reg .ecscr &&& 0xF7#8) ||| 0x02#8 ∧
      (∀ q, q ≠ .ecdata → q ≠ .ecscr → (act (.hostWriteData b) s).reg q = s.reg q)) ∧
    (s.config.acpiIrq = .event → (act (.hostWriteCommand b) s).irq = { s.irq with acpi := true } ∧
      (act (.hostWriteData b) s).irq = { s.irq with acpi := true }) ∧
    (s.config.acpiIrq = .levelIbf → (act (.hostWriteCommand b) s).irq = s.irq ∧ (act (.hostWriteData b) s).irq = s.irq) ∧
    (s.irqEnabled .acpi = true → (act (.hostWriteCommand b) s).irqRequested .acpi = true ∧
      (act (.hostWriteData b) s).irqRequested .acpi = true)

/-- The host reads ECSCR and nothing changes; it reads ECDATA and OBF (bit 0 of ECSCR) is cleared and nothing else changes
(R263, R264). `hostRead`, the byte the host obtains, and the count of free values are the model's own. -/
def Obligations.HostReadsClearObfOnly : Prop :=
  ∀ s : State,
    (∃ v k, ReadShows s .ecscr v ∧ act .hostReadStatus s = (s.withDraws k).withHostRead v) ∧
    act .hostReadData s = (s.withHostRead (s.reg .ecdata)).putReg .ecscr (s.reg .ecscr &&& 0xFE#8)

/-- A program write raises the SCI when it sets SCI_EVT (bit 5), sets OBF (bit 0) or clears IBF (bit 1) of ECSCR, and a
write of another register does not (R265; reading "sets" as a change of the bit is the model's choice, log 12). -/
def Obligations.SciFollowsEcscrWrites : Prop :=
  ∀ (r : Reg) (v : Byte) (s t : State), s.writeReg r v = .ok t → s.sci = false →
    (t.sci = true ↔ r = .ecscr ∧ ((bitOf v 5 = true ∧ bitOf (s.reg .ecscr) 5 = false) ∨
      (bitOf v 0 = true ∧ bitOf (s.reg .ecscr) 0 = false) ∨ (bitOf v 1 = false ∧ bitOf (s.reg .ecscr) 1 = true)))

/-- The agents other than the core touch no general register, no counter, no memory byte and not `sp` or `pc`; only a
device reset moves `pc` and `sp` (R25, R86, R275). -/
def Obligations.OtherAgentsLeaveTheProgramAlone : Prop :=
  ∀ s : State, (∀ q, q ∈ [Reg.r0, .r1, .r2, .r3, .r4, .r5, .r6, .r7, .c0, .c1] → (boundary s).reg q = s.reg q) ∧
    (∀ a, (boundary s).byteAt a = s.byteAt a) ∧ (boundary s).config = s.config ∧
    (EnvAction.deviceReset ∉ s.arrivals.headD [] →
      (boundary s).pc = s.pc ∧ (boundary s).sp = s.sp ∧ (boundary s).reg .status = s.reg .status)

/-! ### Reset and invariants -/

/-- R281, R282: what a reset establishes, and what power-on does beside it. -/
def Obligations.PowerOnState : Prop :=
  State.reset.pc = 0x0000#16 ∧ State.reset.sp = State.reset.config.ramTop ∧ State.reset.reg .status = 0x00#8 ∧
    State.reset.reg .pcon = 0x00#8 ∧ State.reset.port = .idle ∧ State.reset.irq = ⟨false, false, false⟩ ∧
    (∀ k : Fin 16, State.reset.pwmDuty[k] = 0x00#8) ∧ State.reset.dout = 0x00#8

/-- The invariant holds right after reset. -/
def Obligations.InvariantHoldsAtReset : Prop := Inv State.reset

/-- Every step keeps the invariant: usable parameters, memory in canonical form and only where memory is implemented
and outside the SMB zone, PCON bits 7..4 true to the operation in progress. -/
def Obligations.StepKeepsTheInvariant : Prop :=
  ∀ s t : State, Inv s → step s = .next t → Inv t

/-- No step ever changes a byte of program memory. With policing on that is the spec's own ("With policing on a STORE can
therefore never alter program memory", R182). With policing off R75 lets a STORE write FLASH, and the clause holds because
the model refuses that store and so answers no next state for it (R76 (b), the spec's decision D17; log 15). -/
def Obligations.NoStepWritesProgramMemory : Prop :=
  ∀ (s t : State) (a : Addr), s.config.wellFormed = true → step s = .next t → a ≤ s.config.flashTop →
    t.byteAt a = s.byteAt a

/-- The stack pointer keeps the parity of `RAM_TOP` ("it always moves by 2", R36), and the parameters never change. -/
def Obligations.StackPointerKeepsItsParity : Prop :=
  ∀ s t : State, s.sp.toNat % 2 = s.config.ramTop.toNat % 2 → step s = .next t →
    t.sp.toNat % 2 = t.config.ramTop.toNat % 2 ∧ t.config = s.config

/-! ### The other actions of the environment -/

/-- What the other six actions of the environment do, and that an action listed for a boundary is done there, after those
before it in the list (R275; the actions and their places are the spec's decisions D20, D24 and D28). A Timer tick sets the
Timer request, whatever the enable bit, and then the distance `TIMER_MIN_STEPS`, which each boundary brings one nearer to 0;
that a tick before that is dropped is the model's choice (R225, R247; log 8). An SMB event sets the SMB request (R271). A
completion ends the operation it names and does nothing otherwise (R257, R258). The policing pin takes its level (R246). A
device reset does what RESET does (R280, R281). -/
def Obligations.EnvironmentActionsDoTheirWork : Prop :=
  ∀ (s : State) (v : Byte) (on : Bool),
    (∀ l a rest, s.arrivals = (l ++ [a]) :: rest → boundary s = act a (boundary (s.withArrivals (l :: rest)))) ∧
    (s.timerWait = 0 →
      act .timerTick s = (s.withIrq { s.irq with timer := true }).withTimerWait s.config.timerMinSteps) ∧
    (s.timerWait ≠ 0 → act .timerTick s = s) ∧
    (EnvAction.timerTick ∉ s.arrivals.headD [] → (boundary s).timerWait = s.timerWait - 1) ∧
    act .smbEvent s = s.withIrq { s.irq with smb := true } ∧
    (∀ ch n, s.port = .adc ch n → ∃ t, act (.adcComplete v) s = t ∧ t.reg .pdata = v ∧ t.pdataUndefined = false ∧
      t.reg .pcon = s.reg .pcon &&& 0x0F#8 ∧ t.port = .idle ∧ t.pwmDuty = s.pwmDuty ∧ t.dout = s.dout ∧
      Frame [.pcon, .pdata] s t ∧ t.pc = s.pc) ∧
    (s.port = .idle ∨ (∃ ch duty n, s.port = .pwm ch duty n) → act (.adcComplete v) s = s) ∧
    (∀ ch duty n, s.port = .pwm ch duty n → ∃ t, act .pwmComplete s = t ∧
      (∀ k : Fin 16, t.pwmDuty[k] = if k.val = ch.toNat then duty else s.pwmDuty[k]) ∧
      t.reg .pcon = s.reg .pcon &&& 0x0F#8 ∧ t.port = .idle ∧ t.pdataUndefined = s.pdataUndefined ∧ t.dout = s.dout ∧
      Frame [.pcon] s t ∧ t.pc = s.pc) ∧
    (s.port = .idle ∨ (∃ ch n, s.port = .adc ch n) → act .pwmComplete s = s) ∧
    act (.setPolicingPin on) s = s.withPolicing on ∧
    exec .reset s = .next (act .deviceReset s)
end

