-- ==== Sys2Proof/Laws/State.lean ====
section
/-! SUPPORT. One lemma per field per update of the state, true by rfl, and the lemmas of the register file, so that no
later proof unfolds a record update. -/

namespace Sys2Proof.Machine

variable (s : State)

@[simp] theorem State.withRegs_regs (x : Regs) : (s.withRegs x).regs = x := rfl
@[simp] theorem State.withRegs_pc (x : Regs) : (s.withRegs x).pc = s.pc := rfl
@[simp] theorem State.withRegs_sp (x : Regs) : (s.withRegs x).sp = s.sp := rfl
@[simp] theorem State.withRegs_mem (x : Regs) : (s.withRegs x).mem = s.mem := rfl
@[simp] theorem State.withRegs_irq (x : Regs) : (s.withRegs x).irq = s.irq := rfl
@[simp] theorem State.withRegs_port (x : Regs) : (s.withRegs x).port = s.port := rfl
@[simp] theorem State.withRegs_pdataUndefined (x : Regs) : (s.withRegs x).pdataUndefined = s.pdataUndefined := rfl
@[simp] theorem State.withRegs_pwmDuty (x : Regs) : (s.withRegs x).pwmDuty = s.pwmDuty := rfl
@[simp] theorem State.withRegs_dout (x : Regs) : (s.withRegs x).dout = s.dout := rfl
@[simp] theorem State.withRegs_policing (x : Regs) : (s.withRegs x).policing = s.policing := rfl
@[simp] theorem State.withRegs_sci (x : Regs) : (s.withRegs x).sci = s.sci := rfl
@[simp] theorem State.withRegs_hostRead (x : Regs) : (s.withRegs x).hostRead = s.hostRead := rfl
@[simp] theorem State.withRegs_arrivals (x : Regs) : (s.withRegs x).arrivals = s.arrivals := rfl
@[simp] theorem State.withRegs_timerWait (x : Regs) : (s.withRegs x).timerWait = s.timerWait := rfl
@[simp] theorem State.withRegs_draws (x : Regs) : (s.withRegs x).draws = s.draws := rfl
@[simp] theorem State.withRegs_config (x : Regs) : (s.withRegs x).config = s.config := rfl

@[simp] theorem State.withPc_regs (x : Addr) : (s.withPc x).regs = s.regs := rfl
@[simp] theorem State.withPc_pc (x : Addr) : (s.withPc x).pc = x := rfl
@[simp] theorem State.withPc_sp (x : Addr) : (s.withPc x).sp = s.sp := rfl
@[simp] theorem State.withPc_mem (x : Addr) : (s.withPc x).mem = s.mem := rfl
@[simp] theorem State.withPc_irq (x : Addr) : (s.withPc x).irq = s.irq := rfl
@[simp] theorem State.withPc_port (x : Addr) : (s.withPc x).port = s.port := rfl
@[simp] theorem State.withPc_pdataUndefined (x : Addr) : (s.withPc x).pdataUndefined = s.pdataUndefined := rfl
@[simp] theorem State.withPc_pwmDuty (x : Addr) : (s.withPc x).pwmDuty = s.pwmDuty := rfl
@[simp] theorem State.withPc_dout (x : Addr) : (s.withPc x).dout = s.dout := rfl
@[simp] theorem State.withPc_policing (x : Addr) : (s.withPc x).policing = s.policing := rfl
@[simp] theorem State.withPc_sci (x : Addr) : (s.withPc x).sci = s.sci := rfl
@[simp] theorem State.withPc_hostRead (x : Addr) : (s.withPc x).hostRead = s.hostRead := rfl
@[simp] theorem State.withPc_arrivals (x : Addr) : (s.withPc x).arrivals = s.arrivals := rfl
@[simp] theorem State.withPc_timerWait (x : Addr) : (s.withPc x).timerWait = s.timerWait := rfl
@[simp] theorem State.withPc_draws (x : Addr) : (s.withPc x).draws = s.draws := rfl
@[simp] theorem State.withPc_config (x : Addr) : (s.withPc x).config = s.config := rfl

@[simp] theorem State.withSp_regs (x : Addr) : (s.withSp x).regs = s.regs := rfl
@[simp] theorem State.withSp_pc (x : Addr) : (s.withSp x).pc = s.pc := rfl
@[simp] theorem State.withSp_sp (x : Addr) : (s.withSp x).sp = x := rfl
@[simp] theorem State.withSp_mem (x : Addr) : (s.withSp x).mem = s.mem := rfl
@[simp] theorem State.withSp_irq (x : Addr) : (s.withSp x).irq = s.irq := rfl
@[simp] theorem State.withSp_port (x : Addr) : (s.withSp x).port = s.port := rfl
@[simp] theorem State.withSp_pdataUndefined (x : Addr) : (s.withSp x).pdataUndefined = s.pdataUndefined := rfl
@[simp] theorem State.withSp_pwmDuty (x : Addr) : (s.withSp x).pwmDuty = s.pwmDuty := rfl
@[simp] theorem State.withSp_dout (x : Addr) : (s.withSp x).dout = s.dout := rfl
@[simp] theorem State.withSp_policing (x : Addr) : (s.withSp x).policing = s.policing := rfl
@[simp] theorem State.withSp_sci (x : Addr) : (s.withSp x).sci = s.sci := rfl
@[simp] theorem State.withSp_hostRead (x : Addr) : (s.withSp x).hostRead = s.hostRead := rfl
@[simp] theorem State.withSp_arrivals (x : Addr) : (s.withSp x).arrivals = s.arrivals := rfl
@[simp] theorem State.withSp_timerWait (x : Addr) : (s.withSp x).timerWait = s.timerWait := rfl
@[simp] theorem State.withSp_draws (x : Addr) : (s.withSp x).draws = s.draws := rfl
@[simp] theorem State.withSp_config (x : Addr) : (s.withSp x).config = s.config := rfl

@[simp] theorem State.withMem_regs (x : Memory) : (s.withMem x).regs = s.regs := rfl
@[simp] theorem State.withMem_pc (x : Memory) : (s.withMem x).pc = s.pc := rfl
@[simp] theorem State.withMem_sp (x : Memory) : (s.withMem x).sp = s.sp := rfl
@[simp] theorem State.withMem_mem (x : Memory) : (s.withMem x).mem = x := rfl
@[simp] theorem State.withMem_irq (x : Memory) : (s.withMem x).irq = s.irq := rfl
@[simp] theorem State.withMem_port (x : Memory) : (s.withMem x).port = s.port := rfl
@[simp] theorem State.withMem_pdataUndefined (x : Memory) : (s.withMem x).pdataUndefined = s.pdataUndefined := rfl
@[simp] theorem State.withMem_pwmDuty (x : Memory) : (s.withMem x).pwmDuty = s.pwmDuty := rfl
@[simp] theorem State.withMem_dout (x : Memory) : (s.withMem x).dout = s.dout := rfl
@[simp] theorem State.withMem_policing (x : Memory) : (s.withMem x).policing = s.policing := rfl
@[simp] theorem State.withMem_sci (x : Memory) : (s.withMem x).sci = s.sci := rfl
@[simp] theorem State.withMem_hostRead (x : Memory) : (s.withMem x).hostRead = s.hostRead := rfl
@[simp] theorem State.withMem_arrivals (x : Memory) : (s.withMem x).arrivals = s.arrivals := rfl
@[simp] theorem State.withMem_timerWait (x : Memory) : (s.withMem x).timerWait = s.timerWait := rfl
@[simp] theorem State.withMem_draws (x : Memory) : (s.withMem x).draws = s.draws := rfl
@[simp] theorem State.withMem_config (x : Memory) : (s.withMem x).config = s.config := rfl

@[simp] theorem State.withIrq_regs (x : Pending) : (s.withIrq x).regs = s.regs := rfl
@[simp] theorem State.withIrq_pc (x : Pending) : (s.withIrq x).pc = s.pc := rfl
@[simp] theorem State.withIrq_sp (x : Pending) : (s.withIrq x).sp = s.sp := rfl
@[simp] theorem State.withIrq_mem (x : Pending) : (s.withIrq x).mem = s.mem := rfl
@[simp] theorem State.withIrq_irq (x : Pending) : (s.withIrq x).irq = x := rfl
@[simp] theorem State.withIrq_port (x : Pending) : (s.withIrq x).port = s.port := rfl
@[simp] theorem State.withIrq_pdataUndefined (x : Pending) : (s.withIrq x).pdataUndefined = s.pdataUndefined := rfl
@[simp] theorem State.withIrq_pwmDuty (x : Pending) : (s.withIrq x).pwmDuty = s.pwmDuty := rfl
@[simp] theorem State.withIrq_dout (x : Pending) : (s.withIrq x).dout = s.dout := rfl
@[simp] theorem State.withIrq_policing (x : Pending) : (s.withIrq x).policing = s.policing := rfl
@[simp] theorem State.withIrq_sci (x : Pending) : (s.withIrq x).sci = s.sci := rfl
@[simp] theorem State.withIrq_hostRead (x : Pending) : (s.withIrq x).hostRead = s.hostRead := rfl
@[simp] theorem State.withIrq_arrivals (x : Pending) : (s.withIrq x).arrivals = s.arrivals := rfl
@[simp] theorem State.withIrq_timerWait (x : Pending) : (s.withIrq x).timerWait = s.timerWait := rfl
@[simp] theorem State.withIrq_draws (x : Pending) : (s.withIrq x).draws = s.draws := rfl
@[simp] theorem State.withIrq_config (x : Pending) : (s.withIrq x).config = s.config := rfl

@[simp] theorem State.withPort_regs (x : PortBusy) : (s.withPort x).regs = s.regs := rfl
@[simp] theorem State.withPort_pc (x : PortBusy) : (s.withPort x).pc = s.pc := rfl
@[simp] theorem State.withPort_sp (x : PortBusy) : (s.withPort x).sp = s.sp := rfl
@[simp] theorem State.withPort_mem (x : PortBusy) : (s.withPort x).mem = s.mem := rfl
@[simp] theorem State.withPort_irq (x : PortBusy) : (s.withPort x).irq = s.irq := rfl
@[simp] theorem State.withPort_port (x : PortBusy) : (s.withPort x).port = x := rfl
@[simp] theorem State.withPort_pdataUndefined (x : PortBusy) : (s.withPort x).pdataUndefined = s.pdataUndefined := rfl
@[simp] theorem State.withPort_pwmDuty (x : PortBusy) : (s.withPort x).pwmDuty = s.pwmDuty := rfl
@[simp] theorem State.withPort_dout (x : PortBusy) : (s.withPort x).dout = s.dout := rfl
@[simp] theorem State.withPort_policing (x : PortBusy) : (s.withPort x).policing = s.policing := rfl
@[simp] theorem State.withPort_sci (x : PortBusy) : (s.withPort x).sci = s.sci := rfl
@[simp] theorem State.withPort_hostRead (x : PortBusy) : (s.withPort x).hostRead = s.hostRead := rfl
@[simp] theorem State.withPort_arrivals (x : PortBusy) : (s.withPort x).arrivals = s.arrivals := rfl
@[simp] theorem State.withPort_timerWait (x : PortBusy) : (s.withPort x).timerWait = s.timerWait := rfl
@[simp] theorem State.withPort_draws (x : PortBusy) : (s.withPort x).draws = s.draws := rfl
@[simp] theorem State.withPort_config (x : PortBusy) : (s.withPort x).config = s.config := rfl

@[simp] theorem State.withPdataUndefined_regs (x : Bool) : (s.withPdataUndefined x).regs = s.regs := rfl
@[simp] theorem State.withPdataUndefined_pc (x : Bool) : (s.withPdataUndefined x).pc = s.pc := rfl
@[simp] theorem State.withPdataUndefined_sp (x : Bool) : (s.withPdataUndefined x).sp = s.sp := rfl
@[simp] theorem State.withPdataUndefined_mem (x : Bool) : (s.withPdataUndefined x).mem = s.mem := rfl
@[simp] theorem State.withPdataUndefined_irq (x : Bool) : (s.withPdataUndefined x).irq = s.irq := rfl
@[simp] theorem State.withPdataUndefined_port (x : Bool) : (s.withPdataUndefined x).port = s.port := rfl
@[simp] theorem State.withPdataUndefined_pdataUndefined (x : Bool) : (s.withPdataUndefined x).pdataUndefined = x := rfl
@[simp] theorem State.withPdataUndefined_pwmDuty (x : Bool) : (s.withPdataUndefined x).pwmDuty = s.pwmDuty := rfl
@[simp] theorem State.withPdataUndefined_dout (x : Bool) : (s.withPdataUndefined x).dout = s.dout := rfl
@[simp] theorem State.withPdataUndefined_policing (x : Bool) : (s.withPdataUndefined x).policing = s.policing := rfl
@[simp] theorem State.withPdataUndefined_sci (x : Bool) : (s.withPdataUndefined x).sci = s.sci := rfl
@[simp] theorem State.withPdataUndefined_hostRead (x : Bool) : (s.withPdataUndefined x).hostRead = s.hostRead := rfl
@[simp] theorem State.withPdataUndefined_arrivals (x : Bool) : (s.withPdataUndefined x).arrivals = s.arrivals := rfl
@[simp] theorem State.withPdataUndefined_timerWait (x : Bool) : (s.withPdataUndefined x).timerWait = s.timerWait := rfl
@[simp] theorem State.withPdataUndefined_draws (x : Bool) : (s.withPdataUndefined x).draws = s.draws := rfl
@[simp] theorem State.withPdataUndefined_config (x : Bool) : (s.withPdataUndefined x).config = s.config := rfl

@[simp] theorem State.withPwmDuty_regs (x : Vector Byte 16) : (s.withPwmDuty x).regs = s.regs := rfl
@[simp] theorem State.withPwmDuty_pc (x : Vector Byte 16) : (s.withPwmDuty x).pc = s.pc := rfl
@[simp] theorem State.withPwmDuty_sp (x : Vector Byte 16) : (s.withPwmDuty x).sp = s.sp := rfl
@[simp] theorem State.withPwmDuty_mem (x : Vector Byte 16) : (s.withPwmDuty x).mem = s.mem := rfl
@[simp] theorem State.withPwmDuty_irq (x : Vector Byte 16) : (s.withPwmDuty x).irq = s.irq := rfl
@[simp] theorem State.withPwmDuty_port (x : Vector Byte 16) : (s.withPwmDuty x).port = s.port := rfl
@[simp] theorem State.withPwmDuty_pdataUndefined (x : Vector Byte 16) : (s.withPwmDuty x).pdataUndefined = s.pdataUndefined := rfl
@[simp] theorem State.withPwmDuty_pwmDuty (x : Vector Byte 16) : (s.withPwmDuty x).pwmDuty = x := rfl
@[simp] theorem State.withPwmDuty_dout (x : Vector Byte 16) : (s.withPwmDuty x).dout = s.dout := rfl
@[simp] theorem State.withPwmDuty_policing (x : Vector Byte 16) : (s.withPwmDuty x).policing = s.policing := rfl
@[simp] theorem State.withPwmDuty_sci (x : Vector Byte 16) : (s.withPwmDuty x).sci = s.sci := rfl
@[simp] theorem State.withPwmDuty_hostRead (x : Vector Byte 16) : (s.withPwmDuty x).hostRead = s.hostRead := rfl
@[simp] theorem State.withPwmDuty_arrivals (x : Vector Byte 16) : (s.withPwmDuty x).arrivals = s.arrivals := rfl
@[simp] theorem State.withPwmDuty_timerWait (x : Vector Byte 16) : (s.withPwmDuty x).timerWait = s.timerWait := rfl
@[simp] theorem State.withPwmDuty_draws (x : Vector Byte 16) : (s.withPwmDuty x).draws = s.draws := rfl
@[simp] theorem State.withPwmDuty_config (x : Vector Byte 16) : (s.withPwmDuty x).config = s.config := rfl

@[simp] theorem State.withDout_regs (x : Byte) : (s.withDout x).regs = s.regs := rfl
@[simp] theorem State.withDout_pc (x : Byte) : (s.withDout x).pc = s.pc := rfl
@[simp] theorem State.withDout_sp (x : Byte) : (s.withDout x).sp = s.sp := rfl
@[simp] theorem State.withDout_mem (x : Byte) : (s.withDout x).mem = s.mem := rfl
@[simp] theorem State.withDout_irq (x : Byte) : (s.withDout x).irq = s.irq := rfl
@[simp] theorem State.withDout_port (x : Byte) : (s.withDout x).port = s.port := rfl
@[simp] theorem State.withDout_pdataUndefined (x : Byte) : (s.withDout x).pdataUndefined = s.pdataUndefined := rfl
@[simp] theorem State.withDout_pwmDuty (x : Byte) : (s.withDout x).pwmDuty = s.pwmDuty := rfl
@[simp] theorem State.withDout_dout (x : Byte) : (s.withDout x).dout = x := rfl
@[simp] theorem State.withDout_policing (x : Byte) : (s.withDout x).policing = s.policing := rfl
@[simp] theorem State.withDout_sci (x : Byte) : (s.withDout x).sci = s.sci := rfl
@[simp] theorem State.withDout_hostRead (x : Byte) : (s.withDout x).hostRead = s.hostRead := rfl
@[simp] theorem State.withDout_arrivals (x : Byte) : (s.withDout x).arrivals = s.arrivals := rfl
@[simp] theorem State.withDout_timerWait (x : Byte) : (s.withDout x).timerWait = s.timerWait := rfl
@[simp] theorem State.withDout_draws (x : Byte) : (s.withDout x).draws = s.draws := rfl
@[simp] theorem State.withDout_config (x : Byte) : (s.withDout x).config = s.config := rfl

@[simp] theorem State.withPolicing_regs (x : Bool) : (s.withPolicing x).regs = s.regs := rfl
@[simp] theorem State.withPolicing_pc (x : Bool) : (s.withPolicing x).pc = s.pc := rfl
@[simp] theorem State.withPolicing_sp (x : Bool) : (s.withPolicing x).sp = s.sp := rfl
@[simp] theorem State.withPolicing_mem (x : Bool) : (s.withPolicing x).mem = s.mem := rfl
@[simp] theorem State.withPolicing_irq (x : Bool) : (s.withPolicing x).irq = s.irq := rfl
@[simp] theorem State.withPolicing_port (x : Bool) : (s.withPolicing x).port = s.port := rfl
@[simp] theorem State.withPolicing_pdataUndefined (x : Bool) : (s.withPolicing x).pdataUndefined = s.pdataUndefined := rfl
@[simp] theorem State.withPolicing_pwmDuty (x : Bool) : (s.withPolicing x).pwmDuty = s.pwmDuty := rfl
@[simp] theorem State.withPolicing_dout (x : Bool) : (s.withPolicing x).dout = s.dout := rfl
@[simp] theorem State.withPolicing_policing (x : Bool) : (s.withPolicing x).policing = x := rfl
@[simp] theorem State.withPolicing_sci (x : Bool) : (s.withPolicing x).sci = s.sci := rfl
@[simp] theorem State.withPolicing_hostRead (x : Bool) : (s.withPolicing x).hostRead = s.hostRead := rfl
@[simp] theorem State.withPolicing_arrivals (x : Bool) : (s.withPolicing x).arrivals = s.arrivals := rfl
@[simp] theorem State.withPolicing_timerWait (x : Bool) : (s.withPolicing x).timerWait = s.timerWait := rfl
@[simp] theorem State.withPolicing_draws (x : Bool) : (s.withPolicing x).draws = s.draws := rfl
@[simp] theorem State.withPolicing_config (x : Bool) : (s.withPolicing x).config = s.config := rfl

@[simp] theorem State.withSci_regs (x : Bool) : (s.withSci x).regs = s.regs := rfl
@[simp] theorem State.withSci_pc (x : Bool) : (s.withSci x).pc = s.pc := rfl
@[simp] theorem State.withSci_sp (x : Bool) : (s.withSci x).sp = s.sp := rfl
@[simp] theorem State.withSci_mem (x : Bool) : (s.withSci x).mem = s.mem := rfl
@[simp] theorem State.withSci_irq (x : Bool) : (s.withSci x).irq = s.irq := rfl
@[simp] theorem State.withSci_port (x : Bool) : (s.withSci x).port = s.port := rfl
@[simp] theorem State.withSci_pdataUndefined (x : Bool) : (s.withSci x).pdataUndefined = s.pdataUndefined := rfl
@[simp] theorem State.withSci_pwmDuty (x : Bool) : (s.withSci x).pwmDuty = s.pwmDuty := rfl
@[simp] theorem State.withSci_dout (x : Bool) : (s.withSci x).dout = s.dout := rfl
@[simp] theorem State.withSci_policing (x : Bool) : (s.withSci x).policing = s.policing := rfl
@[simp] theorem State.withSci_sci (x : Bool) : (s.withSci x).sci = x := rfl
@[simp] theorem State.withSci_hostRead (x : Bool) : (s.withSci x).hostRead = s.hostRead := rfl
@[simp] theorem State.withSci_arrivals (x : Bool) : (s.withSci x).arrivals = s.arrivals := rfl
@[simp] theorem State.withSci_timerWait (x : Bool) : (s.withSci x).timerWait = s.timerWait := rfl
@[simp] theorem State.withSci_draws (x : Bool) : (s.withSci x).draws = s.draws := rfl
@[simp] theorem State.withSci_config (x : Bool) : (s.withSci x).config = s.config := rfl

@[simp] theorem State.withHostRead_regs (x : Byte) : (s.withHostRead x).regs = s.regs := rfl
@[simp] theorem State.withHostRead_pc (x : Byte) : (s.withHostRead x).pc = s.pc := rfl
@[simp] theorem State.withHostRead_sp (x : Byte) : (s.withHostRead x).sp = s.sp := rfl
@[simp] theorem State.withHostRead_mem (x : Byte) : (s.withHostRead x).mem = s.mem := rfl
@[simp] theorem State.withHostRead_irq (x : Byte) : (s.withHostRead x).irq = s.irq := rfl
@[simp] theorem State.withHostRead_port (x : Byte) : (s.withHostRead x).port = s.port := rfl
@[simp] theorem State.withHostRead_pdataUndefined (x : Byte) : (s.withHostRead x).pdataUndefined = s.pdataUndefined := rfl
@[simp] theorem State.withHostRead_pwmDuty (x : Byte) : (s.withHostRead x).pwmDuty = s.pwmDuty := rfl
@[simp] theorem State.withHostRead_dout (x : Byte) : (s.withHostRead x).dout = s.dout := rfl
@[simp] theorem State.withHostRead_policing (x : Byte) : (s.withHostRead x).policing = s.policing := rfl
@[simp] theorem State.withHostRead_sci (x : Byte) : (s.withHostRead x).sci = s.sci := rfl
@[simp] theorem State.withHostRead_hostRead (x : Byte) : (s.withHostRead x).hostRead = x := rfl
@[simp] theorem State.withHostRead_arrivals (x : Byte) : (s.withHostRead x).arrivals = s.arrivals := rfl
@[simp] theorem State.withHostRead_timerWait (x : Byte) : (s.withHostRead x).timerWait = s.timerWait := rfl
@[simp] theorem State.withHostRead_draws (x : Byte) : (s.withHostRead x).draws = s.draws := rfl
@[simp] theorem State.withHostRead_config (x : Byte) : (s.withHostRead x).config = s.config := rfl

@[simp] theorem State.withArrivals_regs (x : List (List EnvAction)) : (s.withArrivals x).regs = s.regs := rfl
@[simp] theorem State.withArrivals_pc (x : List (List EnvAction)) : (s.withArrivals x).pc = s.pc := rfl
@[simp] theorem State.withArrivals_sp (x : List (List EnvAction)) : (s.withArrivals x).sp = s.sp := rfl
@[simp] theorem State.withArrivals_mem (x : List (List EnvAction)) : (s.withArrivals x).mem = s.mem := rfl
@[simp] theorem State.withArrivals_irq (x : List (List EnvAction)) : (s.withArrivals x).irq = s.irq := rfl
@[simp] theorem State.withArrivals_port (x : List (List EnvAction)) : (s.withArrivals x).port = s.port := rfl
@[simp] theorem State.withArrivals_pdataUndefined (x : List (List EnvAction)) : (s.withArrivals x).pdataUndefined = s.pdataUndefined := rfl
@[simp] theorem State.withArrivals_pwmDuty (x : List (List EnvAction)) : (s.withArrivals x).pwmDuty = s.pwmDuty := rfl
@[simp] theorem State.withArrivals_dout (x : List (List EnvAction)) : (s.withArrivals x).dout = s.dout := rfl
@[simp] theorem State.withArrivals_policing (x : List (List EnvAction)) : (s.withArrivals x).policing = s.policing := rfl
@[simp] theorem State.withArrivals_sci (x : List (List EnvAction)) : (s.withArrivals x).sci = s.sci := rfl
@[simp] theorem State.withArrivals_hostRead (x : List (List EnvAction)) : (s.withArrivals x).hostRead = s.hostRead := rfl
@[simp] theorem State.withArrivals_arrivals (x : List (List EnvAction)) : (s.withArrivals x).arrivals = x := rfl
@[simp] theorem State.withArrivals_timerWait (x : List (List EnvAction)) : (s.withArrivals x).timerWait = s.timerWait := rfl
@[simp] theorem State.withArrivals_draws (x : List (List EnvAction)) : (s.withArrivals x).draws = s.draws := rfl
@[simp] theorem State.withArrivals_config (x : List (List EnvAction)) : (s.withArrivals x).config = s.config := rfl

@[simp] theorem State.withTimerWait_regs (x : Nat) : (s.withTimerWait x).regs = s.regs := rfl
@[simp] theorem State.withTimerWait_pc (x : Nat) : (s.withTimerWait x).pc = s.pc := rfl
@[simp] theorem State.withTimerWait_sp (x : Nat) : (s.withTimerWait x).sp = s.sp := rfl
@[simp] theorem State.withTimerWait_mem (x : Nat) : (s.withTimerWait x).mem = s.mem := rfl
@[simp] theorem State.withTimerWait_irq (x : Nat) : (s.withTimerWait x).irq = s.irq := rfl
@[simp] theorem State.withTimerWait_port (x : Nat) : (s.withTimerWait x).port = s.port := rfl
@[simp] theorem State.withTimerWait_pdataUndefined (x : Nat) : (s.withTimerWait x).pdataUndefined = s.pdataUndefined := rfl
@[simp] theorem State.withTimerWait_pwmDuty (x : Nat) : (s.withTimerWait x).pwmDuty = s.pwmDuty := rfl
@[simp] theorem State.withTimerWait_dout (x : Nat) : (s.withTimerWait x).dout = s.dout := rfl
@[simp] theorem State.withTimerWait_policing (x : Nat) : (s.withTimerWait x).policing = s.policing := rfl
@[simp] theorem State.withTimerWait_sci (x : Nat) : (s.withTimerWait x).sci = s.sci := rfl
@[simp] theorem State.withTimerWait_hostRead (x : Nat) : (s.withTimerWait x).hostRead = s.hostRead := rfl
@[simp] theorem State.withTimerWait_arrivals (x : Nat) : (s.withTimerWait x).arrivals = s.arrivals := rfl
@[simp] theorem State.withTimerWait_timerWait (x : Nat) : (s.withTimerWait x).timerWait = x := rfl
@[simp] theorem State.withTimerWait_draws (x : Nat) : (s.withTimerWait x).draws = s.draws := rfl
@[simp] theorem State.withTimerWait_config (x : Nat) : (s.withTimerWait x).config = s.config := rfl

@[simp] theorem State.withDraws_regs (x : Nat) : (s.withDraws x).regs = s.regs := rfl
@[simp] theorem State.withDraws_pc (x : Nat) : (s.withDraws x).pc = s.pc := rfl
@[simp] theorem State.withDraws_sp (x : Nat) : (s.withDraws x).sp = s.sp := rfl
@[simp] theorem State.withDraws_mem (x : Nat) : (s.withDraws x).mem = s.mem := rfl
@[simp] theorem State.withDraws_irq (x : Nat) : (s.withDraws x).irq = s.irq := rfl
@[simp] theorem State.withDraws_port (x : Nat) : (s.withDraws x).port = s.port := rfl
@[simp] theorem State.withDraws_pdataUndefined (x : Nat) : (s.withDraws x).pdataUndefined = s.pdataUndefined := rfl
@[simp] theorem State.withDraws_pwmDuty (x : Nat) : (s.withDraws x).pwmDuty = s.pwmDuty := rfl
@[simp] theorem State.withDraws_dout (x : Nat) : (s.withDraws x).dout = s.dout := rfl
@[simp] theorem State.withDraws_policing (x : Nat) : (s.withDraws x).policing = s.policing := rfl
@[simp] theorem State.withDraws_sci (x : Nat) : (s.withDraws x).sci = s.sci := rfl
@[simp] theorem State.withDraws_hostRead (x : Nat) : (s.withDraws x).hostRead = s.hostRead := rfl
@[simp] theorem State.withDraws_arrivals (x : Nat) : (s.withDraws x).arrivals = s.arrivals := rfl
@[simp] theorem State.withDraws_timerWait (x : Nat) : (s.withDraws x).timerWait = s.timerWait := rfl
@[simp] theorem State.withDraws_draws (x : Nat) : (s.withDraws x).draws = x := rfl
@[simp] theorem State.withDraws_config (x : Nat) : (s.withDraws x).config = s.config := rfl

@[simp] theorem State.putReg_pc (r : Reg) (v : Byte) : (s.putReg r v).pc = s.pc := rfl
@[simp] theorem State.putReg_sp (r : Reg) (v : Byte) : (s.putReg r v).sp = s.sp := rfl
@[simp] theorem State.putReg_mem (r : Reg) (v : Byte) : (s.putReg r v).mem = s.mem := rfl
@[simp] theorem State.putReg_irq (r : Reg) (v : Byte) : (s.putReg r v).irq = s.irq := rfl
@[simp] theorem State.putReg_port (r : Reg) (v : Byte) : (s.putReg r v).port = s.port := rfl
@[simp] theorem State.putReg_pdataUndefined (r : Reg) (v : Byte) : (s.putReg r v).pdataUndefined = s.pdataUndefined := rfl
@[simp] theorem State.putReg_pwmDuty (r : Reg) (v : Byte) : (s.putReg r v).pwmDuty = s.pwmDuty := rfl
@[simp] theorem State.putReg_dout (r : Reg) (v : Byte) : (s.putReg r v).dout = s.dout := rfl
@[simp] theorem State.putReg_policing (r : Reg) (v : Byte) : (s.putReg r v).policing = s.policing := rfl
@[simp] theorem State.putReg_sci (r : Reg) (v : Byte) : (s.putReg r v).sci = s.sci := rfl
@[simp] theorem State.putReg_hostRead (r : Reg) (v : Byte) : (s.putReg r v).hostRead = s.hostRead := rfl
@[simp] theorem State.putReg_arrivals (r : Reg) (v : Byte) : (s.putReg r v).arrivals = s.arrivals := rfl
@[simp] theorem State.putReg_timerWait (r : Reg) (v : Byte) : (s.putReg r v).timerWait = s.timerWait := rfl
@[simp] theorem State.putReg_draws (r : Reg) (v : Byte) : (s.putReg r v).draws = s.draws := rfl
@[simp] theorem State.putReg_config (r : Reg) (v : Byte) : (s.putReg r v).config = s.config := rfl
@[simp] theorem State.putReg_regs (r : Reg) (v : Byte) : (s.putReg r v).regs = s.regs.set r v := rfl

@[simp] theorem State.withPc_reg (x : Addr) (r : Reg) : (s.withPc x).reg r = s.reg r := rfl
@[simp] theorem State.withSp_reg (x : Addr) (r : Reg) : (s.withSp x).reg r = s.reg r := rfl
@[simp] theorem State.withMem_reg (x : Memory) (r : Reg) : (s.withMem x).reg r = s.reg r := rfl
@[simp] theorem State.withIrq_reg (x : Pending) (r : Reg) : (s.withIrq x).reg r = s.reg r := rfl
@[simp] theorem State.withPort_reg (x : PortBusy) (r : Reg) : (s.withPort x).reg r = s.reg r := rfl
@[simp] theorem State.withPdataUndefined_reg (x : Bool) (r : Reg) : (s.withPdataUndefined x).reg r = s.reg r := rfl
@[simp] theorem State.withPwmDuty_reg (x : Vector Byte 16) (r : Reg) : (s.withPwmDuty x).reg r = s.reg r := rfl
@[simp] theorem State.withDout_reg (x : Byte) (r : Reg) : (s.withDout x).reg r = s.reg r := rfl
@[simp] theorem State.withPolicing_reg (x : Bool) (r : Reg) : (s.withPolicing x).reg r = s.reg r := rfl
@[simp] theorem State.withSci_reg (x : Bool) (r : Reg) : (s.withSci x).reg r = s.reg r := rfl
@[simp] theorem State.withHostRead_reg (x : Byte) (r : Reg) : (s.withHostRead x).reg r = s.reg r := rfl
@[simp] theorem State.withArrivals_reg (x : List (List EnvAction)) (r : Reg) : (s.withArrivals x).reg r = s.reg r := rfl
@[simp] theorem State.withTimerWait_reg (x : Nat) (r : Reg) : (s.withTimerWait x).reg r = s.reg r := rfl
@[simp] theorem State.withDraws_reg (x : Nat) (r : Reg) : (s.withDraws x).reg r = s.reg r := rfl
@[simp] theorem State.withRegs_reg (x : Regs) (r : Reg) : (s.withRegs x).reg r = x.get r := rfl

@[simp] theorem Regs.get_set_same (g : Regs) (r : Reg) (v : Byte) : (g.set r v).get r = v := by
  cases r <;> rfl

@[simp] theorem Regs.get_set_other (g : Regs) (q r : Reg) (v : Byte) (h : r ≠ q) :
    (g.set q v).get r = g.get r := by
  cases q <;> cases r <;> first | rfl | exact absurd rfl h

theorem Regs.get_set (g : Regs) (q r : Reg) (v : Byte) :
    (g.set q v).get r = if r = q then v else g.get r := by
  by_cases h : r = q
  · subst h; simp
  · simp [h]

@[simp] theorem State.putReg_reg_same (r : Reg) (v : Byte) : (s.putReg r v).reg r = v :=
  Regs.get_set_same s.regs r v

@[simp] theorem State.putReg_reg_other (q r : Reg) (v : Byte) (h : r ≠ q) : (s.putReg q v).reg r = s.reg r :=
  Regs.get_set_other s.regs q r v h

theorem State.putReg_reg (q r : Reg) (v : Byte) : (s.putReg q v).reg r = if r = q then v else s.reg r :=
  Regs.get_set s.regs q r v

@[simp] theorem State.reg_r0 : s.reg .r0 = s.regs.r0 := rfl
@[simp] theorem State.reg_r1 : s.reg .r1 = s.regs.r1 := rfl
@[simp] theorem State.reg_r2 : s.reg .r2 = s.regs.r2 := rfl
@[simp] theorem State.reg_r3 : s.reg .r3 = s.regs.r3 := rfl
@[simp] theorem State.reg_r4 : s.reg .r4 = s.regs.r4 := rfl
@[simp] theorem State.reg_r5 : s.reg .r5 = s.regs.r5 := rfl
@[simp] theorem State.reg_r6 : s.reg .r6 = s.regs.r6 := rfl
@[simp] theorem State.reg_r7 : s.reg .r7 = s.regs.r7 := rfl
@[simp] theorem State.reg_ecdata : s.reg .ecdata = s.regs.ecdata := rfl
@[simp] theorem State.reg_pdata : s.reg .pdata = s.regs.pdata := rfl
@[simp] theorem State.reg_c0 : s.reg .c0 = s.regs.c0 := rfl
@[simp] theorem State.reg_c1 : s.reg .c1 = s.regs.c1 := rfl
@[simp] theorem State.reg_ecscr : s.reg .ecscr = s.regs.ecscr := rfl
@[simp] theorem State.reg_ecscw : s.reg .ecscw = s.regs.ecscw := rfl
@[simp] theorem State.reg_pcon : s.reg .pcon = s.regs.pcon := rfl
@[simp] theorem State.reg_status : s.reg .status = s.regs.status := rfl

end Sys2Proof.Machine
end

