-- ==== Sys2Proof/Laws/Memory.lean ====
section
/-! SUPPORT. The laws of memory: a read after a write, and that every memory operation keeps the canonical form. -/

namespace Sys2Proof.Machine

theorem lookup_insertCell (cells : List Host.Cell) (a b : Nat) (v : Byte) :
    (insertCell cells a v).lookup b = if b = a then some v else cells.lookup b := by
  induction cells with
  | nil =>
    rcases eq_or_ne b a with rfl | h
    · simp [insertCell]
    · simp [insertCell, List.lookup_cons, beq_false_of_ne h, h]
  | cons x rest ih =>
    obtain ⟨k, w⟩ := x
    rcases eq_or_ne b a with rfl | h
    · simp only [insertCell] at ih ⊢
      split_ifs with h1 h2
      · simp
      · simp
      · rw [List.lookup_cons, beq_false_of_ne h2]
        exact ih
    · rw [if_neg h] at ih ⊢
      simp only [insertCell]
      split_ifs with h1 h2
      · rw [List.lookup_cons, beq_false_of_ne h]
      · subst h2
        rw [List.lookup_cons, List.lookup_cons, beq_false_of_ne h]
      · rw [List.lookup_cons, List.lookup_cons, ih]

theorem Memory.read_write (m : Memory) (a b : Nat) (v : Byte) :
    (m.write a v).read b = if b = a then some v else m.read b :=
  lookup_insertCell m.cells a b v

@[simp] theorem Memory.read_write_same (m : Memory) (a : Nat) (v : Byte) : (m.write a v).read a = some v := by
  simp [Memory.read_write]

theorem Memory.read_write_other (m : Memory) (a b : Nat) (v : Byte) (h : b ≠ a) :
    (m.write a v).read b = m.read b := by
  simp [Memory.read_write, h]

/-- Every cell after a write is the written one or an old one. -/
theorem mem_insertCell (cells : List Host.Cell) (a : Nat) (v : Byte) (x : Host.Cell)
    (h : x ∈ insertCell cells a v) : x = (a, v) ∨ x ∈ cells := by
  induction cells with
  | nil => simpa [insertCell] using h
  | cons y rest ih =>
    obtain ⟨k, w⟩ := y
    simp only [insertCell] at h
    split_ifs at h with h1 h2
    · simpa using h
    · simp only [List.mem_cons] at h ⊢
      rcases h with h | h
      · exact .inl h
      · exact .inr (.inr h)
    · simp only [List.mem_cons] at h ⊢
      rcases h with h | h
      · exact .inr (.inl h)
      · rcases ih h with h | h
        · exact .inl h
        · exact .inr (.inr h)

theorem insertCell_rising (cells : List Host.Cell) (a : Nat) (v : Byte)
    (h : cells.Pairwise (fun x y => x.1 < y.1)) : (insertCell cells a v).Pairwise (fun x y => x.1 < y.1) := by
  induction cells with
  | nil => simp [insertCell]
  | cons y rest ih =>
    obtain ⟨k, w⟩ := y
    rw [List.pairwise_cons] at h
    simp only [insertCell]
    split_ifs with h1 h2
    · refine List.pairwise_cons.2 ⟨?_, List.pairwise_cons.2 h⟩
      intro z hz
      rcases List.mem_cons.1 hz with rfl | hz
      · exact h1
      · exact lt_trans h1 (h.1 z hz)
    · subst h2
      exact List.pairwise_cons.2 ⟨h.1, h.2⟩
    · refine List.pairwise_cons.2 ⟨?_, ih h.2⟩
      intro z hz
      rcases mem_insertCell rest a v z hz with rfl | hz
      · show k < a
        omega
      · exact h.1 z hz

/-- A write keeps the canonical form. -/
theorem Memory.wf_write (m : Memory) (a : Nat) (v : Byte) (h : m.wf) (ha : a < 65536) : (m.write a v).wf := by
  refine ⟨insertCell_rising m.cells a v h.1, ?_⟩
  intro x hx
  rcases mem_insertCell m.cells a v x hx with rfl | hx
  · exact ha
  · exact h.2 x hx

theorem State.reset_memory_wf : State.reset.mem.wf := by
  constructor <;> simp [State.reset, State.powerOn]

/-- A byte read after a write through the machine's one write of a byte. -/
theorem State.byteAt_writeByte (s : State) (a b : Addr) (v : Byte) (h : inSmbZone a = false) :
    (s.writeByte a v).byteAt b = if b = a then v else s.byteAt b := by
  simp only [State.writeByte, h, State.byteAt]
  by_cases hb : b = a
  · subst hb; simp
  · have hn : b.toNat ≠ a.toNat := fun e => hb (BitVec.eq_of_toNat_eq e)
    simp [Memory.read_write_other _ _ _ _ hn, hb]

/-- A write into the SMB zone has no modelled effect (R78). -/
theorem State.writeByte_smb (s : State) (a : Addr) (v : Byte) (h : inSmbZone a = true) : s.writeByte a v = s := by
  simp [State.writeByte, h]

/-- Whatever is written, every other byte of memory reads as before. -/
theorem State.byteAt_writeByte_other (s : State) (a b : Addr) (v : Byte) (h : b ≠ a) :
    (s.writeByte a v).byteAt b = s.byteAt b := by
  cases hz : inSmbZone a with
  | true => rw [State.writeByte_smb s a v hz]
  | false => rw [State.byteAt_writeByte s a b v hz, if_neg h]

/-- What a write of a byte can do to the memory, said once. -/
theorem State.writeByte_cases (s : State) (a : Addr) (v : Byte) :
    (inSmbZone a = true ∧ s.writeByte a v = s) ∨
      (inSmbZone a = false ∧ s.writeByte a v = s.withMem (s.mem.write a.toNat v)) := by
  cases hz : inSmbZone a <;> simp [State.writeByte, hz]

theorem State.writeByte_wf (s : State) (a : Addr) (v : Byte) (h : s.mem.wf) : (s.writeByte a v).mem.wf := by
  rcases State.writeByte_cases s a v with ⟨-, e⟩ | ⟨-, e⟩ <;> rw [e]
  · exact h
  · exact Memory.wf_write s.mem a.toNat v h a.isLt

/-! ### What a write of a byte leaves unchanged -/

@[simp] theorem State.writeByte_regs (s : State) (a : Addr) (v : Byte) : (s.writeByte a v).regs = s.regs := by
  unfold State.writeByte; split <;> rfl
@[simp] theorem State.writeByte_pc (s : State) (a : Addr) (v : Byte) : (s.writeByte a v).pc = s.pc := by
  unfold State.writeByte; split <;> rfl
@[simp] theorem State.writeByte_sp (s : State) (a : Addr) (v : Byte) : (s.writeByte a v).sp = s.sp := by
  unfold State.writeByte; split <;> rfl
@[simp] theorem State.writeByte_irq (s : State) (a : Addr) (v : Byte) : (s.writeByte a v).irq = s.irq := by
  unfold State.writeByte; split <;> rfl
@[simp] theorem State.writeByte_port (s : State) (a : Addr) (v : Byte) : (s.writeByte a v).port = s.port := by
  unfold State.writeByte; split <;> rfl
@[simp] theorem State.writeByte_pdataUndefined (s : State) (a : Addr) (v : Byte) : (s.writeByte a v).pdataUndefined = s.pdataUndefined := by
  unfold State.writeByte; split <;> rfl
@[simp] theorem State.writeByte_pwmDuty (s : State) (a : Addr) (v : Byte) : (s.writeByte a v).pwmDuty = s.pwmDuty := by
  unfold State.writeByte; split <;> rfl
@[simp] theorem State.writeByte_dout (s : State) (a : Addr) (v : Byte) : (s.writeByte a v).dout = s.dout := by
  unfold State.writeByte; split <;> rfl
@[simp] theorem State.writeByte_policing (s : State) (a : Addr) (v : Byte) : (s.writeByte a v).policing = s.policing := by
  unfold State.writeByte; split <;> rfl
@[simp] theorem State.writeByte_sci (s : State) (a : Addr) (v : Byte) : (s.writeByte a v).sci = s.sci := by
  unfold State.writeByte; split <;> rfl
@[simp] theorem State.writeByte_hostRead (s : State) (a : Addr) (v : Byte) : (s.writeByte a v).hostRead = s.hostRead := by
  unfold State.writeByte; split <;> rfl
@[simp] theorem State.writeByte_arrivals (s : State) (a : Addr) (v : Byte) : (s.writeByte a v).arrivals = s.arrivals := by
  unfold State.writeByte; split <;> rfl
@[simp] theorem State.writeByte_timerWait (s : State) (a : Addr) (v : Byte) : (s.writeByte a v).timerWait = s.timerWait := by
  unfold State.writeByte; split <;> rfl
@[simp] theorem State.writeByte_draws (s : State) (a : Addr) (v : Byte) : (s.writeByte a v).draws = s.draws := by
  unfold State.writeByte; split <;> rfl
@[simp] theorem State.writeByte_config (s : State) (a : Addr) (v : Byte) : (s.writeByte a v).config = s.config := by
  unfold State.writeByte; split <;> rfl
@[simp] theorem State.writeByte_reg (s : State) (a : Addr) (v : Byte) (r : Reg) :
    (s.writeByte a v).reg r = s.reg r := by
  simp [State.reg]

/-! ### Draws: only the counter moves -/

@[simp] theorem State.draw_regs (s : State) : s.draw.2.regs = s.regs := rfl
@[simp] theorem State.drawDelay_regs (s : State) : s.drawDelay.2.regs = s.regs := rfl
@[simp] theorem State.drawWord_regs (s : State) : s.drawWord.2.regs = s.regs := rfl
@[simp] theorem State.draw_pc (s : State) : s.draw.2.pc = s.pc := rfl
@[simp] theorem State.drawDelay_pc (s : State) : s.drawDelay.2.pc = s.pc := rfl
@[simp] theorem State.drawWord_pc (s : State) : s.drawWord.2.pc = s.pc := rfl
@[simp] theorem State.draw_sp (s : State) : s.draw.2.sp = s.sp := rfl
@[simp] theorem State.drawDelay_sp (s : State) : s.drawDelay.2.sp = s.sp := rfl
@[simp] theorem State.drawWord_sp (s : State) : s.drawWord.2.sp = s.sp := rfl
@[simp] theorem State.draw_mem (s : State) : s.draw.2.mem = s.mem := rfl
@[simp] theorem State.drawDelay_mem (s : State) : s.drawDelay.2.mem = s.mem := rfl
@[simp] theorem State.drawWord_mem (s : State) : s.drawWord.2.mem = s.mem := rfl
@[simp] theorem State.draw_irq (s : State) : s.draw.2.irq = s.irq := rfl
@[simp] theorem State.drawDelay_irq (s : State) : s.drawDelay.2.irq = s.irq := rfl
@[simp] theorem State.drawWord_irq (s : State) : s.drawWord.2.irq = s.irq := rfl
@[simp] theorem State.draw_port (s : State) : s.draw.2.port = s.port := rfl
@[simp] theorem State.drawDelay_port (s : State) : s.drawDelay.2.port = s.port := rfl
@[simp] theorem State.drawWord_port (s : State) : s.drawWord.2.port = s.port := rfl
@[simp] theorem State.draw_pdataUndefined (s : State) : s.draw.2.pdataUndefined = s.pdataUndefined := rfl
@[simp] theorem State.drawDelay_pdataUndefined (s : State) : s.drawDelay.2.pdataUndefined = s.pdataUndefined := rfl
@[simp] theorem State.drawWord_pdataUndefined (s : State) : s.drawWord.2.pdataUndefined = s.pdataUndefined := rfl
@[simp] theorem State.draw_pwmDuty (s : State) : s.draw.2.pwmDuty = s.pwmDuty := rfl
@[simp] theorem State.drawDelay_pwmDuty (s : State) : s.drawDelay.2.pwmDuty = s.pwmDuty := rfl
@[simp] theorem State.drawWord_pwmDuty (s : State) : s.drawWord.2.pwmDuty = s.pwmDuty := rfl
@[simp] theorem State.draw_dout (s : State) : s.draw.2.dout = s.dout := rfl
@[simp] theorem State.drawDelay_dout (s : State) : s.drawDelay.2.dout = s.dout := rfl
@[simp] theorem State.drawWord_dout (s : State) : s.drawWord.2.dout = s.dout := rfl
@[simp] theorem State.draw_policing (s : State) : s.draw.2.policing = s.policing := rfl
@[simp] theorem State.drawDelay_policing (s : State) : s.drawDelay.2.policing = s.policing := rfl
@[simp] theorem State.drawWord_policing (s : State) : s.drawWord.2.policing = s.policing := rfl
@[simp] theorem State.draw_sci (s : State) : s.draw.2.sci = s.sci := rfl
@[simp] theorem State.drawDelay_sci (s : State) : s.drawDelay.2.sci = s.sci := rfl
@[simp] theorem State.drawWord_sci (s : State) : s.drawWord.2.sci = s.sci := rfl
@[simp] theorem State.draw_hostRead (s : State) : s.draw.2.hostRead = s.hostRead := rfl
@[simp] theorem State.drawDelay_hostRead (s : State) : s.drawDelay.2.hostRead = s.hostRead := rfl
@[simp] theorem State.drawWord_hostRead (s : State) : s.drawWord.2.hostRead = s.hostRead := rfl
@[simp] theorem State.draw_arrivals (s : State) : s.draw.2.arrivals = s.arrivals := rfl
@[simp] theorem State.drawDelay_arrivals (s : State) : s.drawDelay.2.arrivals = s.arrivals := rfl
@[simp] theorem State.drawWord_arrivals (s : State) : s.drawWord.2.arrivals = s.arrivals := rfl
@[simp] theorem State.draw_timerWait (s : State) : s.draw.2.timerWait = s.timerWait := rfl
@[simp] theorem State.drawDelay_timerWait (s : State) : s.drawDelay.2.timerWait = s.timerWait := rfl
@[simp] theorem State.drawWord_timerWait (s : State) : s.drawWord.2.timerWait = s.timerWait := rfl
@[simp] theorem State.draw_config (s : State) : s.draw.2.config = s.config := rfl
@[simp] theorem State.drawDelay_config (s : State) : s.drawDelay.2.config = s.config := rfl
@[simp] theorem State.drawWord_config (s : State) : s.drawWord.2.config = s.config := rfl

theorem State.readByte_cases (s : State) (a : Addr) :
    (inSmbZone a = true ∧ s.readByte a = s.draw) ∨ (inSmbZone a = false ∧ s.readByte a = (s.byteAt a, s)) := by
  cases hz : inSmbZone a <;> simp [State.readByte, hz]

@[simp] theorem State.readByte_regs (s : State) (a : Addr) : (s.readByte a).2.regs = s.regs := by
  unfold State.readByte; split <;> rfl
@[simp] theorem State.readByte_pc (s : State) (a : Addr) : (s.readByte a).2.pc = s.pc := by
  unfold State.readByte; split <;> rfl
@[simp] theorem State.readByte_sp (s : State) (a : Addr) : (s.readByte a).2.sp = s.sp := by
  unfold State.readByte; split <;> rfl
@[simp] theorem State.readByte_mem (s : State) (a : Addr) : (s.readByte a).2.mem = s.mem := by
  unfold State.readByte; split <;> rfl
@[simp] theorem State.readByte_irq (s : State) (a : Addr) : (s.readByte a).2.irq = s.irq := by
  unfold State.readByte; split <;> rfl
@[simp] theorem State.readByte_port (s : State) (a : Addr) : (s.readByte a).2.port = s.port := by
  unfold State.readByte; split <;> rfl
@[simp] theorem State.readByte_pdataUndefined (s : State) (a : Addr) : (s.readByte a).2.pdataUndefined = s.pdataUndefined := by
  unfold State.readByte; split <;> rfl
@[simp] theorem State.readByte_pwmDuty (s : State) (a : Addr) : (s.readByte a).2.pwmDuty = s.pwmDuty := by
  unfold State.readByte; split <;> rfl
@[simp] theorem State.readByte_dout (s : State) (a : Addr) : (s.readByte a).2.dout = s.dout := by
  unfold State.readByte; split <;> rfl
@[simp] theorem State.readByte_policing (s : State) (a : Addr) : (s.readByte a).2.policing = s.policing := by
  unfold State.readByte; split <;> rfl
@[simp] theorem State.readByte_sci (s : State) (a : Addr) : (s.readByte a).2.sci = s.sci := by
  unfold State.readByte; split <;> rfl
@[simp] theorem State.readByte_hostRead (s : State) (a : Addr) : (s.readByte a).2.hostRead = s.hostRead := by
  unfold State.readByte; split <;> rfl
@[simp] theorem State.readByte_arrivals (s : State) (a : Addr) : (s.readByte a).2.arrivals = s.arrivals := by
  unfold State.readByte; split <;> rfl
@[simp] theorem State.readByte_timerWait (s : State) (a : Addr) : (s.readByte a).2.timerWait = s.timerWait := by
  unfold State.readByte; split <;> rfl
@[simp] theorem State.readByte_config (s : State) (a : Addr) : (s.readByte a).2.config = s.config := by
  unfold State.readByte; split <;> rfl

end Sys2Proof.Machine
end

