-- ==== Sys2Proof/Laws/Ports.lean ====
section
/-! SUPPORT. What the port hardware can change, said once: PCON, PDATA, the operation in progress, the latches and the
count of draws, and nothing else. -/

namespace Sys2Proof.Machine

/-- Everything outside the port hardware is the same. -/
structure PortOnly (s t : State) : Prop where
  regs : ∀ q, q ≠ .pcon → q ≠ .pdata → t.reg q = s.reg q
  pc : t.pc = s.pc
  sp : t.sp = s.sp
  mem : t.mem = s.mem
  irq : t.irq = s.irq
  policing : t.policing = s.policing
  sci : t.sci = s.sci
  hostRead : t.hostRead = s.hostRead
  arrivals : t.arrivals = s.arrivals
  timerWait : t.timerWait = s.timerWait
  config : t.config = s.config

theorem PortOnly.rfl (s : State) : PortOnly s s :=
  ⟨fun _ _ _ => Eq.refl _, Eq.refl _, Eq.refl _, Eq.refl _, Eq.refl _, Eq.refl _, Eq.refl _, Eq.refl _, Eq.refl _,
    Eq.refl _, Eq.refl _⟩

theorem PortOnly.trans' {s t u : State} (h : PortOnly s t) (k : PortOnly t u) : PortOnly s u :=
  ⟨fun q a b => (k.regs q a b).trans (h.regs q a b), k.pc.trans h.pc, k.sp.trans h.sp, k.mem.trans h.mem,
    k.irq.trans h.irq, k.policing.trans h.policing, k.sci.trans h.sci, k.hostRead.trans h.hostRead,
    k.arrivals.trans h.arrivals, k.timerWait.trans h.timerWait, k.config.trans h.config⟩

theorem PortOnly.draw (s : State) : PortOnly s s.draw.2 :=
  ⟨fun _ _ _ => Eq.refl _, Eq.refl _, Eq.refl _, Eq.refl _, Eq.refl _, Eq.refl _, Eq.refl _, Eq.refl _, Eq.refl _,
    Eq.refl _, Eq.refl _⟩

theorem PortOnly.drawDelay (s : State) : PortOnly s s.drawDelay.2 :=
  ⟨fun _ _ _ => Eq.refl _, Eq.refl _, Eq.refl _, Eq.refl _, Eq.refl _, Eq.refl _, Eq.refl _, Eq.refl _, Eq.refl _,
    Eq.refl _, Eq.refl _⟩

theorem PortOnly.withPort (s : State) (x : PortBusy) : PortOnly s (s.withPort x) :=
  ⟨fun _ _ _ => Eq.refl _, Eq.refl _, Eq.refl _, Eq.refl _, Eq.refl _, Eq.refl _, Eq.refl _, Eq.refl _, Eq.refl _,
    Eq.refl _, Eq.refl _⟩

theorem PortOnly.withPdataUndefined (s : State) (b : Bool) : PortOnly s (s.withPdataUndefined b) :=
  ⟨fun _ _ _ => Eq.refl _, Eq.refl _, Eq.refl _, Eq.refl _, Eq.refl _, Eq.refl _, Eq.refl _, Eq.refl _, Eq.refl _,
    Eq.refl _, Eq.refl _⟩

theorem PortOnly.withDout (s : State) (b : Byte) : PortOnly s (s.withDout b) :=
  ⟨fun _ _ _ => Eq.refl _, Eq.refl _, Eq.refl _, Eq.refl _, Eq.refl _, Eq.refl _, Eq.refl _, Eq.refl _, Eq.refl _,
    Eq.refl _, Eq.refl _⟩

theorem PortOnly.withDraws (s : State) (k : Nat) : PortOnly s (s.withDraws k) :=
  ⟨fun _ _ _ => Eq.refl _, Eq.refl _, Eq.refl _, Eq.refl _, Eq.refl _, Eq.refl _, Eq.refl _, Eq.refl _, Eq.refl _,
    Eq.refl _, Eq.refl _⟩

theorem PortOnly.putDuty (s : State) (ch : BitVec 4) (v : Byte) : PortOnly s (s.putDuty ch v) :=
  ⟨fun _ _ _ => Eq.refl _, Eq.refl _, Eq.refl _, Eq.refl _, Eq.refl _, Eq.refl _, Eq.refl _, Eq.refl _, Eq.refl _,
    Eq.refl _, Eq.refl _⟩

theorem PortOnly.putPcon (s : State) (v : Byte) : PortOnly s (s.putReg .pcon v) :=
  ⟨fun q h _ => State.putReg_reg_other s .pcon q v h, Eq.refl _, Eq.refl _, Eq.refl _, Eq.refl _, Eq.refl _,
    Eq.refl _, Eq.refl _, Eq.refl _, Eq.refl _, Eq.refl _⟩

theorem PortOnly.putPdata (s : State) (v : Byte) : PortOnly s (s.putPdata v) :=
  ⟨fun q _ h => State.putReg_reg_other s .pdata q v h, Eq.refl _, Eq.refl _, Eq.refl _, Eq.refl _, Eq.refl _,
    Eq.refl _, Eq.refl _, Eq.refl _, Eq.refl _, Eq.refl _⟩

theorem PortOnly.endPort (s : State) : PortOnly s s.endPort :=
  (PortOnly.putPcon s _).trans' (PortOnly.withPort _ .idle)

theorem PortOnly.endSeveral (s : State) : PortOnly s s.endSeveral :=
  (PortOnly.endPort s).trans' (PortOnly.withPdataUndefined _ true)

theorem PortOnly.readPdata (s : State) : PortOnly s s.readPdata.2 := by
  unfold State.readPdata
  split
  · exact PortOnly.draw s
  · exact PortOnly.rfl s

theorem PortOnly.scrambleDuty (s : State) (ch : BitVec 4) : PortOnly s (s.scrambleDuty ch) :=
  (PortOnly.draw s).trans' (PortOnly.putDuty _ ch _)

theorem PortOnly.scrambleDout (s : State) : PortOnly s s.scrambleDout :=
  (PortOnly.draw s).trans' (PortOnly.withDout _ _)

theorem PortOnly.scrambleBusyDuty (s : State) : PortOnly s s.scrambleBusyDuty := by
  unfold State.scrambleBusyDuty
  split
  · exact PortOnly.scrambleDuty s _
  all_goals exact PortOnly.rfl s

theorem PortOnly.startDir (s : State) : PortOnly s (startDir s) :=
  ((PortOnly.draw s).trans' (PortOnly.putPdata _ _)).trans' (PortOnly.endPort _)

theorem PortOnly.startDow (s : State) : PortOnly s (startDow s) :=
  ((PortOnly.readPdata s).trans' (PortOnly.withDout _ _)).trans' (PortOnly.endPort _)

theorem PortOnly.startAdc (ch : BitVec 4) (s : State) : PortOnly s (startAdc ch s) :=
  (PortOnly.drawDelay s).trans' (PortOnly.withPort _ _)

theorem PortOnly.startPwm (ch : BitVec 4) (d : Byte) (s : State) : PortOnly s (startPwm ch d s) := by
  unfold Sys2Proof.Machine.startPwm
  split
  · exact ((PortOnly.drawDelay s).trans' (PortOnly.putDuty _ _ _)).trans' (PortOnly.endPort _)
  · exact (PortOnly.drawDelay s).trans' (PortOnly.withPort _ _)

theorem PortOnly.startClean (op : PortOp) (w : Byte) (s : State) : PortOnly s (startClean op w s) := by
  cases op
  · exact PortOnly.startDir s
  · exact PortOnly.startDow s
  · exact (PortOnly.readPdata s).trans' (PortOnly.startPwm _ _ _)
  · exact PortOnly.startAdc _ s

theorem PortOnly.startSkewed (op : PortOp) (old w : Byte) (s : State) : PortOnly s (startSkewed op old w s) := by
  have h := PortOnly.withPdataUndefined s true
  cases op
  · exact h.trans' (PortOnly.endPort _)
  · exact (h.trans' (PortOnly.scrambleDout _)).trans' (PortOnly.endPort _)
  · exact (((h.trans' (PortOnly.scrambleDuty _ _)).trans' (PortOnly.scrambleDuty _ _)).trans' (PortOnly.draw _)).trans'
      (PortOnly.startPwm _ _ _)
  · exact h.trans' (PortOnly.startAdc _ _)

theorem PortOnly.startSeveral (old w : Byte) (s : State) : PortOnly s (startSeveral old w s) := by
  have h := PortOnly.withPdataUndefined s true
  have hv : PortOnly s (if bitOf w 6 then (s.withPdataUndefined true).scrambleDout else s.withPdataUndefined true) := by
    split
    · exact h.trans' (PortOnly.scrambleDout _)
    · exact h
  unfold Sys2Proof.Machine.startSeveral
  simp only []
  generalize (if bitOf w 6 then (s.withPdataUndefined true).scrambleDout else s.withPdataUndefined true) = v at hv ⊢
  have hx : PortOnly s (if bitOf w 5 then
      ((v.scrambleBusyDuty).scrambleDuty (channelOf old)).scrambleDuty (channelOf w) else v) := by
    split
    · exact ((hv.trans' (PortOnly.scrambleBusyDuty _)).trans' (PortOnly.scrambleDuty _ _)).trans'
        (PortOnly.scrambleDuty _ _)
    · exact hv
  generalize (if bitOf w 5 then
      ((v.scrambleBusyDuty).scrambleDuty (channelOf old)).scrambleDuty (channelOf w) else v) = x at hx ⊢
  split
  · exact hx.trans' (PortOnly.endPort _)
  · split
    · exact (hx.trans' (PortOnly.drawDelay _)).trans' (PortOnly.endPort _)
    · exact (hx.trans' (PortOnly.drawDelay _)).trans' (PortOnly.withPort _ _)

/-- A PCON write is refused exactly when it cancels (R251). -/
theorem writePcon_refused_iff (w : Byte) (s : State) :
    (∃ e, writePcon w s = .error e) ↔ controlOf (s.regs.pcon &&& ~~~w) ≠ 0#8 := by
  unfold writePcon
  simp only []
  by_cases h : controlOf (s.regs.pcon &&& ~~~w) = 0#8
  · simp only [h, ne_eq, not_true_eq_false, if_false, iff_false, not_exists]
    intro e
    split
    · simp
    · split
      · split <;> simp
      · simp
  · simp [h]

theorem writePcon_error (w : Byte) (s : State) (h : controlOf (s.regs.pcon &&& ~~~w) ≠ 0#8) :
    writePcon w s = .error .portCancel := by
  simp [writePcon, h]

/-- All a PCON write can change (R251). -/
theorem writePcon_portOnly (w : Byte) (s t : State) (h : writePcon w s = .ok t) : PortOnly s t := by
  have h1 := PortOnly.putPcon s w
  unfold writePcon at h
  simp only [] at h
  split at h
  · cases h
  · split at h
    · cases h; exact h1
    · split at h
      · split at h
        · cases h; exact h1.trans' (PortOnly.startClean _ _ _)
        · cases h; exact h1.trans' (PortOnly.startSkewed _ _ _ _)
      · cases h; exact h1.trans' (PortOnly.startSeveral _ _ _)

theorem adcComplete_portOnly (v : Byte) (s : State) : PortOnly s (adcComplete v s) := by
  unfold adcComplete
  split
  · exact (PortOnly.putPdata s v).trans' (PortOnly.endPort _)
  · exact PortOnly.endSeveral s
  all_goals exact PortOnly.rfl s

theorem pwmComplete_portOnly (s : State) : PortOnly s (pwmComplete s) := by
  unfold pwmComplete
  split
  · exact (PortOnly.putDuty s _ _).trans' (PortOnly.endPort _)
  · exact PortOnly.endSeveral s
  all_goals exact PortOnly.rfl s

/-- All that the passing of a boundary can change for the ports. -/
theorem portBoundary_portOnly (s : State) : PortOnly s (portBoundary s) := by
  unfold portBoundary
  split
  · exact PortOnly.rfl s
  · exact (PortOnly.draw s).trans' (adcComplete_portOnly _ _)
  · exact PortOnly.withPort s _
  · exact pwmComplete_portOnly s
  · exact PortOnly.withPort s _
  · exact PortOnly.endSeveral s
  · exact PortOnly.withPort s _

end Sys2Proof.Machine
end

