-- ==== Sys2Proof/Laws/Operands.lean ====
section
/-! SUPPORT. One lemma per operand form: what a read shows and leaves, what a write does; and the checks and the
exceptions, each inverted once. -/

namespace Sys2Proof.Machine

/-! ### Reads -/

/-- A read changes the count of draws at most. -/
theorem State.readReg_state (s : State) (r : Reg) : ∃ k, (s.readReg r).2 = s.withDraws k := by
  have hu : ∀ q, ∃ k, (s.readUnused q).2 = s.withDraws k := by
    intro q
    unfold State.readUnused
    split
    · exact ⟨s.draws, rfl⟩
    · exact ⟨s.draws + 1, rfl⟩
  have hp : ∃ k, s.readPdata.2 = s.withDraws k := by
    unfold State.readPdata
    split
    · exact ⟨s.draws + 1, rfl⟩
    · exact ⟨s.draws, rfl⟩
  cases r
  case status => exact hu _
  case ecscr => exact hu _
  case pdata => exact hp
  all_goals exact ⟨s.draws, rfl⟩

theorem mergeBits_shows (m b v : Byte) : mergeBits m b v &&& ~~~m = b &&& ~~~m := by
  apply BitVec.eq_of_getLsbD_eq
  intro i hi
  simp only [mergeBits, BitVec.getLsbD_and, BitVec.getLsbD_or, BitVec.getLsbD_not, hi]
  cases m.getLsbD i <;> simp

/-- A read shows the stored byte but for the open bits (R28, R29, R253). -/
theorem State.readReg_shows (s : State) (r : Reg) : ReadShows s r (s.readReg r).1 := by
  have hu : ∀ q, q = .status ∨ q = .ecscr → ReadShows s q (s.readUnused q).1 := by
    rintro q (rfl | rfl) <;> unfold ReadShows State.readUnused openBits <;>
      cases s.config.unusedRead <;> first | rfl | exact mergeBits_shows _ _ _
  cases r
  case status => exact hu _ (.inl rfl)
  case ecscr => exact hu _ (.inr rfl)
  case pdata =>
    unfold ReadShows openBits State.readReg State.readPdata
    cases s.pdataUndefined <;> simp [State.reg, Regs.get]
  all_goals rfl

/-- Reading both operands changes the count of draws at most, and shows both. -/
theorem State.readTwo_spec (s : State) (l r : Reg) :
    (∃ k, (s.readTwo l r).2 = s.withDraws k) ∧ ReadShows s l (s.readTwo l r).1.1 ∧
      ReadShows s r (s.readTwo l r).1.2 ∧ (l = r → (s.readTwo l r).1.1 = (s.readTwo l r).1.2) := by
  unfold State.readTwo
  split
  · rename_i h
    subst h
    exact ⟨s.readReg_state l, s.readReg_shows l, s.readReg_shows l, fun _ => rfl⟩
  · rename_i h
    obtain ⟨k, hk⟩ := s.readReg_state l
    obtain ⟨j, hj⟩ := (s.withDraws k).readReg_state r
    refine ⟨⟨j, ?_⟩, s.readReg_shows l, ?_, fun e => absurd e h⟩
    · simp only [hk, hj]; rfl
    · simp only [hk]
      exact (s.withDraws k).readReg_shows r

/-! ### Writes -/

/-- A register write is refused exactly when it cancels a port operation (R251). -/
theorem State.writeReg_cancels (s : State) (r : Reg) (v : Byte) (h : cancels s r v = true) :
    s.writeReg r v = .error .portCancel := by
  simp only [cancels, Bool.and_eq_true, beq_iff_eq, bne_iff_ne] at h
  obtain ⟨rfl, h⟩ := h
  exact writePcon_error v s h

/-- A register write that cancels nothing: the register, and what belongs to it, and nothing else. -/
theorem State.writeReg_ok (s : State) (r : Reg) (v : Byte) (h : cancels s r v = false) :
    ∃ t, s.writeReg r v = .ok t ∧ Wrote s t r v ∧ Frame (touched r) s t ∧ t.pc = s.pc := by
  by_cases hp : r = .pcon
  · subst hp
    have hc : controlOf (s.regs.pcon &&& ~~~v) = 0#8 := by simpa [cancels] using h
    cases hw : writePcon v s with
    | error e =>
      exact absurd hc ((writePcon_refused_iff v s).1 ⟨e, hw⟩)
    | ok t =>
      have po := writePcon_portOnly v s t hw
      refine ⟨t, hw, ⟨fun e => absurd rfl e, ?_, ?_, fun _ => ⟨s.draws, t, hw, rfl, rfl, rfl, rfl, rfl, rfl⟩⟩, ?_, po.pc⟩
      · intro e; cases e
      · intro e; cases e
      · refine ⟨?_, ?_, po.sp, po.irq, po.policing, po.hostRead, po.arrivals, po.timerWait, po.config, ?_, ?_,
          fun _ => po.sci⟩
        · intro q hq
          simp only [touched, if_pos, List.mem_cons, List.not_mem_nil, or_false, not_or] at hq
          exact po.regs q hq.1 hq.2
        · intro a; simp only [State.byteAt, po.mem]
        · intro hq; simp [touched] at hq
        · intro hq; simp [touched] at hq
  · have other : ∀ q, q ∉ touched r → q ≠ r := by
      intro q hq; simpa [touched, hp] using hq
    by_cases hd : r = .pdata
    · subst hd
      refine ⟨s.putPdata v, rfl, ⟨fun _ => State.putReg_reg_same s .pdata v, fun _ => rfl, (fun e => by cases e),
        (fun e => by cases e)⟩, ⟨?_, fun _ => rfl, rfl, rfl, rfl, rfl, rfl, rfl, rfl, fun _ => ⟨rfl, rfl, rfl⟩, ?_,
        fun _ => rfl⟩, rfl⟩
      · intro q hq
        exact State.putReg_reg_other s _ q v (other q hq)
      · intro _ hq; simp [touched] at hq
    · by_cases he : r = .ecscr
      · subst he
        refine ⟨(s.putReg .ecscr v).withSci (s.sci || sciRaised s.regs.ecscr v), rfl, ⟨fun _ => State.putReg_reg_same s .ecscr v,
          (fun e => by cases e), fun _ => rfl, (fun e => by cases e)⟩, ⟨?_, fun _ => rfl, rfl, rfl, rfl, rfl, rfl, rfl, rfl,
          fun _ => ⟨rfl, rfl, rfl⟩, fun _ _ => rfl, ?_⟩, rfl⟩
        · intro q hq
          exact State.putReg_reg_other s _ q v (other q hq)
        · intro hq; simp [touched] at hq
      · have hw : s.writeReg r v = .ok (s.putReg r v) := by
          cases r <;> first | rfl | contradiction
        exact ⟨s.putReg r v, hw, ⟨fun _ => State.putReg_reg_same s r v, fun e => absurd e hd, fun e => absurd e he, fun e => absurd e hp⟩,
          ⟨fun q hq => State.putReg_reg_other s _ q v (other q hq), fun _ => rfl, rfl, rfl, rfl, rfl, rfl, rfl, rfl,
          fun _ => ⟨rfl, rfl, rfl⟩, fun _ _ => rfl, fun _ => rfl⟩, rfl⟩

/-! ### Checks and exceptions -/

@[simp] theorem guarded_pass (s : State) (k : Result) : guarded .pass s k = k := rfl

@[simp] theorem guarded_nmi (c : NmiCause) (i : Addr) (s : State) (k : Result) :
    guarded (.nmi c i) s k = raiseNmi c i s := rfl

@[simp] theorem guarded_refuse (r : Refusal) (s : State) (k : Result) : guarded (.refuse r) s k = .refused r := rfl

/-- A guarded step that answers a next state either passed its checks or entered the NMI. -/
theorem guarded_next (x : Check) (s t : State) (k : Result) (h : guarded x s k = .next t) :
    (x = .pass ∧ k = .next t) ∨ (∃ c i, x = .nmi c i ∧ raiseNmi c i s = .next t) := by
  cases x with
  | pass => exact .inl ⟨rfl, h⟩
  | nmi c i => exact .inr ⟨c, i, rfl, h⟩
  | refuse r => simp at h

/-- An NMI that answers a next state was entered, and had room on the stack (R233). -/
theorem raiseNmi_next (c : NmiCause) (i : Addr) (s t : State) (h : raiseNmi c i s = .next t) :
    s.config.nmiMode = .enter ∧ pushRoom s = true ∧
      t = s.drawWord.2.enterTrap s.config.vecNmi s.drawWord.1 := by
  unfold raiseNmi at h
  split at h
  · cases h
  · rename_i hm
    unfold nmiEntry at h
    split at h
    · rename_i hr
      cases h
      exact ⟨hm, hr, rfl⟩
    · cases h

/-- A push stores a word below the stack, in data memory, and changes nothing but memory and `sp`. -/
theorem State.pushWord_pushed (s : State) (v : Addr) : Pushed s (s.pushWord v) v := by
  have hne : s.sp - 1#16 ≠ s.sp - 2#16 := by
    intro h; bv_omega
  refine ⟨by simp [State.pushWord], ?_, ?_, ?_, ?_⟩
  · intro hz
    unfold State.pushWord
    rw [State.byteAt_writeByte_other _ _ _ _ hne.symm, State.byteAt_writeByte _ _ _ _ hz, if_pos rfl]
  · intro hz
    unfold State.pushWord
    rw [State.byteAt_writeByte _ _ _ _ hz, if_pos rfl]
  · intro a h2 h1
    unfold State.pushWord
    rw [State.byteAt_writeByte_other _ _ _ _ h1, State.byteAt_writeByte_other _ _ _ _ h2]
    rfl
  · intro a ha
    unfold State.pushWord
    have step : ∀ (u : State) (b : Addr) (w : Byte), (u.writeByte b w).byteAt a = u.byteAt a := by
      intro u b w
      cases hz : inSmbZone b with
      | true => rw [State.writeByte_smb u b w hz]
      | false =>
        have : a ≠ b := by rintro rfl; rw [ha] at hz; cases hz
        exact State.byteAt_writeByte_other u b a w this
    rw [step, step]
    rfl

theorem State.pushWord_same (s : State) (v : Addr) : SameMachine s (s.pushWord v) := by
  constructor <;> simp [State.pushWord]

@[simp] theorem State.pushWord_pc (s : State) (v : Addr) : (s.pushWord v).pc = s.pc := by simp [State.pushWord]

@[simp] theorem State.pushWord_irq (s : State) (v : Addr) : (s.pushWord v).irq = s.irq := by simp [State.pushWord]

@[simp] theorem State.pushWord_draws (s : State) (v : Addr) : (s.pushWord v).draws = s.draws := by
  simp [State.pushWord]

/-- Taking an exception: the saved address pushed, `pc` at the entry, nothing else (R228, R233). -/
theorem State.enterTrap_spec (s : State) (vec saved : Addr) :
    (s.enterTrap vec saved).pc = vec ∧ Pushed s (s.enterTrap vec saved) saved ∧
      SameMachine s (s.enterTrap vec saved) ∧ (s.enterTrap vec saved).irq = s.irq := by
  have p := s.pushWord_pushed saved
  have m := s.pushWord_same saved
  exact ⟨rfl, ⟨p.sp, p.high, p.low, p.others, p.zone⟩,
    ⟨m.regs, m.port, m.pdataUndefined, m.pwmDuty, m.dout, m.policing, m.sci, m.hostRead, m.arrivals, m.timerWait,
      m.config⟩, s.pushWord_irq saved⟩

/-- Reading the word on top of the stack changes the count of draws at most. -/
theorem State.topWord_state (s : State) : ∃ k, s.topWord.2 = s.withDraws k := by
  have hr : ∀ (u : State) a, ∃ k, (u.readByte a).2 = u.withDraws k := by
    intro u a
    rcases State.readByte_cases u a with ⟨-, e⟩ | ⟨-, e⟩ <;> rw [e]
    · exact ⟨u.draws + 1, rfl⟩
    · exact ⟨u.draws, rfl⟩
  obtain ⟨k, hk⟩ := hr s s.sp
  obtain ⟨j, hj⟩ := hr (s.withDraws k) (s.sp + 1#16)
  refine ⟨j, ?_⟩
  unfold State.topWord
  simp only [hk, hj]
  rfl

/-- Outside the SMB zone the word on top of the stack is the two bytes there, the high one first. -/
theorem State.topWord_value (s : State) (h : inSmbZone s.sp = false) (h' : inSmbZone (s.sp + 1#16) = false) :
    s.topWord = (joinBytes (s.byteAt s.sp) (s.byteAt (s.sp + 1#16)), s) := by
  simp [State.topWord, State.readByte, h, h']

/-- Each byte of the word on top of the stack that lies outside the SMB zone is the byte there. -/
theorem State.topWord_bytes (s : State) :
    ∃ hi lo : Byte, s.topWord.1 = joinBytes hi lo ∧ (inSmbZone s.sp = false → hi = s.byteAt s.sp) ∧
      (inSmbZone (s.sp + 1#16) = false → lo = s.byteAt (s.sp + 1#16)) := by
  refine ⟨_, _, rfl, fun h => by simp [State.readByte, h], fun h => ?_⟩
  simp only [State.readByte, h, Bool.false_eq_true, if_false]
  split <;> rfl

/-! ### Flags -/

theorem bitOf_withBit_same (b : Byte) (i : Nat) (hi : i < 8) (v : Bool) : bitOf (withBit b i v) i = v := by
  unfold bitOf withBit
  interval_cases i <;> cases v <;> simp

theorem bitOf_withBit_other (b : Byte) (i j : Nat) (hj : j < 8) (hi : i < 8) (h : i ≠ j) (v : Bool) :
    bitOf (withBit b i v) j = bitOf b j := by
  unfold bitOf withBit
  interval_cases i <;> interval_cases j <;> first
    | contradiction
    | (cases v <;> simp)

/-- Writing both flags: they read back, every other bit of STATUS and everything else is the same. -/
theorem State.setFlags_spec (s : State) (c z : Bool) :
    (s.setFlags c z).carry = c ∧ (s.setFlags c z).zero = z ∧ StatusKept s (s.setFlags c z) ∧
      s.setFlags c z = s.putReg .status (s.setFlags c z).regs.status := by
  refine ⟨?_, ?_, ?_, ?_⟩
  · show bitOf (withBit (withBit s.regs.status 4 c) 3 z) 4 = c
    rw [bitOf_withBit_other _ _ _ (by omega) (by omega) (by omega), bitOf_withBit_same _ _ (by omega)]
  · show bitOf (withBit (withBit s.regs.status 4 c) 3 z) 3 = z
    exact bitOf_withBit_same _ _ (by omega) z
  · show withBit (withBit s.regs.status 4 c) 3 z &&& 0xE7#8 = s.regs.status &&& 0xE7#8
    generalize s.regs.status = b
    revert b c z
    decide
  · rfl

end Sys2Proof.Machine
end

