-- ==== Sys2Proof/Laws/Families.lean ====
section
/-! SUPPORT. What each operation shared by several instructions can do, said once: the arithmetic and logic write, the
read-modify-write, the rotate, the half and the whole pair, the compare, the branch; and the checks before a memory access,
a stack operation and a transfer. -/

namespace Sys2Proof.Machine

/-! ### Writes after reads -/

/-- With no port operation in progress no write cancels one (R251). -/
theorem cancels_idle (s : State) (l : Reg) (v : Byte) (h : l = .pcon → controlOf (s.reg .pcon) = 0x00#8) :
    cancels s l v = false := by
  have key : ∀ p v : Byte, controlOf p = 0x00#8 → controlOf (p &&& ~~~v) = 0x00#8 := by
    intro p v h
    unfold controlOf at h ⊢
    rw [BitVec.and_assoc, BitVec.and_comm (~~~v), ← BitVec.and_assoc, h]
    simp
  unfold cancels
  by_cases hl : l = .pcon
  · have := h hl
    simp only [State.reg_pcon] at this
    simp [hl, key _ v this]
  · simp [hl]

theorem Wrote.of_draws {s t : State} {k : Nat} {l : Reg} {v : Byte} (h : Wrote (s.withDraws k) t l v) :
    Wrote s t l v :=
  ⟨h.stored, h.defined, h.sci, h.pcon⟩

theorem Frame.of_draws {s t : State} {k : Nat} {rs : List Reg} (h : Frame rs (s.withDraws k) t) : Frame rs s t :=
  ⟨h.regs, h.bytes, h.sp, h.irq, h.policing, h.hostRead, h.arrivals, h.timerWait, h.config, h.ports,
    h.pdataUndefined, h.sci⟩

/-- Replacing STATUS alone is a change of STATUS alone. -/
theorem Frame.putStatus {rs : List Reg} {s t : State} (h : Frame rs s t) (v : Byte) :
    Frame (.status :: rs) s (t.putReg .status v) := by
  have hne : ∀ q, q ∉ Reg.status :: rs → q ≠ .status ∧ q ∉ rs := by simp
  refine ⟨fun q hq => ?_, h.bytes, h.sp, h.irq, h.policing, h.hostRead, h.arrivals, h.timerWait, h.config,
    fun hq => h.ports (hne _ hq).2, fun hq hp => h.pdataUndefined (hne _ hq).2 (hne _ hp).2,
    fun hq => h.sci (hne _ hq).2⟩
  rw [State.putReg_reg_other _ _ _ _ (hne q hq).1]
  exact h.regs q (hne q hq).2

theorem Frame.refl (s : State) : Frame [] s s :=
  ⟨fun _ _ => rfl, fun _ => rfl, rfl, rfl, rfl, rfl, rfl, rfl, rfl, fun _ => ⟨rfl, rfl, rfl⟩, fun _ _ => rfl,
    fun _ => rfl⟩

/-- A frame with more registers listed. -/
theorem Frame.mono {rs rs' : List Reg} {s t : State} (h : Frame rs s t) (hp : ∀ q, q ∉ rs' → q ∉ rs) :
    Frame rs' s t :=
  ⟨fun q hq => h.regs q (hp q hq), h.bytes, h.sp, h.irq, h.policing, h.hostRead, h.arrivals, h.timerWait, h.config,
    fun hq => h.ports (hp _ hq), fun a b => h.pdataUndefined (hp _ a) (hp _ b), fun a => h.sci (hp _ a)⟩

/-- Replacing one general register is a change of that register alone. -/
theorem Frame.putReg {rs : List Reg} {s t : State} (h : Frame rs s t) (r : Reg) (v : Byte) :
    Frame (r :: rs) s (t.putReg r v) := by
  have hne : ∀ q, q ∉ r :: rs → q ≠ r ∧ q ∉ rs := by simp
  refine ⟨fun q hq => ?_, h.bytes, h.sp, h.irq, h.policing, h.hostRead, h.arrivals, h.timerWait, h.config,
    fun hq => h.ports (hne _ hq).2, fun hq hp => h.pdataUndefined (hne _ hq).2 (hne _ hp).2,
    fun hq => h.sci (hne _ hq).2⟩
  rw [State.putReg_reg_other _ _ _ _ (hne q hq).1]
  exact h.regs q (hne q hq).2

/-- A register write after reads, and nothing else. -/
theorem settle_write (s : State) (k : Nat) (l : Reg) (v : Byte) :
    PlainWrite s l v (settle ((s.withDraws k).writeReg l v)) := by
  unfold PlainWrite
  split
  · rename_i h
    rw [State.writeReg_cancels (s.withDraws k) l v h]
    rfl
  · rename_i h
    obtain ⟨t, ht, hw, hf, hpc⟩ := (s.withDraws k).writeReg_ok l v (by
      show cancels s l v = false
      simpa using h)
    rw [ht]
    exact ⟨t, rfl, hw.of_draws, hf.of_draws, hpc⟩

/-- A register write after reads, then a change of the flags, and nothing else. -/
theorem flagged_write (s : State) (k : Nat) (l : Reg) (v : Byte) (hl : l ≠ .status) (c z : Bool)
    (g : State → State) (hg : ∀ t, (g t).carry = c ∧ (t.zero = s.zero → (g t).zero = z) ∧ StatusKept t (g t) ∧
      g t = t.putReg .status (g t).regs.status) :
    FlaggedWrite s l v c z (match (s.withDraws k).writeReg l v with
      | .error e => .refused e
      | .ok t => .next (g t)) := by
  unfold FlaggedWrite
  split
  · rename_i h
    rw [State.writeReg_cancels (s.withDraws k) l v h]
  · rename_i h
    obtain ⟨t, ht, hw, hf, hpc⟩ := (s.withDraws k).writeReg_ok l v (by
      show cancels s l v = false
      simpa using h)
    rw [ht]
    have hw := hw.of_draws
    have hf := hf.of_draws
    have hst : t.reg .status = s.reg .status := hf.regs _ (by
      unfold touched; split <;> simp [Ne.symm hl])
    obtain ⟨h1, h2, h3, h4⟩ := hg t
    have reg : ∀ q, q ≠ .status → (g t).reg q = t.reg q := by
      intro q hq; rw [h4, State.putReg_reg_other _ _ _ _ hq]
    have fr := hf.putStatus (g t).regs.status
    rw [← h4] at fr
    refine ⟨g t, rfl, ?_, h1, h2 (by unfold State.zero; rw [← State.reg_status, hst, State.reg_status]), ?_, fr, ?_⟩
    · refine ⟨fun hp => (reg l hl).trans (hw.stored hp), fun e => ?_, fun e => ?_, fun e => ?_⟩
      · rw [h4]; exact hw.defined e
      · rw [h4]; exact hw.sci e
      · obtain ⟨k', u, hu, a, b, c', d, e', f⟩ := hw.pcon e
        refine ⟨k', u, hu, (reg _ (by decide)).trans a, (reg _ (by decide)).trans b, ?_, ?_, ?_, ?_⟩ <;> rw [h4] <;>
          assumption
    · unfold StatusKept at h3 ⊢; rw [h3, hst]
    · rw [h4]; exact hpc

/-- A read of a register with no open bits shows its stored byte. -/
theorem ReadShows.stored {s : State} {r : Reg} {v : Byte} (h : ReadShows s r v) (hs : r ≠ .status) (hp : r ≠ .pdata)
    (he : r ≠ .ecscr) : v = s.reg r := by
  have all : ∀ x : Byte, x &&& 0xFF#8 = x := by decide
  unfold ReadShows openBits at h
  cases r <;> first
    | contradiction
    | simpa [all] using h

/-! ### The meanings over the shared operations -/

theorem exec_add (l r : Reg) (s : State) : exec (.add l r) s = execFlagged l r (fun a b => addOut a b false) s := rfl
theorem exec_addc (l r : Reg) (s : State) : exec (.addc l r) s = execFlagged l r (fun a b => addOut a b s.carry) s := rfl
theorem exec_sub (l r : Reg) (s : State) : exec (.sub l r) s = execFlagged l r (fun a b => subOut a b false) s := rfl
theorem exec_subc (l r : Reg) (s : State) :
    exec (.subc l r) s = execFlagged l r (fun a b => subOut a b (borrowIn s.config.subcBorrowIn s.carry)) s := rfl
theorem exec_and (l r : Reg) (s : State) : exec (.and l r) s = execFlagged l r (fun a b => logicOut (a &&& b)) s := rfl
theorem exec_or (l r : Reg) (s : State) : exec (.or l r) s = execFlagged l r (fun a b => logicOut (a ||| b)) s := rfl
theorem exec_xor (l r : Reg) (s : State) : exec (.xor l r) s = execFlagged l r (fun a b => logicOut (a ^^^ b)) s := rfl
theorem exec_shll (r : Reg) (n : BitVec 3) (s : State) :
    exec (.shll r n) s = execModify r (fun v => shiftLeftLogical v n) s := rfl
theorem exec_shlr (r : Reg) (n : BitVec 3) (s : State) :
    exec (.shlr r n) s = execModify r (fun v => shiftRightLogical v n) s := rfl
theorem exec_shal (r : Reg) (n : BitVec 3) (s : State) :
    exec (.shal r n) s = execModify r (fun v => shiftLeftArith v n) s := rfl
theorem exec_shar (r : Reg) (n : BitVec 3) (s : State) :
    exec (.shar r n) s = execModify r (fun v => shiftRightArith v n) s := rfl
theorem exec_set (r : Reg) (n : BitVec 3) (s : State) : exec (.set r n) s = execModify r (fun v => v ||| bitMask n) s := rfl
theorem exec_clear (r : Reg) (n : BitVec 3) (s : State) :
    exec (.clear r n) s = execModify r (fun v => v &&& ~~~(bitMask n)) s := rfl
theorem exec_rotl (r : Reg) (n : BitVec 3) (s : State) : exec (.rotl r n) s = execRotate r (fun x => ringLeft x n) s := rfl
theorem exec_rotr (r : Reg) (n : BitVec 3) (s : State) : exec (.rotr r n) s = execRotate r (fun x => ringRight x n) s := rfl
theorem exec_move (l r : Reg) (s : State) : exec (.move l r) s = execMove l r s := rfl

/-! ### Shared meanings -/

theorem execFlagged_status (r : Reg) (f : Byte → Byte → AluOut) (s : State) :
    execFlagged .status r f s = .refused .statusDestination := rfl

/-- Format f arithmetic and logic. -/
theorem execFlagged_spec (l r : Reg) (f : Byte → Byte → AluOut) (s : State) (hl : l ≠ .status) :
    ∃ a b : Byte, ReadShows s l a ∧ ReadShows s r b ∧ (l = r → a = b) ∧
      FlaggedWrite s l (f a b).value (f a b).carry (f a b).zero (execFlagged l r f s) := by
  obtain ⟨⟨k, hk⟩, ha, hb, hab⟩ := s.readTwo_spec l r
  refine ⟨_, _, ha, hb, hab, ?_⟩
  unfold execFlagged
  rw [if_neg hl]
  simp only [hk]
  refine flagged_write s k l _ hl _ _ (fun t => t.setFlags _ _) (fun t => ?_)
  obtain ⟨h1, h2, h3, h4⟩ := t.setFlags_spec (f (s.readTwo l r).1.1 (s.readTwo l r).1.2).carry
    (f (s.readTwo l r).1.1 (s.readTwo l r).1.2).zero
  exact ⟨h1, fun _ => h2, h3, h4⟩

/-- Format h shifts, SET and CLEAR. -/
theorem execModify_spec (r : Reg) (f : Byte → Byte) (s : State) :
    ∃ v, ReadShows s r v ∧ PlainWrite s r (f v) (execModify r f s) := by
  obtain ⟨k, hk⟩ := s.readReg_state r
  refine ⟨_, s.readReg_shows r, ?_⟩
  unfold execModify
  rw [hk]
  exact settle_write s k r _

theorem execMove_spec (l r : Reg) (s : State) : ∃ v, ReadShows s r v ∧ PlainWrite s l v (execMove l r s) := by
  obtain ⟨k, hk⟩ := s.readReg_state r
  refine ⟨_, s.readReg_shows r, ?_⟩
  unfold execMove
  rw [hk]
  exact settle_write s k l _

theorem State.setCarry_spec (s : State) (c : Bool) :
    (s.setCarry c).carry = c ∧ (s.setCarry c).zero = s.zero ∧ StatusKept s (s.setCarry c) ∧
      s.setCarry c = s.putReg .status (s.setCarry c).regs.status := by
  refine ⟨bitOf_withBit_same _ _ (by omega) c, bitOf_withBit_other _ _ _ (by omega) (by omega) (by omega) c, ?_, rfl⟩
  show withBit s.regs.status 4 c &&& 0xE7#8 = s.regs.status &&& 0xE7#8
  generalize s.regs.status = b
  revert b c
  decide

theorem State.setZero_spec (s : State) (z : Bool) :
    (s.setZero z).carry = s.carry ∧ (s.setZero z).zero = z ∧ StatusKept s (s.setZero z) ∧
      s.setZero z = s.putReg .status (s.setZero z).regs.status := by
  refine ⟨bitOf_withBit_other _ _ _ (by omega) (by omega) (by omega) z, bitOf_withBit_same _ _ (by omega) z, ?_, rfl⟩
  show withBit s.regs.status 3 z &&& 0xE7#8 = s.regs.status &&& 0xE7#8
  generalize s.regs.status = b
  revert b z
  decide

theorem execRotate_status (f : BitVec 9 → BitVec 9) (s : State) :
    execRotate .status f s = .refused .statusDestination := rfl

/-- The rotates: the register and C, Z unchanged. -/
theorem execRotate_spec (r : Reg) (f : BitVec 9 → BitVec 9) (s : State) (hr : r ≠ .status) :
    ∃ b, ReadShows s r b ∧ FlaggedWrite s r (ringByte (f (ringOf s.carry b))) (ringCarry (f (ringOf s.carry b))) s.zero
      (execRotate r f s) := by
  obtain ⟨k, hk⟩ := s.readReg_state r
  refine ⟨_, s.readReg_shows r, ?_⟩
  unfold execRotate
  rw [if_neg hr]
  simp only [hk]
  refine flagged_write s k r _ hr _ _ (fun t => t.setCarry _) (fun t => ?_)
  obtain ⟨h1, h2, h3, h4⟩ := t.setCarry_spec (ringCarry (f (ringOf s.carry (s.readReg r).1)))
  exact ⟨h1, fun e => h2.trans e, h3, h4⟩

/-- One half of a pair and both flags. -/
theorem execHalf_spec (r : Reg) (hr : r ≠ .status) (out : AluOut) (s : State) :
    ∃ t, execHalf r out s = .next t ∧ t.reg r = out.value ∧ t.carry = out.carry ∧ t.zero = out.zero ∧
      StatusKept s t ∧ Frame [.status, r] s t ∧ t.pc = s.pc := by
  obtain ⟨h1, h2, h3, h4⟩ := (s.putReg r out.value).setFlags_spec out.carry out.zero
  refine ⟨_, rfl, ?_, h1, h2, ?_, ?_, rfl⟩
  · rw [h4, State.putReg_reg_other _ _ _ _ hr, State.putReg_reg_same]
  · unfold StatusKept at h3 ⊢
    rw [h3, State.putReg_reg_other _ _ _ _ (Ne.symm hr)]
  · rw [h4]
    exact ((Frame.refl s).putReg r out.value).putStatus _

/-- The flags of a compare. -/
theorem execCompare_spec (a imm : Byte) (s : State) :
    ∃ t, execCompare a imm s = .next t ∧ t.carry = decide (a < imm) ∧ t.zero = (a == imm) ∧ StatusKept s t ∧
      Frame [.status] s t ∧ t.pc = s.pc := by
  obtain ⟨h1, h2, h3, h4⟩ := s.setFlags_spec (compareCarry a imm) (compareZero a imm)
  refine ⟨_, rfl, h1, h2, h3, ?_, rfl⟩
  rw [h4]
  exact (Frame.refl s).putStatus _

/-- The halves of a pair are general registers, and distinct. -/
theorem pair_halves (p : Pair) :
    p.lo ≠ p.hi ∧ p.lo ≠ .status ∧ p.hi ≠ .status ∧ p.lo ≠ .pcon ∧ p.hi ≠ .pcon ∧ p.lo ≠ .pdata ∧ p.hi ≠ .pdata ∧
      p.lo ≠ .ecscr ∧ p.hi ≠ .ecscr := by
  cases p <;> decide

theorem joinBytes_toNat (hi lo : Byte) : (joinBytes hi lo).toNat = hi.toNat * 256 + lo.toNat := by
  have h : lo.toNat < 2 ^ 8 := lo.isLt
  have := Nat.shiftLeft_add_eq_or_of_lt h hi.toNat
  unfold joinBytes
  rw [BitVec.toNat_append, ← this, Nat.shiftLeft_eq]

theorem hiByte_toNat (w : Addr) : (hiByte w).toNat = w.toNat / 256 := by
  have := w.isLt
  simp only [hiByte, BitVec.extractLsb'_toNat, Nat.shiftRight_eq_div_pow]
  omega

theorem loByte_toNat (w : Addr) : (loByte w).toNat = w.toNat % 256 := by
  simp only [loByte, BitVec.extractLsb'_toNat, Nat.shiftRight_eq_div_pow]
  omega

@[simp] theorem joinBytes_halves (w : Addr) : joinBytes (hiByte w) (loByte w) = w := by
  apply BitVec.eq_of_toNat_eq
  rw [joinBytes_toNat, hiByte_toNat, loByte_toNat]
  omega

@[simp] theorem hiByte_join (hi lo : Byte) : hiByte (joinBytes hi lo) = hi := by
  apply BitVec.eq_of_toNat_eq
  rw [hiByte_toNat, joinBytes_toNat]
  omega

@[simp] theorem loByte_join (hi lo : Byte) : loByte (joinBytes hi lo) = lo := by
  apply BitVec.eq_of_toNat_eq
  rw [loByte_toNat, joinBytes_toNat]
  omega

@[simp] theorem State.putPair_lo (s : State) (p : Pair) (v : Addr) : (s.putPair p v).reg p.lo = loByte v := by
  simp [State.putPair, (pair_halves p).1]

@[simp] theorem State.putPair_hi (s : State) (p : Pair) (v : Addr) : (s.putPair p v).reg p.hi = hiByte v := by
  simp [State.putPair]

@[simp] theorem State.pair_putPair (s : State) (p : Pair) (v : Addr) : (s.putPair p v).pair p = v := by
  simp [State.pair]

theorem Frame.putPair (s : State) (p : Pair) (v : Addr) : Frame [p.hi, p.lo] s (s.putPair p v) :=
  ((Frame.refl s).putReg p.lo _).putReg p.hi _

/-- A whole pair and both flags. -/
theorem execPair_spec (p : Pair) (v : Addr) (c : Bool) (s : State) :
    ∃ t, execPair p v c s = .next t ∧ t.pair p = v ∧ t.carry = c ∧ t.zero = (v == 0x0000#16) ∧ StatusKept s t ∧
      Frame [.status, p.hi, p.lo] s t ∧ t.pc = s.pc := by
  obtain ⟨h1, h2, h3, h4⟩ := (s.putPair p v).setFlags_spec c (v == 0x0000#16)
  obtain ⟨-, a, b, -⟩ := pair_halves p
  refine ⟨_, rfl, ?_, h1, h2, ?_, ?_, rfl⟩
  · unfold State.pair
    rw [h4, State.putReg_reg_other _ _ _ _ a, State.putReg_reg_other _ _ _ _ b]
    exact s.pair_putPair p v
  · unfold StatusKept at h3 ⊢
    rw [h3, (Frame.putPair s p v).regs .status (by simp [a.symm, b.symm])]
  · rw [h4]
    exact (Frame.putPair s p v).putStatus _

/-! ### Checks -/

theorem State.loadCheck_cases (s : State) (a : Addr) :
    (readable s a = true → s.loadCheck a = .pass) ∧
    (readable s a = false → (s.policing = true → s.loadCheck a = .nmi .invalidData a) ∧
      (s.policing = false → s.loadCheck a = .refuse (.unimplementedAddress a))) := by
  unfold readable State.loadCheck State.openReadCheck State.implemented
  cases s.policing <;> cases s.inRam a <;> cases s.inFlash a <;> simp

theorem State.storeCheck_cases (s : State) (a : Addr) :
    (s.inRam a = true → s.storeCheck a = .pass) ∧
    (s.inRam a = false → (s.policing = true → s.storeCheck a = .nmi .invalidData a) ∧
      (s.policing = false → s.storeCheck a = .refuse (storeRefusal s a))) := by
  unfold storeRefusal State.storeCheck State.openWriteCheck
  cases s.policing <;> cases s.inRam a <;> cases s.inFlash a <;> simp

theorem State.pushCheck_cases (s : State) :
    (pushRoom s = true → s.pushCheck = .pass) ∧
    (pushRoom s = false → s.policing = true → s.pushCheck = .nmi .stack s.sp) ∧
    (pushRoom s = false → s.policing = false → ∃ a, (a = s.sp - 2#16 ∨ a = s.sp - 1#16) ∧ s.inRam a = false ∧
      s.pushCheck = .refuse (storeRefusal s a)) := by
  unfold pushRoom storeRefusal State.pushCheck State.openWriteCheck
  cases s.policing <;> cases h2 : s.inRam (s.sp - 2#16) <;> cases h1 : s.inRam (s.sp - 1#16) <;>
    cases h3 : s.inFlash (s.sp - 2#16) <;> cases h4 : s.inFlash (s.sp - 1#16) <;>
    simp [Check.andThen, h1, h2, h3, h4]

theorem State.popCheck_cases (s : State) :
    (popRoom s = true → s.popCheck = .pass) ∧
    (popRoom s = false → s.policing = true → s.popCheck = .nmi .stack s.sp) ∧
    (popRoom s = false → s.policing = false → ∃ a, (a = s.sp ∨ a = s.sp + 1#16) ∧ readable s a = false ∧
      s.popCheck = .refuse (.unimplementedAddress a)) := by
  unfold popRoom readable State.popCheck State.openReadCheck State.implemented
  cases s.policing <;> cases h2 : s.inRam s.sp <;> cases h1 : s.inRam (s.sp + 1#16) <;>
    cases h3 : s.inFlash s.sp <;> cases h4 : s.inFlash (s.sp + 1#16) <;> simp [Check.andThen, h1, h2, h3, h4]

theorem State.targetCheck_cases (s : State) (t : Addr) :
    (targetOk s t = true → s.targetCheck t = .pass) ∧
    (targetOk s t = false → s.targetCheck t = .nmi .invalidBranch t) := by
  unfold targetOk State.targetCheck
  cases s.policing <;> cases s.inFlash t <;> simp

/-- A relative branch. -/
theorem execBranch_cases (taken : Bool) (off : Byte) (s : State) :
    (taken = false → execBranch taken off s = .next s) ∧
    (taken = true →
      (targetOk s (s.pc + sext16 off) = true → execBranch taken off s = .next (s.withPc (s.pc + sext16 off))) ∧
      (targetOk s (s.pc + sext16 off) = false →
        execBranch taken off s = raiseNmi .invalidBranch (s.pc + sext16 off) s)) := by
  obtain ⟨a, b⟩ := s.targetCheck_cases (s.pc + sext16 off)
  refine ⟨fun h => by simp [execBranch, h], fun h => ⟨fun e => ?_, fun e => ?_⟩⟩
  · simp [execBranch, h, a e]
  · simp [execBranch, h, b e]

end Sys2Proof.Machine
end

