-- ==== Sys2Proof/Laws/Environment.lean ====
section
/-! SUPPORT. What the agents other than the core, and the fetch of an instruction, can do, said once. -/

namespace Sys2Proof.Machine

/-! ### The other agents -/

/-- What no agent but the core changes (R275): the counters, the general registers, memory and the parameters. -/
structure AgentKept (s t : State) : Prop where
  regs : ∀ q, q ∈ [Reg.r0, .r1, .r2, .r3, .r4, .r5, .r6, .r7, .c0, .c1] → t.reg q = s.reg q
  mem : t.mem = s.mem
  config : t.config = s.config

theorem AgentKept.rfl (s : State) : AgentKept s s := ⟨fun _ _ => Eq.refl _, Eq.refl _, Eq.refl _⟩

theorem AgentKept.trans' {s t u : State} (h : AgentKept s t) (k : AgentKept t u) : AgentKept s u :=
  ⟨fun q hq => (k.regs q hq).trans (h.regs q hq), k.mem.trans h.mem, k.config.trans h.config⟩

/-- `pc`, `sp` and STATUS, which only a device reset changes between steps. -/
structure CountersKept (s t : State) : Prop where
  pc : t.pc = s.pc
  sp : t.sp = s.sp
  status : t.reg .status = s.reg .status

theorem CountersKept.rfl (s : State) : CountersKept s s := ⟨Eq.refl _, Eq.refl _, Eq.refl _⟩

theorem CountersKept.trans' {s t u : State} (h : CountersKept s t) (k : CountersKept t u) : CountersKept s u :=
  ⟨k.pc.trans h.pc, k.sp.trans h.sp, k.status.trans h.status⟩

/-- The stored bytes of the general registers and the counters do not depend on one of the interface registers. -/
theorem AgentKept.putReg (s : State) (r : Reg) (v : Byte)
    (hr : r ∉ [Reg.r0, .r1, .r2, .r3, .r4, .r5, .r6, .r7, .c0, .c1]) : AgentKept s (s.putReg r v) := by
  refine ⟨fun q hq => State.putReg_reg_other _ _ _ _ ?_, Eq.refl _, Eq.refl _⟩
  rintro h
  exact hr (h ▸ hq)

theorem AgentKept.requestAcpi (s : State) : AgentKept s s.requestAcpi := by
  unfold State.requestAcpi
  split <;> exact ⟨fun _ _ => Eq.refl _, Eq.refl _, Eq.refl _⟩

theorem CountersKept.putReg (s : State) (r : Reg) (v : Byte) (hr : r ≠ .status) : CountersKept s (s.putReg r v) :=
  ⟨Eq.refl _, Eq.refl _, State.putReg_reg_other _ _ _ _ (fun h => hr h.symm)⟩

theorem CountersKept.requestAcpi (s : State) : CountersKept s s.requestAcpi := by
  unfold State.requestAcpi
  split <;> exact ⟨Eq.refl _, Eq.refl _, Eq.refl _⟩

/-- The ports change none of it. -/
theorem PortOnly.agentKept {s t : State} (h : PortOnly s t) : AgentKept s t :=
  ⟨fun q hq => h.regs q (by rintro rfl; simp at hq) (by rintro rfl; simp at hq), h.mem, h.config⟩

theorem PortOnly.countersKept {s t : State} (h : PortOnly s t) : CountersKept s t :=
  ⟨h.pc, h.sp, h.regs _ (by decide) (by decide)⟩

theorem readReg_agentKept (s : State) (r : Reg) : AgentKept s (s.readReg r).2 := by
  obtain ⟨k, h⟩ := s.readReg_state r
  rw [h]
  exact ⟨fun _ _ => Eq.refl _, Eq.refl _, Eq.refl _⟩

theorem readReg_countersKept (s : State) (r : Reg) : CountersKept s (s.readReg r).2 := by
  obtain ⟨k, h⟩ := s.readReg_state r
  rw [h]
  exact ⟨Eq.refl _, Eq.refl _, Eq.refl _⟩

/-- One action of the environment. -/
theorem act_agentKept (a : EnvAction) (s : State) : AgentKept s (act a s) := by
  cases a with
  | hostWriteCommand b =>
    exact ((AgentKept.putReg s .ecscw b (by simp)).trans' (AgentKept.putReg _ .ecscr _ (by simp))).trans'
      (AgentKept.requestAcpi _)
  | hostWriteData b =>
    exact ((AgentKept.putReg s .ecdata b (by simp)).trans' (AgentKept.putReg _ .ecscr _ (by simp))).trans'
      (AgentKept.requestAcpi _)
  | hostReadStatus =>
    exact (readReg_agentKept s .ecscr).trans' ⟨fun _ _ => Eq.refl _, Eq.refl _, Eq.refl _⟩
  | hostReadData =>
    have h : AgentKept s (s.withHostRead s.regs.ecdata) := ⟨fun _ _ => Eq.refl _, Eq.refl _, Eq.refl _⟩
    exact h.trans' (AgentKept.putReg (s.withHostRead s.regs.ecdata) .ecscr _ (by simp))
  | timerTick =>
    show AgentKept s (Machine.timerTick s)
    unfold Machine.timerTick
    split <;> exact ⟨fun _ _ => Eq.refl _, Eq.refl _, Eq.refl _⟩
  | smbEvent => exact ⟨fun _ _ => Eq.refl _, Eq.refl _, Eq.refl _⟩
  | adcComplete v => exact (adcComplete_portOnly v s).agentKept
  | pwmComplete => exact (pwmComplete_portOnly s).agentKept
  | setPolicingPin on => exact ⟨fun _ _ => Eq.refl _, Eq.refl _, Eq.refl _⟩
  | deviceReset =>
    refine ⟨fun q hq => ?_, Eq.refl _, Eq.refl _⟩
    simp only [List.mem_cons, List.not_mem_nil, or_false] at hq
    obtain h | h | h | h | h | h | h | h | h | h := hq <;> subst h <;> exact Eq.refl _

/-- One action that is not a device reset. -/
theorem act_countersKept (a : EnvAction) (s : State) (h : a ≠ .deviceReset) : CountersKept s (act a s) := by
  cases a with
  | hostWriteCommand b =>
    exact ((CountersKept.putReg s .ecscw b (by decide)).trans' (CountersKept.putReg _ .ecscr _ (by decide))).trans'
      (CountersKept.requestAcpi _)
  | hostWriteData b =>
    exact ((CountersKept.putReg s .ecdata b (by decide)).trans' (CountersKept.putReg _ .ecscr _ (by decide))).trans'
      (CountersKept.requestAcpi _)
  | hostReadStatus => exact (readReg_countersKept s .ecscr).trans' ⟨Eq.refl _, Eq.refl _, Eq.refl _⟩
  | hostReadData =>
    have h : CountersKept s (s.withHostRead s.regs.ecdata) := ⟨Eq.refl _, Eq.refl _, Eq.refl _⟩
    exact h.trans' (CountersKept.putReg (s.withHostRead s.regs.ecdata) .ecscr _ (by decide))
  | timerTick =>
    show CountersKept s (Machine.timerTick s)
    unfold Machine.timerTick
    split <;> exact ⟨Eq.refl _, Eq.refl _, Eq.refl _⟩
  | smbEvent => exact ⟨Eq.refl _, Eq.refl _, Eq.refl _⟩
  | adcComplete v => exact (adcComplete_portOnly v s).countersKept
  | pwmComplete => exact (pwmComplete_portOnly s).countersKept
  | setPolicingPin on => exact ⟨Eq.refl _, Eq.refl _, Eq.refl _⟩
  | deviceReset => exact absurd (Eq.refl _) h

/-- A property that every action keeps is kept by several. -/
theorem actAll_induct (P : State → Prop) (h : ∀ a s, P s → P (act a s)) :
    ∀ (l : List EnvAction) (s : State), P s → P (actAll l s)
  | [], _, hs => hs
  | a :: l, s, hs => actAll_induct P h l (act a s) (h a s hs)

theorem actAll_agentKept : ∀ (l : List EnvAction) (s : State), AgentKept s (actAll l s)
  | [], s => AgentKept.rfl s
  | a :: l, s => (act_agentKept a s).trans' (actAll_agentKept l (act a s))

/-- What a boundary leaves alone (R200, R275). -/
theorem boundary_agentKept (s : State) : AgentKept s (boundary s) := by
  have h1 : AgentKept s (clockBoundary s) := ⟨fun _ _ => Eq.refl _, Eq.refl _, Eq.refl _⟩
  have h2 := (portBoundary_portOnly (clockBoundary s)).agentKept
  have h3 : AgentKept (portBoundary (clockBoundary s)) ((portBoundary (clockBoundary s)).withArrivals s.arrivals.tail) :=
    ⟨fun _ _ => Eq.refl _, Eq.refl _, Eq.refl _⟩
  exact ((h1.trans' h2).trans' h3).trans' (actAll_agentKept _ _)

@[simp] theorem boundary_config (s : State) : (boundary s).config = s.config := (boundary_agentKept s).config
@[simp] theorem boundary_mem (s : State) : (boundary s).mem = s.mem := (boundary_agentKept s).mem

theorem boundary_byteAt (s : State) (a : Addr) : (boundary s).byteAt a = s.byteAt a := by
  unfold State.byteAt
  rw [boundary_mem]

/-! ### The fetch -/

/-- Fetching draws, and changes nothing else: a byte of the SMB zone is a draw (R78). -/
theorem fetchBytes_state : ∀ (n : Nat) (a : Addr) (s : State),
    (∀ bytes t, fetchBytes n a s = .got bytes t → bytes.length = n ∧ ∃ k, t = s.withDraws k) ∧
    (∀ c i t, fetchBytes n a s = .nmi c i t → ∃ k, t = s.withDraws k)
  | 0, a, s => by
    refine ⟨fun bytes t h => ?_, fun c i t h => ?_⟩
    · cases h
      exact ⟨rfl, s.draws, rfl⟩
    · cases h
  | n + 1, a, s => by
    have ih := fetchBytes_state n (a + 1#16) (s.readByte a).2
    have hr : ∃ k, (s.readByte a).2 = s.withDraws k := by
      unfold State.readByte
      split
      · exact ⟨_, rfl⟩
      · exact ⟨s.draws, rfl⟩
    obtain ⟨k, hk⟩ := hr
    unfold fetchBytes
    cases hc : s.fetchCheck a with
    | nmi c i =>
      refine ⟨fun bytes t h => ?_, fun c' i' t h => ?_⟩
      · cases h
      · cases h
        exact ⟨s.draws, rfl⟩
    | refuse r => exact ⟨fun bytes t h => (nomatch h), fun c i t h => nomatch h⟩
    | pass =>
      simp only []
      cases hf : fetchBytes n (a + 1#16) (s.readByte a).2 with
      | refused r => exact ⟨fun bytes t h => (nomatch h), fun c i t h => nomatch h⟩
      | got bs u =>
        refine ⟨fun bytes t h => ?_, fun c i t h => nomatch h⟩
        cases h
        obtain ⟨hl, m, rfl⟩ := ih.1 _ _ hf
        exact ⟨by simp [hl], m, by rw [hk]; rfl⟩
      | nmi c i u =>
        refine ⟨fun bytes t h => (nomatch h), fun c' i' t h => ?_⟩
        cases h
        obtain ⟨m, rfl⟩ := ih.2 _ _ _ hf
        exact ⟨m, by rw [hk]; rfl⟩

/-- The state a fetched instruction runs in: draws made, and `pc` moved. -/
theorem fetch_instr_state (s t : State) (i : Instr) (h : fetch s = .instr i t) :
    ∃ k pc, t = (s.withDraws k).withPc pc := by
  unfold fetch at h
  split at h
  · cases h
  · cases h
  · rename_i first u hf
    obtain ⟨-, k, rfl⟩ := (fetchBytes_state 1 s.pc s).1 _ _ hf
    split at h
    · rename_i e _
      cases e <;> cases h
    · rename_i hd _
      split at h
      · cases h
      · cases h
      · rename_i rest v hg
        obtain ⟨-, m, rfl⟩ := (fetchBytes_state _ _ _).1 _ _ hg
        split at h
        · rename_i e _
          cases e <;> cases h
        · cases h
          exact ⟨m, _, rfl⟩

/-- The state a fetch raises an NMI in: draws made, `pc` still at byte 0. -/
theorem fetch_nmi_state (s t : State) (c : NmiCause) (i : Addr) (h : fetch s = .nmi c i t) :
    ∃ k, t = s.withDraws k := by
  unfold fetch at h
  split at h
  · rename_i hf
    cases h
    exact (fetchBytes_state 1 s.pc s).2 _ _ _ hf
  · cases h
  · rename_i first u hf
    obtain ⟨-, k, rfl⟩ := (fetchBytes_state 1 s.pc s).1 _ _ hf
    split at h
    · rename_i e _
      cases e <;> cases h <;> exact ⟨k, rfl⟩
    · rename_i hd _
      split at h
      · rename_i hg
        cases h
        obtain ⟨m, rfl⟩ := (fetchBytes_state _ _ _).2 _ _ _ hg
        exact ⟨m, rfl⟩
      · cases h
      · rename_i rest v hg
        obtain ⟨-, m, rfl⟩ := (fetchBytes_state _ _ _).1 _ _ hg
        split at h
        · rename_i e _
          cases e <;> cases h <;> exact ⟨m, rfl⟩
        · cases h

/-! ### A whole step -/

/-- Every next state comes from an interrupt taken, an NMI entered, or an instruction executed (R200, R226). -/
theorem step_cases (s t : State) (h : step s = .next t) :
    (∃ x, (boundary s).nextIrq = some x ∧ takeIrq x (boundary s) = .next t) ∨
    (∃ c i k, raiseNmi c i ((boundary s).withDraws k) = .next t) ∨
    (∃ i k pc, exec i (((boundary s).withDraws k).withPc pc) = .next t) := by
  unfold step coreStep at h
  split at h
  · rename_i x hx
    exact .inl ⟨x, hx, h⟩
  · split at h
    · rename_i i u hf
      obtain ⟨k, pc, rfl⟩ := fetch_instr_state _ _ _ hf
      exact .inr (.inr ⟨i, k, pc, h⟩)
    · rename_i c i u hf
      obtain ⟨k, rfl⟩ := fetch_nmi_state _ _ _ _ hf
      exact .inr (.inl ⟨c, i, k, h⟩)
    · cases h

end Sys2Proof.Machine
end

