-- ==== Sys2Proof/Laws/PerInstr.lean ====
section
/-! SUPPORT. The per-instruction family `EncodedLength`: the encoding of an instruction has the length its format gives it
(R90, R92), whatever the parameters. -/

namespace Sys2Proof.Laws.EncodedLength

/-- The encoding of `i` is as long as its format says. -/
def Statement (i : Instr) : Prop := ∀ c : Config, (encode c i).length = i.length

theorem reset : Statement (.reset) := fun _ => rfl
theorem ret : Statement (.ret) := fun _ => rfl
theorem inc (p : Pair) : Statement (.inc p) := fun _ => rfl
theorem dec (p : Pair) : Statement (.dec p) := fun _ => rfl
theorem pop (p : Pair) : Statement (.pop p) := fun _ => rfl
theorem push (p : Pair) : Statement (.push p) := fun _ => rfl
theorem decl (p : Pair) : Statement (.decl p) := fun _ => rfl
theorem dech (p : Pair) : Statement (.dech p) := fun _ => rfl
theorem incl (p : Pair) : Statement (.incl p) := fun _ => rfl
theorem inch (p : Pair) : Statement (.inch p) := fun _ => rfl
theorem br (off : Byte) : Statement (.br off) := fun _ => rfl
theorem brnz (off : Byte) : Statement (.brnz off) := fun _ => rfl
theorem brnc (off : Byte) : Statement (.brnc off) := fun _ => rfl
theorem brncz (off : Byte) : Statement (.brncz off) := fun _ => rfl
theorem brz (off : Byte) : Statement (.brz off) := fun _ => rfl
theorem brc (off : Byte) : Statement (.brc off) := fun _ => rfl
theorem brcz (off : Byte) : Statement (.brcz off) := fun _ => rfl
theorem movel (p : Pair) (imm : Byte) : Statement (.movel p imm) := fun _ => rfl
theorem moveh (p : Pair) (imm : Byte) : Statement (.moveh p imm) := fun _ => rfl
theorem compl (p : Pair) (imm : Byte) : Statement (.compl p imm) := fun _ => rfl
theorem comph (p : Pair) (imm : Byte) : Statement (.comph p imm) := fun _ => rfl
theorem add (l r : Reg) : Statement (.add l r) := fun _ => rfl
theorem sub (l r : Reg) : Statement (.sub l r) := fun _ => rfl
theorem addc (l r : Reg) : Statement (.addc l r) := fun _ => rfl
theorem subc (l r : Reg) : Statement (.subc l r) := fun _ => rfl
theorem move (l r : Reg) : Statement (.move l r) := fun _ => rfl
theorem and (l r : Reg) : Statement (.and l r) := fun _ => rfl
theorem or (l r : Reg) : Statement (.or l r) := fun _ => rfl
theorem xor (l r : Reg) : Statement (.xor l r) := fun _ => rfl
theorem load (r : Reg) (p : Pair) (disp : BitVec 4) : Statement (.load r p disp) := fun _ => rfl
theorem store (p : Pair) (disp : BitVec 4) (r : Reg) : Statement (.store p disp r) := fun _ => rfl
theorem shll (r : Reg) (n : BitVec 3) : Statement (.shll r n) := fun _ => rfl
theorem rotr (r : Reg) (n : BitVec 3) : Statement (.rotr r n) := fun _ => rfl
theorem test (r : Reg) (n : BitVec 3) : Statement (.test r n) := fun _ => rfl
theorem clear (r : Reg) (n : BitVec 3) : Statement (.clear r n) := fun _ => rfl
theorem set (r : Reg) (n : BitVec 3) : Statement (.set r n) := fun _ => rfl
theorem rotl (r : Reg) (n : BitVec 3) : Statement (.rotl r n) := fun _ => rfl
theorem shlr (r : Reg) (n : BitVec 3) : Statement (.shlr r n) := fun _ => rfl
theorem shal (r : Reg) (n : BitVec 3) : Statement (.shal r n) := fun _ => rfl
theorem shar (r : Reg) (n : BitVec 3) : Statement (.shar r n) := fun _ => rfl
theorem call (target : Addr) : Statement (.call target) := fun _ => rfl
theorem jump (target : Addr) : Statement (.jump target) := fun _ => rfl
theorem movei (p : Pair) (value : Addr) : Statement (.movei p value) := fun _ => rfl

end Sys2Proof.Laws.EncodedLength
end

