-- ==== Sys2Proof/Laws/Steps.lean ====
section
/-! SUPPORT. What a whole step does to a port operation in progress that nothing bears on, and the end of a run. -/

namespace Sys2Proof.Machine

/-! ### The ports through a step -/

/-- The operation in progress, PCON and the output latches are the same. -/
structure PortsKept (s t : State) : Prop where
  port : t.port = s.port
  pcon : t.reg .pcon = s.reg .pcon
  pwmDuty : t.pwmDuty = s.pwmDuty
  dout : t.dout = s.dout

/-- PDATA, and whether it is undefined, are the same. -/
structure PdataKept (s t : State) : Prop where
  pdata : t.reg .pdata = s.reg .pdata
  undefined : t.pdataUndefined = s.pdataUndefined

theorem PortsKept.rfl (s : State) : PortsKept s s := ⟨Eq.refl _, Eq.refl _, Eq.refl _, Eq.refl _⟩

theorem PortsKept.trans' {s t u : State} (h : PortsKept s t) (k : PortsKept t u) : PortsKept s u :=
  ⟨k.port.trans h.port, k.pcon.trans h.pcon, k.pwmDuty.trans h.pwmDuty, k.dout.trans h.dout⟩

theorem PdataKept.rfl (s : State) : PdataKept s s := ⟨Eq.refl _, Eq.refl _⟩

theorem PdataKept.trans' {s t u : State} (h : PdataKept s t) (k : PdataKept t u) : PdataKept s u :=
  ⟨k.pdata.trans h.pdata, k.undefined.trans h.undefined⟩

theorem Frame.portsKept {rs : List Reg} {s t : State} (h : Frame rs s t) (hp : Reg.pcon ∉ rs) : PortsKept s t :=
  ⟨(h.ports hp).1, h.regs _ hp, (h.ports hp).2.1, (h.ports hp).2.2⟩

theorem SameMachine.portsKept {s t : State} (h : SameMachine s t) : PortsKept s t :=
  ⟨h.port, by unfold State.reg; rw [h.regs], h.pwmDuty, h.dout⟩

theorem PlainWrite.portsKept {s t : State} {l : Reg} {v : Byte} {o : Result} (h : PlainWrite s l v o)
    (hl : l ≠ .pcon) (ho : o = .next t) : PortsKept s t := by
  unfold PlainWrite at h
  split at h
  · rw [h] at ho
    cases ho
  · obtain ⟨u, hu, -, hf, -⟩ := h
    rw [hu] at ho
    cases ho
    exact hf.portsKept (by simp [touched, hl, Ne.symm hl])

theorem FlaggedWrite.portsKept {s t : State} {l : Reg} {v : Byte} {c z : Bool} {o : Result}
    (h : FlaggedWrite s l v c z o) (hl : l ≠ .pcon) (ho : o = .next t) : PortsKept s t := by
  unfold FlaggedWrite at h
  split at h
  · rw [h] at ho
    cases ho
  · obtain ⟨u, hu, -, -, -, -, hf, -⟩ := h
    rw [hu] at ho
    cases ho
    exact hf.portsKept (by simp [touched, hl, Ne.symm hl])

theorem withDraws_portsKept (s : State) (k : Nat) : PortsKept s (s.withDraws k) :=
  ⟨Eq.refl _, Eq.refl _, Eq.refl _, Eq.refl _⟩

theorem withPc_portsKept (s : State) (x : Addr) : PortsKept s (s.withPc x) :=
  ⟨Eq.refl _, Eq.refl _, Eq.refl _, Eq.refl _⟩

theorem withSp_portsKept (s : State) (x : Addr) : PortsKept s (s.withSp x) :=
  ⟨Eq.refl _, Eq.refl _, Eq.refl _, Eq.refl _⟩

theorem raiseNmi_portsKept (c : NmiCause) (i : Addr) (s t : State) (h : raiseNmi c i s = .next t) : PortsKept s t := by
  obtain ⟨-, -, rfl⟩ := raiseNmi_next c i s t h
  exact (withDraws_portsKept s _).trans' (State.enterTrap_spec s.drawWord.2 _ _).2.2.1.portsKept

theorem guarded_portsKept (x : Check) (s t : State) (k : Result) (h : guarded x s k = .next t)
    (hk : k = .next t → PortsKept s t) : PortsKept s t := by
  obtain ⟨-, e⟩ | ⟨c, i, -, e⟩ := guarded_next x s t k h
  · exact hk e
  · exact raiseNmi_portsKept c i s t e

theorem execBranch_portsKept (taken : Bool) (off : Byte) (s t : State) (h : execBranch taken off s = .next t) :
    PortsKept s t := by
  unfold execBranch at h
  split at h
  · refine guarded_portsKept _ _ _ _ h fun e => ?_
    cases e
    exact withPc_portsKept _ _
  · cases h
    exact PortsKept.rfl s

theorem execFlagged_portsKept (l r : Reg) (f : Byte → Byte → AluOut) (s t : State) (hl : l ≠ .pcon)
    (h : execFlagged l r f s = .next t) : PortsKept s t := by
  by_cases hs : l = .status
  · subst hs
    rw [execFlagged_status] at h
    cases h
  · obtain ⟨a, b, -, -, -, w⟩ := execFlagged_spec l r f s hs
    exact w.portsKept hl h

theorem execRotate_portsKept (r : Reg) (f : BitVec 9 → BitVec 9) (s t : State) (hr : r ≠ .pcon)
    (h : execRotate r f s = .next t) : PortsKept s t := by
  by_cases hs : r = .status
  · subst hs
    rw [execRotate_status] at h
    cases h
  · obtain ⟨b, -, w⟩ := execRotate_spec r f s hs
    exact w.portsKept hr h

theorem execModify_portsKept (r : Reg) (f : Byte → Byte) (s t : State) (hr : r ≠ .pcon)
    (h : execModify r f s = .next t) : PortsKept s t := by
  obtain ⟨v, -, w⟩ := execModify_spec r f s
  exact w.portsKept hr h

theorem execHalf_portsKept (r : Reg) (hr : r ≠ .status) (hp : r ≠ .pcon) (out : AluOut) (s t : State)
    (h : execHalf r out s = .next t) : PortsKept s t := by
  obtain ⟨u, hu, -, -, -, -, hf, -⟩ := execHalf_spec r hr out s
  rw [hu] at h
  cases h
  exact hf.portsKept (by simp [Ne.symm hp])

theorem execCompare_portsKept (a imm : Byte) (s t : State) (h : execCompare a imm s = .next t) : PortsKept s t := by
  obtain ⟨u, hu, -, -, -, hf, -⟩ := execCompare_spec a imm s
  rw [hu] at h
  cases h
  exact hf.portsKept (by simp)

theorem execPair_portsKept (p : Pair) (v : Addr) (c : Bool) (s t : State) (h : execPair p v c s = .next t) :
    PortsKept s t := by
  obtain ⟨u, hu, -, -, -, -, hf, -⟩ := execPair_spec p v c s
  rw [hu] at h
  cases h
  obtain ⟨-, -, -, a, b, -⟩ := pair_halves p
  exact hf.portsKept (by simp [Ne.symm a, Ne.symm b])

/-- An instruction that writes no PCON and is not RESET leaves the ports and their latches alone (R251, R259). -/
theorem exec_portsKept (i : Instr) (s t : State) (hr : i ≠ .reset) (hd : i.regDest ≠ some .pcon)
    (h : exec i s = .next t) : PortsKept s t := by
  have hw : ∀ r, i.regDest = some r → r ≠ .pcon := by
    rintro r e rfl
    exact hd e
  cases i with
  | reset => exact absurd rfl hr
  | ret =>
    refine guarded_portsKept _ _ _ _ h fun e => ?_
    obtain ⟨k, hk⟩ := s.topWord_state
    rw [hk] at e
    refine (withDraws_portsKept s k).trans' (guarded_portsKept _ _ _ _ e fun e => ?_)
    cases e
    exact (withSp_portsKept _ _).trans' (withPc_portsKept _ _)
  | inc p => exact execPair_portsKept p _ _ s t h
  | dec p => exact execPair_portsKept p _ _ s t h
  | pop p =>
    refine guarded_portsKept _ _ _ _ h fun e => ?_
    obtain ⟨k, hk⟩ := s.topWord_state
    rw [hk] at e
    cases e
    obtain ⟨-, -, -, a, b, -⟩ := pair_halves p
    exact ((withDraws_portsKept s k).trans' ((Frame.putPair (s.withDraws k) p _).portsKept
      (by simp [Ne.symm a, Ne.symm b]))).trans' (withSp_portsKept _ _)
  | push p =>
    refine guarded_portsKept _ _ _ _ h fun e => ?_
    cases e
    exact (s.pushWord_same _).portsKept
  | decl p =>
    obtain ⟨-, a, -, b, -⟩ := pair_halves p
    exact execHalf_portsKept _ a b _ s t h
  | dech p =>
    obtain ⟨-, -, a, -, b, -⟩ := pair_halves p
    exact execHalf_portsKept _ a b _ s t h
  | incl p =>
    obtain ⟨-, a, -, b, -⟩ := pair_halves p
    exact execHalf_portsKept _ a b _ s t h
  | inch p =>
    obtain ⟨-, -, a, -, b, -⟩ := pair_halves p
    exact execHalf_portsKept _ a b _ s t h
  | br off => exact execBranch_portsKept true off s t h
  | brnz off => exact execBranch_portsKept (!s.zero) off s t h
  | brnc off => exact execBranch_portsKept (!s.carry) off s t h
  | brncz off => exact execBranch_portsKept (!s.carry && !s.zero) off s t h
  | brz off => exact execBranch_portsKept s.zero off s t h
  | brc off => exact execBranch_portsKept s.carry off s t h
  | brcz off => exact execBranch_portsKept (s.carry && s.zero) off s t h
  | movel p imm =>
    cases h
    obtain ⟨-, -, -, a, -⟩ := pair_halves p
    exact ((Frame.refl s).putReg p.lo imm).portsKept (by simp [Ne.symm a])
  | moveh p imm =>
    cases h
    obtain ⟨-, -, -, -, b, -⟩ := pair_halves p
    exact ((Frame.refl s).putReg p.hi imm).portsKept (by simp [Ne.symm b])
  | compl p imm => exact execCompare_portsKept _ imm s t h
  | comph p imm => exact execCompare_portsKept _ imm s t h
  | add l r =>
    rw [exec_add] at h
    exact execFlagged_portsKept l r _ s t (hw l rfl) h
  | sub l r =>
    rw [exec_sub] at h
    exact execFlagged_portsKept l r _ s t (hw l rfl) h
  | addc l r =>
    rw [exec_addc] at h
    exact execFlagged_portsKept l r _ s t (hw l rfl) h
  | subc l r =>
    rw [exec_subc] at h
    exact execFlagged_portsKept l r _ s t (hw l rfl) h
  | move l r =>
    rw [exec_move] at h
    obtain ⟨v, -, w⟩ := execMove_spec l r s
    exact w.portsKept (hw l rfl) h
  | and l r =>
    rw [exec_and] at h
    exact execFlagged_portsKept l r _ s t (hw l rfl) h
  | or l r =>
    rw [exec_or] at h
    exact execFlagged_portsKept l r _ s t (hw l rfl) h
  | xor l r =>
    rw [exec_xor] at h
    exact execFlagged_portsKept l r _ s t (hw l rfl) h
  | load r p disp =>
    refine guarded_portsKept _ _ _ _ h fun e => ?_
    obtain ⟨k, hk⟩ : ∃ k, (s.readByte (s.effAddr p disp)).2 = s.withDraws k := by
      rcases State.readByte_cases s (s.effAddr p disp) with ⟨-, e⟩ | ⟨-, e⟩ <;> rw [e]
      · exact ⟨s.draws + 1, rfl⟩
      · exact ⟨s.draws, rfl⟩
    rw [hk] at e
    exact (settle_write s k r _).portsKept (hw r rfl) e
  | store p disp r =>
    refine guarded_portsKept _ _ _ _ h fun e => ?_
    obtain ⟨k, hk⟩ := s.readReg_state r
    rw [hk] at e
    cases e
    refine (withDraws_portsKept s k).trans' ⟨?_, ?_, ?_, ?_⟩ <;> simp [State.reg]
  | shll r n =>
    rw [exec_shll] at h
    exact execModify_portsKept r _ s t (hw r rfl) h
  | rotr r n =>
    rw [exec_rotr] at h
    exact execRotate_portsKept r _ s t (hw r rfl) h
  | test r n =>
    obtain ⟨k, hk⟩ := s.readReg_state r
    have e : exec (.test r n) s = .next ((s.withDraws k).setZero (bitOf (s.readReg r).1 n.toNat)) := by
      show Host.Outcome.next _ = _
      rw [hk]
    rw [e] at h
    cases h
    rw [((s.withDraws k).setZero_spec _).2.2.2]
    exact (((Frame.refl (s.withDraws k)).putStatus _).of_draws).portsKept (by simp)
  | clear r n =>
    rw [exec_clear] at h
    exact execModify_portsKept r _ s t (hw r rfl) h
  | set r n =>
    rw [exec_set] at h
    exact execModify_portsKept r _ s t (hw r rfl) h
  | rotl r n =>
    rw [exec_rotl] at h
    exact execRotate_portsKept r _ s t (hw r rfl) h
  | shlr r n =>
    rw [exec_shlr] at h
    exact execModify_portsKept r _ s t (hw r rfl) h
  | shal r n =>
    rw [exec_shal] at h
    exact execModify_portsKept r _ s t (hw r rfl) h
  | shar r n =>
    rw [exec_shar] at h
    exact execModify_portsKept r _ s t (hw r rfl) h
  | call target =>
    refine guarded_portsKept _ _ _ _ h fun e => guarded_portsKept _ _ _ _ e fun e => ?_
    cases e
    exact (s.pushWord_same _).portsKept.trans' (withPc_portsKept _ _)
  | jump target =>
    refine guarded_portsKept _ _ _ _ h fun e => ?_
    cases e
    exact withPc_portsKept _ _
  | movei p value =>
    cases h
    obtain ⟨-, -, -, a, b, -⟩ := pair_halves p
    exact (Frame.putPair s p value).portsKept (by simp [Ne.symm a, Ne.symm b])

/-- An action that is no completion and no reset leaves the ports alone. -/
theorem act_portsKept (a : EnvAction) (s : State) (hp : a ≠ .pwmComplete) (hr : a ≠ .deviceReset)
    (ha : ∀ v, a ≠ .adcComplete v) : PortsKept s (act a s) ∧ PdataKept s (act a s) := by
  have hq : ∀ (u : State), PortsKept u u.requestAcpi ∧ PdataKept u u.requestAcpi := by
    intro u
    unfold State.requestAcpi
    split <;> exact ⟨⟨rfl, rfl, rfl, rfl⟩, ⟨rfl, rfl⟩⟩
  cases a with
  | hostWriteCommand b =>
    obtain ⟨x, y⟩ := hq ((s.putReg .ecscw b).putReg .ecscr (withBit (withBit s.regs.ecscr 3 true) 1 true))
    exact ⟨⟨x.port, x.pcon, x.pwmDuty, x.dout⟩, ⟨y.pdata, y.undefined⟩⟩
  | hostWriteData b =>
    obtain ⟨x, y⟩ := hq ((s.putReg .ecdata b).putReg .ecscr (withBit (withBit s.regs.ecscr 3 false) 1 true))
    exact ⟨⟨x.port, x.pcon, x.pwmDuty, x.dout⟩, ⟨y.pdata, y.undefined⟩⟩
  | hostReadStatus =>
    obtain ⟨k, hk⟩ := s.readReg_state .ecscr
    have e : act .hostReadStatus s = (s.withDraws k).withHostRead (s.readReg .ecscr).1 := by
      show (s.readReg .ecscr).2.withHostRead _ = _
      rw [hk]
    rw [e]
    exact ⟨⟨rfl, rfl, rfl, rfl⟩, ⟨rfl, rfl⟩⟩
  | hostReadData => exact ⟨⟨rfl, rfl, rfl, rfl⟩, ⟨rfl, rfl⟩⟩
  | timerTick =>
    show PortsKept s (Machine.timerTick s) ∧ PdataKept s (Machine.timerTick s)
    unfold Machine.timerTick
    split <;> exact ⟨⟨rfl, rfl, rfl, rfl⟩, ⟨rfl, rfl⟩⟩
  | smbEvent => exact ⟨⟨rfl, rfl, rfl, rfl⟩, ⟨rfl, rfl⟩⟩
  | adcComplete v => exact absurd rfl (ha v)
  | pwmComplete => exact absurd rfl hp
  | setPolicingPin on => exact ⟨⟨rfl, rfl, rfl, rfl⟩, ⟨rfl, rfl⟩⟩
  | deviceReset => exact absurd rfl hr

theorem actAll_portsKept : ∀ (l : List EnvAction) (s : State),
    (∀ a ∈ l, a ≠ .pwmComplete ∧ a ≠ .deviceReset ∧ ∀ v, a ≠ .adcComplete v) →
    PortsKept s (actAll l s) ∧ PdataKept s (actAll l s)
  | [], s, _ => ⟨PortsKept.rfl s, PdataKept.rfl s⟩
  | a :: l, s, h => by
    obtain ⟨hp, hr, ha⟩ := h a List.mem_cons_self
    obtain ⟨x, y⟩ := act_portsKept a s hp hr ha
    obtain ⟨x', y'⟩ := actAll_portsKept l (act a s) (fun b hb => h b (List.mem_cons_of_mem a hb))
    exact ⟨x.trans' x', y.trans' y'⟩

/-- The port work of a boundary looks at the ports, PDATA and the draws alone. -/
theorem portBoundary_clock (s : State) (x : List (List EnvAction)) :
    PortsKept (portBoundary s) ((portBoundary (clockBoundary s)).withArrivals x) ∧
      PdataKept (portBoundary s) ((portBoundary (clockBoundary s)).withArrivals x) := by
  obtain ⟨regs, pc, sp, mem, irq, port, u, duty, dout, pol, sci, hr, arr, tw, dr, cfg⟩ := s
  cases port with
  | idle => exact ⟨⟨rfl, rfl, rfl, rfl⟩, ⟨rfl, rfl⟩⟩
  | adc ch n => cases n <;> exact ⟨⟨rfl, rfl, rfl, rfl⟩, ⟨rfl, rfl⟩⟩
  | pwm ch d n => cases n <;> exact ⟨⟨rfl, rfl, rfl, rfl⟩, ⟨rfl, rfl⟩⟩
  | several n => cases n <;> exact ⟨⟨rfl, rfl, rfl, rfl⟩, ⟨rfl, rfl⟩⟩

/-- With nothing else that bears on it, a step does to the port operation what the passing of one boundary does, and PDATA
after the boundary is what that leaves (R257, R258). -/
theorem step_ports (s t : State) (h : LeavesPortsAlone s) (hs : step s = .next t) :
    PortsKept (portBoundary s) t ∧ PdataKept (portBoundary s) (boundary s) := by
  obtain ⟨a, b⟩ := portBoundary_clock s s.arrivals.tail
  obtain ⟨c, d⟩ := actAll_portsKept (s.arrivals.headD []) ((portBoundary (clockBoundary s)).withArrivals s.arrivals.tail)
    h.arrivals
  refine ⟨(a.trans' c).trans' (t := boundary s) ?_, b.trans' d⟩
  unfold step coreStep at hs
  split at hs
  · rename_i x hx
    refine guarded_portsKept _ _ _ _ hs fun e => ?_
    cases e
    have hc : PortsKept (boundary s) ((boundary s).clearPending x) := by cases x <;> exact ⟨rfl, rfl, rfl, rfl⟩
    exact hc.trans' (State.enterTrap_spec _ _ _).2.2.1.portsKept
  · rename_i hn
    split at hs
    · rename_i i u hf
      obtain ⟨hr, hd⟩ := h.instr hn i u hf
      obtain ⟨k, pc, rfl⟩ := fetch_instr_state _ _ _ hf
      exact ((withDraws_portsKept _ k).trans' (withPc_portsKept _ pc)).trans' (exec_portsKept i _ t hr hd hs)
    · rename_i c i u hf
      obtain ⟨k, rfl⟩ := fetch_nmi_state _ _ _ _ hf
      exact (withDraws_portsKept _ k).trans' (raiseNmi_portsKept _ _ _ _ hs)
    · cases hs

/-! ### The end of a run -/

/-- At the end of a run no interrupt is taken (R293). -/
theorem AtEnd.nextIrq_none {s : State} (h : AtEnd s) : s.nextIrq = none := by
  unfold State.nextIrq
  rw [List.find?_eq_none]
  intro x _
  obtain e | ⟨e, -⟩ := h.2 x <;> simp [State.irqRequested, e]

/-- A usable map reads an operation back from its first byte (R108, R109). -/
theorem decodeHead_dfhByte (c : Config) (hc : c.wellFormed = true) (op : DfhOp) :
    decodeHead c (c.dfhByte op) = .ok (.dfh op) := by
  unfold Config.wellFormed Config.dfhMapOk at hc
  simp only [Bool.and_eq_true, List.all_eq_true, beq_iff_eq] at hc
  obtain ⟨⟨⟨-, hl, hm⟩, -⟩, -⟩ := hc
  have hop : op ∈ DfhOp.all := by cases op <;> decide
  have hlook := hl op hop
  obtain ⟨e, he, hk⟩ : ∃ e ∈ c.dfhMap, e.1 = c.dfhByte op := by
    obtain ⟨l₁, l₂, h, -⟩ := List.lookup_eq_some_iff.1 hlook
    exact ⟨(c.dfhByte op, op), by simp [h], rfl⟩
  have h5 : (c.dfhByte op).extractLsb' 5 3 = 0b100#3 := hk ▸ (hm e he).2
  have hn : ∀ b : Byte, b.extractLsb' 5 3 = 0b100#3 →
      (b.extractLsb' 4 4).toNat = 8 ∨ (b.extractLsb' 4 4).toNat = 9 := by decide
  unfold decodeHead
  obtain h | h := hn _ h5 <;> simp [h, hlook]

/-- One byte fetched where that is allowed, outside the SMB zone. -/
theorem fetchBytes_one (s : State) (a : Addr) (h : s.fetchCheck a = .pass) (hz : inSmbZone a = false) :
    fetchBytes 1 a s = .got [s.byteAt a] s := by
  simp [fetchBytes, h, State.readByte, hz]

/-- At the end of a run the core stays where it is, so the final state is well determined (R293). -/
theorem AtEnd.coreStep {s : State} (h : AtEnd s) (hc : s.config.wellFormed = true) :
    Machine.coreStep s = .next s := by
  have hi := h.nextIrq_none
  obtain ⟨⟨hf, hb⟩, -⟩ := h
  have h0 := hf 0 (by decide)
  have h1 := hf 1 (by decide)
  have hb : [s.byteAt (s.pc + BitVec.ofNat 16 0), s.byteAt (s.pc + BitVec.ofNat 16 1)] =
      [s.config.dfhByte .br, 0xFE#8] := hb
  simp only [BitVec.add_zero, List.cons.injEq, and_true] at h0 h1 hb
  obtain ⟨b0, b1⟩ := hb
  have hfetch : fetch s = .instr (.br 0xFE#8) (s.withPc (s.pc + 1#16 + 1#16)) := by
    unfold fetch
    rw [fetchBytes_one s s.pc h0.1 h0.2]
    simp only [List.headD_cons, b0, decodeHead_dfhByte s.config hc]
    show (match fetchBytes 1 (s.pc + 1#16) s with
      | .nmi cause info u => Fetched.nmi cause info u
      | .refused r => .refused r
      | .got rest u => _) = _
    rw [fetchBytes_one s _ h1.1 h1.2, b1]
    rfl
  have ht : (s.withPc (s.pc + 1#16 + 1#16)).pc + sext16 0xFE#8 = s.pc := by
    show s.pc + 1#16 + 1#16 + sext16 0xFE#8 = s.pc
    have : sext16 0xFE#8 = 0xFFFE#16 := by decide
    rw [this]
    bv_omega
  have hok : targetOk (s.withPc (s.pc + 1#16 + 1#16)) s.pc = true := by
    have hp := h0.1
    unfold State.fetchCheck at hp
    show (!s.policing || s.inFlash s.pc) = true
    cases hs : s.policing <;> simp_all
  unfold Machine.coreStep
  rw [hi, hfetch]
  have hx := ((execBranch_cases true 0xFE#8 (s.withPc (s.pc + 1#16 + 1#16))).2 rfl).1 (by rw [ht]; exact hok)
  rw [ht] at hx
  exact hx

end Sys2Proof.Machine
end

