-- ==== Sys2Proof/Tests/Slice0.lean ====
section
/-! SUPPORT. The model's own tests: the checks of WellFormed refuse, the words of the spec decode, one step of each
instruction gives what 95_test_vectors.md says, and every statement with hypotheses has a state that meets them. -/

namespace Sys2Proof.Tests

open Sys2Proof.Machine

/-! ### Helpers -/

/-- The default parameters, with the two draws of R6 settled so that a test can be evaluated. -/
def testConfig : Config := { Config.default with unusedRead := .storage, acpiIrq := .event }

/-- A machine with every register 00h but those a test sets. -/
def base : State where
  regs := ⟨0#8, 0#8, 0#8, 0#8, 0#8, 0#8, 0#8, 0#8, 0#8, 0#8, 0#8, 0#8, 0#8, 0#8, 0#8, 0#8⟩
  pc := 0x0202#16
  sp := 0xFFFF#16
  mem := ⟨[]⟩
  irq := ⟨false, false, false⟩
  port := .idle
  pdataUndefined := false
  pwmDuty := Vector.replicate 16 0x00#8
  dout := 0x00#8
  policing := true
  sci := false
  hostRead := 0x00#8
  arrivals := []
  timerWait := 0
  draws := 0
  config := testConfig

/-- `base` with registers set. -/
def regs (l : List (Reg × Byte)) : State := l.foldl (fun s e => s.putReg e.1 e.2) base

/-- `base` with policing off. -/
def open_ : State := base.withPolicing false

/-- What a step answers, seen through `f`. -/
def seen {α : Type} (o : Result) (f : State → α) : Option α :=
  match o with
  | .next t => some (f t)
  | .fault _ | .refused _ => none

/-- The fault a step ends in. -/
def faultOf (o : Result) : Option Fault :=
  match o with
  | .fault e => some e
  | .next _ | .refused _ => none

/-- The refusal a step ends in. -/
def refusalOf (o : Result) : Option Refusal :=
  match o with
  | .refused e => some e
  | .next _ | .fault _ => none

/-- A register and the two flags after an instruction. -/
def regFlags (i : Instr) (s : State) (r : Reg) : Option (Byte × Bool × Bool) :=
  seen (exec i s) (fun t => (t.reg r, t.carry, t.zero))

/-- Whether two outcomes of decoding are the same. -/
def decodes (bytes : List Byte) (i : Instr) : Bool := decode Config.default bytes == .ok i

/-! ### WellFormed refuses the ill-formed (R142, R5, R108, R97, R227) -/

theorem test_wf_add_status : (Instr.add .status .r0).wellFormed = false := by decide
theorem test_wf_addc_status : (Instr.addc .status .r0).wellFormed = false := by decide
theorem test_wf_sub_status : (Instr.sub .status .r0).wellFormed = false := by decide
theorem test_wf_subc_status : (Instr.subc .status .r0).wellFormed = false := by decide
theorem test_wf_and_status : (Instr.and .status .r0).wellFormed = false := by decide
theorem test_wf_or_status : (Instr.or .status .r0).wellFormed = false := by decide
theorem test_wf_xor_status : (Instr.xor .status .r0).wellFormed = false := by decide
theorem test_wf_rotl_status : (Instr.rotl .status 1#3).wellFormed = false := by decide
theorem test_wf_rotr_status : (Instr.rotr .status 1#3).wellFormed = false := by decide
theorem test_wf_move_status : (Instr.move .status .r0).wellFormed = true := by decide
theorem test_wf_default : Config.default.wellFormed = true := by decide
theorem test_wf_flash_top : Config.wellFormed { Config.default with flashTop := 0x8000#16 } = false := by decide
theorem test_wf_ram_top : Config.wellFormed { Config.default with ramTop := 0x7FFF#16 } = false := by decide
theorem test_wf_map_missing : Config.wellFormed { Config.default with dfhMap := dfhMapDecided.tail } = false := by decide
theorem test_wf_map_clash :
    Config.wellFormed { Config.default with dfhMap := (0x81#8, .rotr) :: dfhMapDecided } = false := by decide
theorem test_wf_map_prefix :
    Config.wellFormed { Config.default with dfhMap := (0xA0#8, .br) :: dfhMapDecided.tail } = false := by decide
theorem test_wf_codes_short : Config.wellFormed { Config.default with regCodes := regCodesDecided.tail } = false := by decide
theorem test_wf_codes_twice :
    Config.wellFormed { Config.default with regCodes := .r1 :: regCodesDecided.tail } = false := by decide
theorem test_wf_irq_order : Config.wellFormed { Config.default with irqOrder := [.timer, .smb] } = false := by decide

/-! ### Words written out from the encodings (R103 to R108, 95_test_vectors.md) -/

theorem test_decode_reset : decodes [0b01000000#8] (.reset) = true := by decide
theorem test_decode_ret : decodes [0b01001000#8] (.ret) = true := by decide
theorem test_decode_inc : decodes [0x60#8] (.inc .rp0) = true := by decide
theorem test_decode_dec : decodes [0x67#8] (.dec .rp3) = true := by decide
theorem test_decode_pop : decodes [0x6C#8] (.pop .rp2) = true := by decide
theorem test_decode_push : decodes [0x6B#8] (.push .rp1) = true := by decide
theorem test_decode_decl : decodes [0x74#8] (.decl .rp2) = true := by decide
theorem test_decode_dech : decodes [0x71#8] (.dech .rp0) = true := by decide
theorem test_decode_incl : decodes [0x7A#8] (.incl .rp1) = true := by decide
theorem test_decode_inch : decodes [0x7F#8] (.inch .rp3) = true := by decide
theorem test_decode_br : decodes [0x80#8, 0xFE#8] (.br 0xFE#8) = true := by decide
theorem test_decode_brnz : decodes [0x83#8, 0xF0#8] (.brnz 0xF0#8) = true := by decide
theorem test_decode_brnc : decodes [0x85#8, 0x10#8] (.brnc 0x10#8) = true := by decide
theorem test_decode_brncz : decodes [0x87#8, 0x05#8] (.brncz 0x05#8) = true := by decide
theorem test_decode_brz : decodes [0x8B#8, 0xF0#8] (.brz 0xF0#8) = true := by decide
theorem test_decode_brc : decodes [0x8D#8, 0x10#8] (.brc 0x10#8) = true := by decide
theorem test_decode_brcz : decodes [0x8F#8, 0x05#8] (.brcz 0x05#8) = true := by decide
theorem test_decode_movel : decodes [0xB4#8, 0x04#8] (.movel .rp2 0x04#8) = true := by decide
theorem test_decode_moveh : decodes [0xB3#8, 0xFF#8] (.moveh .rp1 0xFF#8) = true := by decide
theorem test_decode_compl : decodes [0xBE#8, 0x8F#8] (.compl .rp3 0x8F#8) = true := by decide
theorem test_decode_comph : decodes [0xBD#8, 0x00#8] (.comph .rp2 0x00#8) = true := by decide
theorem test_decode_add : decodes [0x90#8, 0x0A#8] (.add .r0 .c0) = true := by decide
theorem test_decode_sub : decodes [0x92#8, 0x45#8] (.sub .r4 .r5) = true := by decide
theorem test_decode_addc : decodes [0x94#8, 0x37#8] (.addc .r3 .r7) = true := by decide
theorem test_decode_subc : decodes [0x96#8, 0x56#8] (.subc .r5 .r6) = true := by decide
theorem test_decode_move : decodes [0x98#8, 0x9F#8] (.move .pdata .status) = true := by decide
theorem test_decode_and : decodes [0x99#8, 0x33#8] (.and .r3 .r3) = true := by decide
theorem test_decode_or : decodes [0x9A#8, 0xDC#8] (.or .ecscw .ecscr) = true := by decide
theorem test_decode_xor : decodes [0x9B#8, 0xAB#8] (.xor .c0 .c1) = true := by decide
theorem test_decode_load : decodes [0xA2#8, 0x5A#8] (.load .r5 .rp1 0xA#4) = true := by decide
theorem test_decode_store : decodes [0xAC#8, 0x81#8] (.store .rp2 0x1#4 .ecdata) = true := by decide
theorem test_decode_shll : decodes [0x81#8, 0x51#8] (.shll .r5 1#3) = true := by decide
theorem test_decode_rotr : decodes [0x82#8, 0x57#8] (.rotr .r5 7#3) = true := by decide
theorem test_decode_test : decodes [0x88#8, 0xC1#8] (.test .ecscr 1#3) = true := by decide
theorem test_decode_clear : decodes [0x89#8, 0xF3#8] (.clear .status 3#3) = true := by decide
theorem test_decode_set : decodes [0x8A#8, 0xE4#8] (.set .pcon 4#3) = true := by decide
theorem test_decode_rotl : decodes [0x8C#8, 0x53#8] (.rotl .r5 3#3) = true := by decide
theorem test_decode_shlr : decodes [0x93#8, 0x51#8] (.shlr .r5 1#3) = true := by decide
theorem test_decode_shal : decodes [0x95#8, 0x52#8] (.shal .r5 2#3) = true := by decide
theorem test_decode_shar : decodes [0x97#8, 0x57#8] (.shar .r5 7#3) = true := by decide
theorem test_decode_call : decodes [0xC0#8, 0x34#8, 0x12#8] (.call 0x1234#16) = true := by decide
theorem test_decode_jump : decodes [0xC1#8, 0xFF#8, 0x7F#8] (.jump 0x7FFF#16) = true := by decide
theorem test_decode_movei : decodes [0xE6#8, 0x34#8, 0x12#8] (.movei .rp3 0x1234#16) = true := by decide

theorem test_decode_invalid :
    [0x00#8, 0x3F#8, 0x50#8, 0x84#8, 0x86#8, 0x8E#8, 0x91#8, 0x9F#8, 0xD0#8, 0xE8#8, 0xFF#8].all
      (fun b => decode Config.default [b, 0#8, 0#8] == .error .invalidOpcode) = true := by decide
theorem test_decode_unused :
    [[0x41#8], [0x49#8], [0x81#8, 0x59#8], [0xA1#8, 0x00#8], [0xC2#8, 0x00#8, 0x00#8], [0xE1#8, 0x00#8, 0x90#8]].all
      (fun b => decode Config.default b == .error .unusedBits) = true := by decide
theorem test_decode_short : decode Config.default [0xC0#8, 0x34#8] = .error .short := by decide

/-- The table numbers a word with byte 0 most significant; the words of JUMP, ADD and RESET as it writes them. -/
theorem test_table_words :
    decodeTableWord 24 0xC13412 = some (.jump 0x1234#16) ∧ decodeTableWord 16 0x9001 = some (.add .r0 .r1) ∧
      decodeTableWord 8 0x40 = some .reset := by decide

/-- The same with byte 0 least significant, where only that reading has the right length. -/
theorem test_table_words_low_first :
    decodeTableWord 24 0x1234C1 = some (.jump 0x1234#16) ∧ decodeTableWord 16 0x0190 = some (.add .r0 .r1) := by decide

theorem test_fetch_word :
    seen (step (base.withFetchWord 24 0xC13412)) (fun t => t.pc) = some 0x1234#16 := by decide

/-! ### One step of each instruction, from the vectors of 95_test_vectors.md, Part B -/

theorem test_add_wraps : regFlags (.add .r0 .r1) (regs [(.r0, 0xFF#8), (.r1, 0x01#8)]) .r0 = some (0x00#8, true, true) := by decide
theorem test_add_old_carry : regFlags (.add .r0 .r1) (regs [(.status, 0x10#8)]) .r0 = some (0x00#8, false, true) := by decide
theorem test_addc_max : regFlags (.addc .r0 .r1) (regs [(.r0, 0xFF#8), (.r1, 0xFF#8), (.status, 0x10#8)]) .r0 = some (0xFF#8, true, false) := by decide
theorem test_addc_same : regFlags (.addc .r3 .r3) (regs [(.r3, 0x80#8), (.status, 0x10#8)]) .r3 = some (0x01#8, true, false) := by decide
theorem test_sub_borrow : regFlags (.sub .r0 .r1) (regs [(.r0, 0x12#8), (.r1, 0x34#8)]) .r0 = some (0xDE#8, true, false) := by decide
theorem test_sub_same : regFlags (.sub .r3 .r3) (regs [(.r3, 0x37#8)]) .r3 = some (0x00#8, false, true) := by decide
theorem test_subc_not_carry : regFlags (.subc .r0 .r1) (regs [(.r0, 0x34#8), (.r1, 0x12#8)]) .r0 = some (0x21#8, false, false) := by decide
theorem test_subc_deep : regFlags (.subc .r0 .r1) (regs [(.r1, 0xFF#8)]) .r0 = some (0x00#8, true, true) := by decide
theorem test_and_clears_carry : regFlags (.and .r0 .r1) (regs [(.r0, 0xF0#8), (.r1, 0x3C#8), (.status, 0x10#8)]) .r0 = some (0x30#8, false, false) := by decide
theorem test_or_all : regFlags (.or .r0 .r1) (regs [(.r0, 0xF0#8), (.r1, 0x0F#8), (.status, 0x10#8)]) .r0 = some (0xFF#8, false, false) := by decide
theorem test_xor_same : regFlags (.xor .r3 .r3) (regs [(.r3, 0x37#8), (.status, 0x10#8)]) .r3 = some (0x00#8, false, true) := by decide
theorem test_inch_wraps : regFlags (.inch .rp3) (regs [(.r7, 0xFF#8)]) .r7 = some (0x00#8, true, true) := by decide
theorem test_incl_no_carry_out : regFlags (.incl .rp1) (regs [(.r2, 0xFF#8), (.r3, 0x12#8)]) .r3 = some (0x12#8, true, true) := by decide
theorem test_dech_borrow : regFlags (.dech .rp0) (regs []) .r1 = some (0xFF#8, true, false) := by decide
theorem test_decl_zero : regFlags (.decl .rp2) (regs [(.r4, 0x01#8)]) .r4 = some (0x00#8, false, true) := by decide
theorem test_comph_below : regFlags (.comph .rp3 0xFF#8) (regs []) .r7 = some (0x00#8, true, false) := by decide
theorem test_compl_unsigned : regFlags (.compl .rp1 0x7F#8) (regs [(.r2, 0x80#8)]) .r2 = some (0x80#8, false, false) := by decide
theorem test_inc_carries_up : regFlags (.inc .rp0) (regs [(.r0, 0xFF#8)]) .r1 = some (0x01#8, false, false) := by decide
theorem test_inc_wraps : regFlags (.inc .rp1) (regs [(.r2, 0xFF#8), (.r3, 0xFF#8)]) .r3 = some (0x00#8, true, true) := by decide
theorem test_dec_wraps : regFlags (.dec .rp3) (regs []) .r7 = some (0xFF#8, true, false) := by decide
theorem test_dec_low : regFlags (.dec .rp0) (regs [(.r1, 0x01#8)]) .r0 = some (0xFF#8, false, false) := by decide
theorem test_shll_out : regFlags (.shll .r5 1#3) (regs [(.r5, 0x81#8), (.status, 0x18#8)]) .r5 = some (0x02#8, true, true) := by decide
theorem test_shlr_out : regFlags (.shlr .r5 7#3) (regs [(.r5, 0x80#8), (.status, 0x18#8)]) .r5 = some (0x01#8, true, true) := by decide
theorem test_shal_sign : regFlags (.shal .r5 1#3) (regs [(.r5, 0xC1#8), (.status, 0x18#8)]) .r5 = some (0x82#8, true, true) := by decide
theorem test_shar_floor : regFlags (.shar .r5 2#3) (regs [(.r5, 0xF5#8), (.status, 0x18#8)]) .r5 = some (0xFD#8, true, true) := by decide
theorem test_rotl_three : regFlags (.rotl .r5 3#3) (regs [(.r5, 0xB4#8), (.status, 0x10#8)]) .r5 = some (0xA6#8, true, false) := by decide
theorem test_rotl_zero_count : regFlags (.rotl .r5 0#3) (regs [(.r5, 0x01#8), (.status, 0x10#8)]) .r5 = some (0x01#8, true, false) := by decide
theorem test_rotr_three : regFlags (.rotr .r5 3#3) (regs [(.r5, 0xB4#8), (.status, 0x10#8)]) .r5 = some (0x36#8, true, false) := by decide
theorem test_rotr_seven : regFlags (.rotr .r5 7#3) (regs [(.r5, 0x80#8)]) .r5 = some (0x01#8, false, false) := by decide
theorem test_set_status : regFlags (.set .status 4#3) (regs []) .status = some (0x10#8, true, false) := by decide
theorem test_clear_status : regFlags (.clear .status 3#3) (regs [(.status, 0xF8#8)]) .status = some (0xF0#8, true, false) := by decide
theorem test_test_bit_one : regFlags (.test .ecscr 1#3) (regs [(.ecscr, 0x02#8)]) .ecscr = some (0x02#8, false, true) := by decide
theorem test_test_bit_zero : regFlags (.test .r6 3#3) (regs [(.r6, 0xF7#8), (.status, 0x08#8)]) .r6 = some (0xF7#8, false, false) := by decide
theorem test_move_status : regFlags (.move .status .r0) (regs [(.r0, 0x30#8)]) .status = some (0x30#8, true, false) := by decide
theorem test_move_special : regFlags (.move .c1 .c0) (regs [(.c0, 0x07#8)]) .c1 = some (0x07#8, false, false) := by decide
theorem test_movel_low : regFlags (.movel .rp2 0x04#8) (regs [(.r5, 0x99#8)]) .r5 = some (0x99#8, false, false) := by decide
theorem test_moveh_high : regFlags (.moveh .rp1 0xFF#8) (regs [(.r2, 0x11#8)]) .r3 = some (0xFF#8, false, false) := by decide
theorem test_movei_low : regFlags (.movei .rp0 0x9000#16) (regs []) .r0 = some (0x00#8, false, false) := by decide
theorem test_movei_high : regFlags (.movei .rp3 0x1234#16) (regs []) .r7 = some (0x12#8, false, false) := by decide

theorem test_load_base_half :
    seen (exec (.load .r0 .rp0 7#4) (placeBytes [0x77#8] 0xFFFF#16 (regs [(.r0, 0xF8#8), (.r1, 0xFF#8)])))
      (fun t => t.pair .rp0) = some 0xFF77#16 := by decide
theorem test_load_wraps :
    faultOf (exec (.load .r0 .rp0 0xF#4) (regs [(.r0, 0xF8#8), (.r1, 0xFF#8)])) =
      some (.nmi .invalidData 0x0007#16) := by decide
theorem test_store_special :
    seen (exec (.store .rp2 1#4 .ecdata) (regs [(.r4, 0xFF#8), (.r5, 0x80#8), (.ecdata, 0xA5#8)]))
      (fun t => t.byteAt 0x8100#16) = some 0xA5#8 := by decide
theorem test_store_flash :
    faultOf (exec (.store .rp0 0#4 .r2) (regs [(.r1, 0x10#8)])) = some (.nmi .invalidData 0x1000#16) := by decide
theorem test_push_order :
    seen (exec (.push .rp1) (regs [(.r2, 0x34#8), (.r3, 0x12#8)]))
      (fun t => (t.sp, t.byteAt 0xFFFD#16, t.byteAt 0xFFFE#16)) = some (0xFFFD#16, 0x12#8, 0x34#8) := by decide
theorem test_push_low :
    faultOf (exec (.push .rp0) (base.withSp 0x8001#16)) = some (.nmi .stack 0x8001#16) := by decide
theorem test_pop_wraps :
    seen (exec (.pop .rp2) (placeBytes [0x09#8, 0x08#8] 0xFFFE#16 (base.withSp 0xFFFE#16)))
      (fun t => (t.pair .rp2, t.sp)) = some (0x0908#16, 0x0000#16) := by decide
/-- The model's choice (log 23): the words of R183 and not the remark of R184. -/
theorem test_push_after_wrap :
    seen (exec (.push .rp1) ((regs [(.r2, 0x34#8), (.r3, 0x12#8)]).withSp 0x0000#16))
      (fun t => (t.sp, t.byteAt 0xFFFE#16, t.byteAt 0xFFFF#16)) = some (0xFFFE#16, 0x12#8, 0x34#8) := by decide
theorem test_pop_high : faultOf (exec (.pop .rp2) base) = some (.nmi .stack 0xFFFF#16) := by decide

theorem test_br_self : seen (exec (.br 0xFE#8) (regs [(.status, 0x00#8)])) (fun t => t.pc) = some 0x0200#16 := by decide
theorem test_brc_taken : seen (exec (.brc 0x10#8) (regs [(.status, 0x10#8)])) (fun t => t.pc) = some 0x0212#16 := by decide
theorem test_brc_not : seen (exec (.brc 0x10#8) (regs [(.status, 0x08#8)])) (fun t => t.pc) = some 0x0202#16 := by decide
theorem test_brnc_taken : seen (exec (.brnc 0x10#8) (regs [(.status, 0x08#8)])) (fun t => t.pc) = some 0x0212#16 := by decide
theorem test_brnc_not : seen (exec (.brnc 0x10#8) (regs [(.status, 0x10#8)])) (fun t => t.pc) = some 0x0202#16 := by decide
theorem test_brz_taken : seen (exec (.brz 0xF0#8) (regs [(.status, 0x08#8)])) (fun t => t.pc) = some 0x01F2#16 := by decide
theorem test_brz_not : seen (exec (.brz 0xF0#8) (regs [(.status, 0x10#8)])) (fun t => t.pc) = some 0x0202#16 := by decide
theorem test_brnz_taken : seen (exec (.brnz 0xF0#8) (regs [(.status, 0x10#8)])) (fun t => t.pc) = some 0x01F2#16 := by decide
theorem test_brnz_not : seen (exec (.brnz 0xF0#8) (regs [(.status, 0x08#8)])) (fun t => t.pc) = some 0x0202#16 := by decide
theorem test_brcz_taken : seen (exec (.brcz 0x05#8) (regs [(.status, 0x18#8)])) (fun t => t.pc) = some 0x0207#16 := by decide
theorem test_brcz_one : seen (exec (.brcz 0x05#8) (regs [(.status, 0x10#8)])) (fun t => t.pc) = some 0x0202#16 := by decide
theorem test_brncz_taken : seen (exec (.brncz 0x05#8) (regs [(.status, 0x00#8)])) (fun t => t.pc) = some 0x0207#16 := by decide
theorem test_brncz_one : seen (exec (.brncz 0x05#8) (regs [(.status, 0x08#8)])) (fun t => t.pc) = some 0x0202#16 := by decide
theorem test_br_policed :
    faultOf (exec (.br 0x80#8) (base.withPc 0x0012#16)) = some (.nmi .invalidBranch 0xFF92#16) := by decide
theorem test_call_pushes :
    seen (exec (.call 0x1234#16) (base.withPc 0x0203#16)) (fun t => (t.pc, t.sp, t.byteAt 0xFFFD#16, t.byteAt 0xFFFE#16)) =
      some (0x1234#16, 0xFFFD#16, 0x02#8, 0x03#8) := by decide
theorem test_call_ram : faultOf (exec (.call 0x8000#16) base) = some (.nmi .invalidBranch 0x8000#16) := by decide
theorem test_jump_top : seen (exec (.jump 0x7FFF#16) base) (fun t => t.pc) = some 0x7FFF#16 := by decide
theorem test_jump_ram : faultOf (exec (.jump 0xFFFF#16) base) = some (.nmi .invalidBranch 0xFFFF#16) := by decide
theorem test_return :
    seen (exec .ret (placeBytes [0x02#8, 0x07#8] 0xFFFD#16 (base.withSp 0xFFFD#16))) (fun t => (t.pc, t.sp)) =
      some (0x0207#16, 0xFFFF#16) := by decide
theorem test_return_policed :
    faultOf (exec .ret (placeBytes [0x90#8, 0x00#8] 0xFFFD#16 (base.withSp 0xFFFD#16))) =
      some (.nmi .invalidBranch 0x9000#16) := by decide
theorem test_reset :
    seen (exec .reset (((regs [(.status, 0xF8#8), (.pcon, 0x25#8), (.r3, 0x77#8)]).withSp 0xFFF1#16).withPort (.pwm 5#4 9#8 3)))
      (fun t => (t.pc, t.sp, t.reg .status, t.reg .pcon, t.port, t.reg .r3)) =
      some (0x0000#16, 0xFFFF#16, 0x00#8, 0x00#8, .idle, 0x77#8) := by decide

/-! ### Fetch, interrupts, ports and the host (B13 to B15) -/

theorem test_fetch_invalid :
    faultOf (step (placeBytes [0x84#8] 0x0202#16 base)) = some (.nmi .invalidOpcode 0x0202#16) := by decide
theorem test_fetch_across_top :
    faultOf (step (placeBytes [0xC0#8] 0x7FFF#16 (base.withPc 0x7FFF#16))) = some (.nmi .invalidFetch 0x8000#16) := by decide
theorem test_interrupt_taken :
    seen (step (((regs [(.status, 0x20#8)]).withPc 0x0209#16).withIrq ⟨true, false, false⟩))
      (fun t => (t.pc, t.sp, t.byteAt 0xFFFD#16, t.byteAt 0xFFFE#16, t.irq.timer, t.reg .status)) =
      some (0x000A#16, 0xFFFD#16, 0x02#8, 0x09#8, false, 0x20#8) := by decide
theorem test_interrupt_stack :
    faultOf (step (((regs [(.status, 0x20#8)]).withSp 0x8001#16).withIrq ⟨true, false, false⟩)) =
      some (.nmi .stack 0x8001#16) := by decide
theorem test_adc_starts :
    seen (exec (.set .pcon 4#3) (regs [(.pcon, 0x03#8)])) (fun t => (t.reg .pcon, t.port == .idle)) =
      some (0x13#8, false) := by decide
theorem test_dow :
    seen (exec (.set .pcon 6#3) (regs [(.pdata, 0x5A#8)])) (fun t => (t.dout, t.reg .pcon, t.reg .pdata)) =
      some (0x5A#8, 0x00#8, 0x5A#8) := by decide
theorem test_port_cancel :
    refusalOf (exec (.clear .pcon 4#3) ((regs [(.pcon, 0x13#8)]).withPort (.adc 3#4 2))) = some .portCancel := by decide
theorem test_channel_with_start :
    seen (exec (.move .pcon .r0) (regs [(.r0, 0x11#8)])) (fun t => t.pdataUndefined) = some true := by decide
theorem test_host_command :
    (act (.hostWriteCommand 0x80#8) base).regs.ecscr = 0x0A#8 ∧ (act (.hostWriteCommand 0x80#8) base).regs.ecscw = 0x80#8 :=
  by decide
theorem test_host_data :
    (act (.hostWriteData 0x12#8) (regs [(.ecscr, 0x08#8)])).regs.ecscr = 0x02#8 := by decide
theorem test_host_read :
    (act .hostReadData (regs [(.ecdata, 0x77#8), (.ecscr, 0x01#8)])).hostRead = 0x77#8 ∧
      (act .hostReadData (regs [(.ecdata, 0x77#8), (.ecscr, 0x01#8)])).regs.ecscr = 0x00#8 := by decide

/-! ### Witnesses: for each statement with hypotheses, a state and operands that meet them, clause by clause -/

/-- `base` with bytes placed where the next instruction is fetched. -/
def prog (b : List Byte) : State := placeBytes b 0x0202#16 base

/-- `base` on a part with half the program memory and a quarter of the data memory (R5). -/
def smallPart : State :=
  { base with config := { testConfig with flashTop := 0x3FFF#16, ramTop := 0x9FFF#16 }, policing := false }

/-- `base` with one interrupt enabled and every request pending. -/
def pendingAll (status : Byte) : State := (regs [(.status, status)]).withIrq ⟨true, true, true⟩

theorem witness_DecodeReadsBackEncode : Config.default.wellFormed = true := by decide

theorem witness_DecodedBytesAreTheEncoding :
    Config.default.wellFormed = true ∧ Config.default.unusedBits ≠ .ignore ∧
      decode Config.default [0xC1#8, 0xFF#8, 0x7F#8] = .ok (.jump 0x7FFF#16) := by decide

theorem witness_FirstBitsGiveTheLength :
    Config.default.wellFormed = true ∧ prefixLength 0x00#8 = 0 ∧ prefixLength 0x3F#8 = 0 ∧
      decodeHead Config.default 0x40#8 = .ok (.one .reset) ∧ decodeHead Config.default 0xC0#8 = .ok .call := by decide

theorem witness_UnusedBitsFollowTheParameter :
    [UnusedBits.refuse, .invalid, .ignore].all (fun u =>
      let c := { Config.default with unusedBits := u }
      c.wellFormed && [(Instr.reset, [0x47#8]), (.load .r5 .rp1 0xA#4, [0xA3#8, 0x5A#8]), (.shll .r5 1#3, [0x81#8, 0x59#8]),
        (.call 0x1234#16, [0xCE#8, 0x34#8, 0x12#8]), (.movei .rp0 0x9000#16, [0xE1#8, 0x00#8, 0x90#8])].all (fun e =>
        e.2.length == e.1.length && List.zipWith (fun b m => b &&& ~~~m) e.2 (unusedBitsOf e.1) == encode c e.1 &&
          e.2 != encode c e.1)) = true := by decide

theorem witness_BranchOffsetReachesTheTarget :
    branchOffset 0x0200#16 0x0281#16 = some 0x7F#8 ∧ branchOffset 0x0200#16 0x0182#16 = some 0x80#8 ∧
      branchOffset 0x0200#16 0x0282#16 = none ∧ branchOffset 0x0200#16 0x0181#16 = none := by decide

theorem witness_StepRunsTheDecodedInstruction :
    let s := prog [0xC1#8, 0xFF#8, 0x7F#8]
    (boundary s).nextIrq = none ∧ (boundary s).config.wellFormed = true ∧
      (∀ k, k < 3 → (boundary s).fetchCheck ((boundary s).pc + BitVec.ofNat 16 k) = .pass ∧
        inSmbZone ((boundary s).pc + BitVec.ofNat 16 k) = false) ∧
      decode (boundary s).config
        ((List.range 3).map (fun k => (boundary s).byteAt ((boundary s).pc + BitVec.ofNat 16 k))) =
        .ok (.jump 0x7FFF#16) := by decide

/-- Byte 0, 1 and 2 beyond `FLASH_TOP` in turn. -/
theorem witness_BadFetchRaisesTheNmi :
    (let b := boundary (base.withPc 0x8000#16);
      b.nextIrq = none ∧ b.policing = true ∧ b.config.flashTop < b.pc + BitVec.ofNat 16 0) ∧
    (let b := boundary (placeBytes [0xC0#8] 0x7FFF#16 (base.withPc 0x7FFF#16));
      b.nextIrq = none ∧ decodeHead b.config (b.byteAt b.pc) = .ok .call ∧ 1 ≤ Head.call.extra ∧
        (∀ j, j < 1 → b.fetchCheck (b.pc + BitVec.ofNat 16 j) = .pass ∧ inSmbZone (b.pc + BitVec.ofNat 16 j) = false) ∧
        b.policing = true ∧ b.config.flashTop < b.pc + BitVec.ofNat 16 1) ∧
    (let b := boundary (placeBytes [0xC0#8, 0x34#8] 0x7FFE#16 (base.withPc 0x7FFE#16));
      b.nextIrq = none ∧ decodeHead b.config (b.byteAt b.pc) = .ok .call ∧ 2 ≤ Head.call.extra ∧
        (∀ j, j < 2 → b.fetchCheck (b.pc + BitVec.ofNat 16 j) = .pass ∧ inSmbZone (b.pc + BitVec.ofNat 16 j) = false) ∧
        b.policing = true ∧ b.config.flashTop < b.pc + BitVec.ofNat 16 2) := by decide

/-- The same with policing off, on the part with less memory: byte 0 and byte 1 not implemented. -/
theorem witness_BadFetchRaisesTheNmi_open :
    (let b := boundary (smallPart.withPc 0x4000#16);
      b.nextIrq = none ∧ b.policing = false ∧ b.implemented (b.pc + BitVec.ofNat 16 0) = false) ∧
    (let b := boundary (placeBytes [0x80#8] 0x9FFF#16 (smallPart.withPc 0x9FFF#16));
      b.nextIrq = none ∧ decodeHead b.config (b.byteAt b.pc) = .ok (.dfh .br) ∧ 1 ≤ (Head.dfh .br).extra ∧
        (∀ j, j < 1 → b.fetchCheck (b.pc + BitVec.ofNat 16 j) = .pass ∧ inSmbZone (b.pc + BitVec.ofNat 16 j) = false) ∧
        b.policing = false ∧ b.implemented (b.pc + BitVec.ofNat 16 1) = false) := by decide

theorem witness_BadFetchRaisesTheNmi_opcode :
    (let b := boundary (placeBytes [0xE8#8] 0x7FFF#16 (base.withPc 0x7FFF#16));
      b.nextIrq = none ∧ b.fetchCheck b.pc = .pass ∧ inSmbZone b.pc = false ∧
        decodeHead b.config (b.byteAt b.pc) = .error .invalidOpcode) ∧
    (let b := boundary (placeBytes [0xCE#8] 0x7FFF#16 (base.withPc 0x7FFF#16));
      b.nextIrq = none ∧ b.fetchCheck b.pc = .pass ∧ inSmbZone b.pc = false ∧
        decodeHead b.config (b.byteAt b.pc) = .error .unusedBits) := by decide

/-- An unused bit of byte 1 set, under each setting of `UNUSED_BITS`. -/
theorem witness_BadFetchRaisesTheNmi_unused :
    [UnusedBits.refuse, .invalid, .ignore].all (fun u =>
      let b := boundary { prog [0x81#8, 0x59#8] with config := { testConfig with unusedBits := u } }
      let i := Instr.shll .r5 1#3
      let bytes := [0x81#8, 0x59#8]
      b.nextIrq == none && b.config.wellFormed && bytes.length == i.length &&
        List.zipWith (fun x m => x &&& ~~~m) bytes (unusedBitsOf i) == encode b.config i && bytes != encode b.config i &&
        (List.range i.length).all (fun j => b.fetchCheck (b.pc + BitVec.ofNat 16 j) == .pass &&
          !inSmbZone (b.pc + BitVec.ofNat 16 j)) &&
        (List.range i.length).map (fun j => b.byteAt (b.pc + BitVec.ofNat 16 j)) == bytes) = true := by decide

theorem witness_PairIsOddHighEvenLow : Pair.rp1 ≠ Pair.rp0 := by decide

theorem witness_FlaggedInstructionsComplete :
    Reg.pcon ≠ .status ∧ (Reg.pcon = .pcon → controlOf ((regs [(.pcon, 0x0F#8)]).reg .pcon) = 0x00#8) := by decide

theorem witness_PlainInstructionsComplete :
    (Reg.pcon = .pcon → controlOf (base.reg .pcon) = 0x00#8) ∧
      readable (regs [(.r1, 0x80#8)]) ((regs [(.r1, 0x80#8)]).effAddr .rp0 0#4) = true ∧
      readable (regs [(.r0, 0xF0#8), (.r1, 0xFF#8)]) ((regs [(.r0, 0xF0#8), (.r1, 0xFF#8)]).effAddr .rp0 15#4) = true := by
  decide

/-- For ADD, ADDC, SUB, SUBC, AND, OR, XOR, ROTL, ROTR: both destinations, and one operand named twice. -/
theorem witness_destinations : Reg.status = .status ∧ Reg.pcon ≠ .status ∧ Reg.r7 = .r7 := by decide

theorem witness_SubcBorrowIn :
    base.config.subcBorrowIn = .notCarry ∧
      { base with config := { testConfig with subcBorrowIn := .carry } }.config.subcBorrowIn = .carry := by decide

theorem witness_AddThenAddcAddsPairs :
    Pair.rp0 ≠ .rp1 ∧ ∃ t u, exec (.add .r0 .r2) (regs [(.r0, 0xFF#8), (.r2, 0x01#8)]) = .next t ∧
      exec (.addc .r1 .r3) t = .next u :=
  ⟨by decide, _, _, rfl, rfl⟩

theorem witness_SubThenSubcSubtractsPairs :
    let s := { base with config := { testConfig with subcBorrowIn := .carry } }
    Pair.rp0 ≠ .rp1 ∧ s.config.subcBorrowIn = .carry ∧
      ∃ t u, exec (.sub .r0 .r2) s = .next t ∧ exec (.subc .r1 .r3) t = .next u :=
  ⟨by decide, rfl, _, _, rfl, rfl⟩

/-- The addresses 8000h and FFFFh may be read, 8200h and 82FFh lie in the SMB zone, 7FFFh may not be read. -/
theorem witness_LoadReadsTheEffectiveAddress :
    (readable base 0x8000#16 = true ∧ inSmbZone 0x8000#16 = false) ∧
      (readable base 0xFFFF#16 = true ∧ inSmbZone 0xFFFF#16 = false) ∧
      (readable base 0x8200#16 = true ∧ inSmbZone 0x8200#16 = true ∧ inSmbZone 0x82FF#16 = true ∧
        inSmbZone 0x81FF#16 = false ∧ inSmbZone 0x8300#16 = false) ∧
      (readable base 0x7FFF#16 = false ∧ base.policing = true) ∧
      (readable smallPart 0x3FFF#16 = true ∧ readable smallPart 0x4000#16 = false ∧
        readable smallPart 0x9FFF#16 = true ∧ readable smallPart 0xA000#16 = false ∧ smallPart.policing = false) := by
  decide

theorem witness_StoreWritesTheEffectiveAddress :
    (base.inRam 0x8000#16 = true ∧ base.inRam 0xFFFF#16 = true) ∧ (base.inRam 0x7FFF#16 = false ∧ base.policing = true) ∧
      (smallPart.inRam 0x3FFF#16 = false ∧ storeRefusal smallPart 0x3FFF#16 = .flashStore 0x3FFF#16) ∧
      (smallPart.inRam 0xA000#16 = false ∧ storeRefusal smallPart 0xA000#16 = .unimplementedAddress 0xA000#16) := by
  decide

theorem witness_PushStoresHighByteLower :
    pushRoom base = true ∧ pushRoom (base.withSp 0x8002#16) = true ∧ pushRoom (base.withSp 0x0000#16) = true ∧
      (pushRoom (base.withSp 0x8001#16) = false ∧ (base.withSp 0x8001#16).policing = true) ∧
      (pushRoom (smallPart.withSp 0xA001#16) = false ∧ (smallPart.withSp 0xA001#16).policing = false) := by decide

theorem witness_PopLoadsThePair :
    (popRoom (base.withSp 0xFFFE#16) = true ∧ inSmbZone 0xFFFE#16 = false ∧ inSmbZone 0xFFFF#16 = false) ∧
      popRoom (base.withSp 0x8000#16) = true ∧ (popRoom base = false ∧ base.policing = true) ∧
      (popRoom (smallPart.withSp 0x9FFF#16) = false ∧ smallPart.policing = false) := by decide

theorem witness_PopUndoesPush :
    pushRoom base = true ∧ inSmbZone (base.sp - 2#16) = false ∧ inSmbZone (base.sp - 1#16) = false ∧
      ∃ t, exec (.push .rp1) base = .next t :=
  ⟨by decide, by decide, by decide, _, rfl⟩

/-- Branches: every pair of flags, taken within program memory, taken out of it, not taken. -/
theorem witness_BranchesFollowTheFlags :
    [0x00#8, 0x08#8, 0x10#8, 0x18#8].map (fun b => (bitOf b 4, bitOf b 3)) =
        [(false, false), (false, true), (true, false), (true, true)] ∧
      targetOk base 0x7FFF#16 = true ∧ targetOk base 0x8000#16 = false ∧ targetOk open_ 0x8000#16 = true := by decide

theorem witness_CallPushesTheReturnAddress :
    targetOk base 0x8000#16 = false ∧ targetOk base 0x7FFF#16 = true ∧ pushRoom base = true ∧
      (pushRoom (base.withSp 0x8001#16) = false ∧ (base.withSp 0x8001#16).policing = true) ∧
      (targetOk (smallPart.withSp 0xA002#16) 0xFFFF#16 = true ∧ pushRoom (smallPart.withSp 0xA002#16) = false ∧
        (smallPart.withSp 0xA002#16).policing = false) := by decide

theorem witness_JumpSetsThePc : targetOk base 0x7FFF#16 = true ∧ targetOk base 0x8000#16 = false := by decide

theorem witness_ReturnPopsThePc :
    (popRoom (base.withSp 0x81FE#16) = true ∧ inSmbZone 0x81FE#16 = false ∧ inSmbZone 0x81FF#16 = false) ∧
      (popRoom (base.withSp 0x81FF#16) = true ∧ inSmbZone 0x81FF#16 = false ∧ inSmbZone 0x8200#16 = true) ∧
      (popRoom (base.withSp 0x82FF#16) = true ∧ inSmbZone 0x82FF#16 = true ∧ inSmbZone 0x8300#16 = false) ∧
      popRoom (base.withSp 0x8200#16) = true ∧ (popRoom base = false ∧ base.policing = true) ∧
      (popRoom (smallPart.withSp 0x3FFF#16) = false ∧ smallPart.policing = false) ∧
      targetOk base 0x0000#16 = true ∧ targetOk base 0xFFFF#16 = false := by decide

theorem witness_ReturnUndoesCall :
    targetOk base base.pc = true ∧ targetOk base 0x7FFF#16 = true ∧ pushRoom base = true ∧
      inSmbZone (base.sp - 2#16) = false ∧ inSmbZone (base.sp - 1#16) = false ∧
      ∃ t, exec (.call 0x7FFF#16) base = .next t :=
  ⟨by decide, by decide, by decide, by decide, by decide, _, rfl⟩

theorem witness_NmiFaultsOrEnters :
    let e := { base with config := { testConfig with nmiMode := .enter } }
    base.config.nmiMode = .fault ∧ (e.config.nmiMode = .enter ∧ pushRoom e = true) ∧
      (e.config.nmiMode = .enter ∧ pushRoom (e.withSp 0x8001#16) = false) := by decide

theorem witness_InterruptIsTheWholeStep :
    ((boundary (pendingAll 0xE0#8)).nextIrq = some .timer ∧ pushRoom (boundary (pendingAll 0xE0#8)) = true) ∧
      (boundary (pendingAll 0x40#8)).nextIrq = some .smb ∧
      ((boundary ((pendingAll 0x80#8).withSp 0x8001#16)).nextIrq = some .acpi ∧
        pushRoom (boundary ((pendingAll 0x80#8).withSp 0x8001#16)) = false ∧
        (boundary ((pendingAll 0x80#8).withSp 0x8001#16)).policing = true) ∧
      (let b := boundary (((pendingAll 0x80#8).withSp 0x8001#16).withPolicing false);
        b.nextIrq = some .acpi ∧ pushRoom b = false ∧ b.policing = false) := by decide

theorem witness_PriorityIsTimerSmbAcpi :
    base.config.wellFormed = true ∧ base.config.irqOrder = [.timer, .smb, .acpi] ∧ base.config.acpiIrq = .event ∧
      { base with config := { testConfig with acpiIrq := .levelIbf } }.config.acpiIrq = .levelIbf ∧
      ((pendingAll 0xE0#8).irqEnabled .timer = true ∧ (pendingAll 0xE0#8).irqPending .timer = true) ∧
      ((pendingAll 0xC0#8).irqRequested .timer = false ∧ (pendingAll 0xC0#8).irqEnabled .smb = true ∧
        (pendingAll 0xC0#8).irqPending .smb = true) ∧
      ((pendingAll 0x80#8).irqRequested .timer = false ∧ (pendingAll 0x80#8).irqRequested .smb = false ∧
        (pendingAll 0x80#8).irqEnabled .acpi = true ∧ (pendingAll 0x80#8).irqPending .acpi = true) := by decide

theorem witness_PconWriteThatStartsNothing :
    controlOf ((regs [(.pcon, 0x13#8)]).reg .pcon &&& ~~~0x03#8) ≠ 0x00#8 ∧
      controlOf 0x1F#8 = controlOf ((regs [(.pcon, 0x13#8)]).reg .pcon) := by decide

/-- For the digital ports, the ADC and the PWM: no operation in progress, on the first and on the last channel. -/
theorem witness_PortIdle :
    controlOf (base.reg .pcon) = 0x00#8 ∧ controlOf ((regs [(.pcon, 0x0F#8)]).reg .pcon) = 0x00#8 := by decide

theorem witness_AdcConvertsTheChannel : (base.withPort (.adc 15#4 0)).port = .adc 15#4 0 := rfl

theorem witness_PwmWritesTheLatch : (base.withPort (.pwm 15#4 0x40#8 0)).port = .pwm 15#4 0x40#8 0 := rfl

/-- INC executed beside a port operation with `n` more boundaries to go. -/
def busy (pcon : Byte) (x : PortBusy) : State := ((prog [0x60#8]).putReg .pcon pcon).withPort x

theorem busy_leavesPortsAlone (pcon : Byte) (x : PortBusy)
    (hx : ∃ u, fetch (boundary (busy pcon x)) = .instr (.inc .rp0) u) : LeavesPortsAlone (busy pcon x) := by
  refine ⟨fun a ha => absurd ha (by simp [busy, prog, placeBytes, base]), fun _ i u h => ?_⟩
  obtain ⟨v, hv⟩ := hx
  rw [hv] at h
  cases h
  exact ⟨by decide, by decide⟩

/-- For the ADC, the PWM and several operations: a step that leaves them alone, at the last boundary and before it. -/
theorem witness_LeavesPortsAlone :
    (LeavesPortsAlone (busy 0x1F#8 (.adc 15#4 0)) ∧ ∃ t, step (busy 0x1F#8 (.adc 15#4 0)) = .next t) ∧
      (LeavesPortsAlone (busy 0x10#8 (.adc 0#4 1)) ∧ ∃ t, step (busy 0x10#8 (.adc 0#4 1)) = .next t) ∧
      (LeavesPortsAlone (busy 0x2F#8 (.pwm 15#4 0x40#8 0)) ∧ ∃ t, step (busy 0x2F#8 (.pwm 15#4 0x40#8 0)) = .next t) ∧
      (LeavesPortsAlone (busy 0x20#8 (.pwm 0#4 0x40#8 1)) ∧ ∃ t, step (busy 0x20#8 (.pwm 0#4 0x40#8 1)) = .next t) ∧
      (LeavesPortsAlone (busy 0x30#8 (.several 0)) ∧ ∃ t, step (busy 0x30#8 (.several 0)) = .next t) ∧
      (LeavesPortsAlone (busy 0x30#8 (.several 1)) ∧ ∃ t, step (busy 0x30#8 (.several 1)) = .next t) :=
  ⟨⟨busy_leavesPortsAlone _ _ ⟨_, rfl⟩, _, rfl⟩, ⟨busy_leavesPortsAlone _ _ ⟨_, rfl⟩, _, rfl⟩,
    ⟨busy_leavesPortsAlone _ _ ⟨_, rfl⟩, _, rfl⟩, ⟨busy_leavesPortsAlone _ _ ⟨_, rfl⟩, _, rfl⟩,
    ⟨busy_leavesPortsAlone _ _ ⟨_, rfl⟩, _, rfl⟩, ⟨busy_leavesPortsAlone _ _ ⟨_, rfl⟩, _, rfl⟩⟩

theorem witness_CarelessStartsSpoilPdata_several : (busy 0x30#8 (.several 0)).port = .several 0 := rfl

theorem witness_CarelessStartsSpoilPdata :
    (controlOf (base.reg .pcon &&& ~~~0xC0#8) = 0x00#8 ∧ controlOf (0xC0#8 &&& ~~~(base.reg .pcon)) ≠ 0x00#8 ∧
        soleOp (controlOf (0xC0#8 &&& ~~~(base.reg .pcon))) = none) ∧
      (controlOf (base.reg .pcon &&& ~~~0x11#8) = 0x00#8 ∧ channelOf 0x11#8 ≠ channelOf (base.reg .pcon)) ∧
      (controlOf ((regs [(.pcon, 0x13#8)]).reg .pcon &&& ~~~0x33#8) = 0x00#8 ∧
        controlOf (0x33#8 &&& ~~~((regs [(.pcon, 0x13#8)]).reg .pcon)) ≠ 0x00#8 ∧
        controlOf ((regs [(.pcon, 0x13#8)]).reg .pcon) ≠ 0x00#8 ∧ bitOf 0x33#8 7 = false ∧ bitOf 0x33#8 6 = false) ∧
      (soleOp (controlOf (0x11#8 &&& ~~~(base.reg .pcon))) = some .adc ∧
        soleOp (controlOf (0x2F#8 &&& ~~~(base.reg .pcon))) = some .pwm ∧
        soleOp (controlOf (0x8F#8 &&& ~~~(base.reg .pcon))) = some .dir ∧
        soleOp (controlOf (0x41#8 &&& ~~~(base.reg .pcon))) = some .dow) ∧
      (bitOf 0x8F#8 6 = false ∧ bitOf 0x11#8 5 = false ∧ (7 : Fin 16).val ≠ (channelOf (base.reg .pcon)).toNat ∧
        (7 : Fin 16).val ≠ (channelOf 0x2F#8).toNat ∧ base.port = .idle) := by decide

theorem witness_HostWritesSetIbf :
    base.config.acpiIrq = .event ∧ { base with config := { testConfig with acpiIrq := .levelIbf } }.config.acpiIrq = .levelIbf ∧
      (regs [(.status, 0x80#8)]).irqEnabled .acpi = true := by decide

theorem witness_EnvironmentActionsDoTheirWork :
    (base.withArrivals [[.hostReadData, .timerTick], [.smbEvent]]).arrivals =
        ([EnvAction.hostReadData] ++ [.timerTick]) :: [[.smbEvent]] ∧
      base.timerWait = 0 ∧ (base.withTimerWait 1).timerWait ≠ 0 ∧ EnvAction.timerTick ∉ base.arrivals.headD [] ∧
      (busy 0x1F#8 (.adc 15#4 3)).port = .adc 15#4 3 ∧ base.port = .idle ∧
      (busy 0x20#8 (.pwm 0#4 0x40#8 3)).port = .pwm 0#4 0x40#8 3 := by decide

theorem witness_SciFollowsEcscrWrites : base.sci = false ∧ ∃ t, base.writeReg .ecscr 0x20#8 = .ok t :=
  ⟨rfl, _, rfl⟩

theorem witness_OtherAgentsLeaveTheProgramAlone :
    EnvAction.deviceReset ∉ (base.withArrivals [[.timerTick, .hostReadData]]).arrivals.headD [] := by decide

theorem witness_StepKeepsTheInvariant :
    Inv (prog [0x69#8]) ∧ ∃ t, step (prog [0x69#8]) = .next t := by
  refine ⟨⟨by decide, by decide, ?_, rfl⟩, ⟨_, rfl⟩⟩
  unfold CellsPlaced
  decide

theorem witness_NoStepWritesProgramMemory :
    (prog [0x69#8]).config.wellFormed = true ∧ 0x7FFF#16 ≤ (prog [0x69#8]).config.flashTop ∧
      ∃ t, step (prog [0x69#8]) = .next t :=
  ⟨by decide, by decide, _, rfl⟩

theorem witness_StackPointerKeepsItsParity :
    (prog [0x69#8]).sp.toNat % 2 = (prog [0x69#8]).config.ramTop.toNat % 2 ∧
      ∃ t, step (prog [0x69#8]) = .next t :=
  ⟨by decide, _, rfl⟩

/-! ### The end of a run (R293) -/

theorem test_end : AtEnd (prog [0x80#8, 0xFE#8]) :=
  ⟨⟨by decide, by decide⟩, fun x => .inl (by cases x <;> decide)⟩

/-- An interrupt that is enabled and does not arrive; the same interrupt pending, and scheduled. -/
theorem test_end_enabled : AtEnd ((prog [0x80#8, 0xFE#8]).putReg .status 0x20#8) :=
  ⟨⟨by decide, by decide⟩, fun x => .inr ⟨by cases x <;> decide, by cases x <;> decide⟩⟩
theorem test_end_pending : ¬ AtEnd (((prog [0x80#8, 0xFE#8]).putReg .status 0x20#8).withIrq ⟨true, false, false⟩) := by
  rintro ⟨-, h⟩
  obtain h | ⟨h, -⟩ := h .timer <;> exact absurd h (by decide)
theorem test_end_scheduled :
    ¬ AtEnd (((prog [0x80#8, 0xFE#8]).putReg .status 0x20#8).withArrivals [[], [.timerTick]]) := by
  rintro ⟨-, h⟩
  obtain h | ⟨-, h⟩ := h .timer
  · exact absurd h (by decide)
  · exact absurd h (by decide)

/-- The two bytes at 8000h, where nothing may be fetched with policing on. -/
theorem test_end_policed : ¬ AtEnd (placeBytes [0x80#8, 0xFE#8] 0x8000#16 (base.withPc 0x8000#16)) := by
  rintro ⟨⟨h, -⟩, -⟩
  exact absurd (h 0 (by decide)).1 (by decide)

theorem test_run_ends : ∃ t, EndsIn 1 (prog [0x60#8, 0x80#8, 0xFE#8]) t :=
  ⟨_, rfl, ⟨by decide, by decide⟩, fun x => .inl (by cases x <;> decide)⟩

end Sys2Proof.Tests
end

