-- ==== Sys2Proof/Proofs/RegisterPairs.lean ====
section
/-! PROOFS. Register pairs (R22): the value of a pair by its halves, and what a write of a half or of a pair changes. -/

namespace Sys2Proof.Machine

theorem State.pair_toNat (s : State) (p : Pair) :
    (s.pair p).toNat = (s.reg p.hi).toNat * 256 + (s.reg p.lo).toNat :=
  joinBytes_toNat (s.reg p.hi) (s.reg p.lo)

theorem State.pair_putReg_lo (s : State) (p : Pair) (b : Byte) :
    (s.putReg p.lo b).pair p = joinBytes (s.reg p.hi) b := by
  have hne : p.hi ≠ p.lo := (pair_halves p).1.symm
  simp only [State.pair, State.putReg_reg_same, State.putReg_reg_other _ _ _ _ hne]

theorem State.pair_putReg_hi (s : State) (p : Pair) (b : Byte) :
    (s.putReg p.hi b).pair p = joinBytes b (s.reg p.lo) := by
  have hne : p.lo ≠ p.hi := (pair_halves p).1
  simp only [State.pair, State.putReg_reg_same, State.putReg_reg_other _ _ _ _ hne]

/-- Two pairs share no register. -/
theorem pair_halves_disjoint {p q : Pair} (h : q ≠ p) : q.lo ∉ [p.hi, p.lo] ∧ q.hi ∉ [p.hi, p.lo] := by
  revert h
  cases p <;> cases q <;> decide

theorem State.pair_putPair_other (s : State) {p q : Pair} (v : Addr) (h : q ≠ p) :
    (s.putPair p v).pair q = s.pair q := by
  obtain ⟨hlo, hhi⟩ := pair_halves_disjoint h
  have frame := Frame.putPair s p v
  simp only [State.pair, frame.regs q.lo hlo, frame.regs q.hi hhi]

/-- Settles O10: the value of a pair is joined from its two halves, and two pairs share no half. -/
theorem pairIsOddHighEvenLow : Obligations.PairIsOddHighEvenLow := by
  refine ⟨⟨rfl, rfl, rfl, rfl, rfl, rfl, rfl, rfl⟩, fun s p v b =>
    ⟨s.pair_toNat p, s.pair_putPair p v, ?writeLow, ?writeHigh, fun _ hq => s.pair_putPair_other v hq⟩⟩
  case writeLow => rw [s.pair_putReg_lo, joinBytes_toNat]
  case writeHigh => rw [s.pair_putReg_hi, joinBytes_toNat]

end Sys2Proof.Machine
end

