-- ==== Sys2Proof/Proofs/HalfArithmetic.lean ====
section
/-! PROOFS. Arithmetic on one half of a pair (R135 to R140): the first byte of an instruction that names a pair, the four
steps by one, and the two compares. -/

namespace Sys2Proof.Machine

/-! ### The first byte of an instruction that names a pair -/

/-- A byte built of an op-code of five bits, a pair and a last bit, as a number: the pair counts twice (R93). -/
theorem pairByte_eq_ofNat (op : BitVec 5) (p : Pair) (last : BitVec 1) :
    pairByte op p last = BitVec.ofNat 8 (op.toNat * 8 + last.toNat + 2 * pairNumber p) := by
  revert op last
  cases p <;> decide

theorem pairByte_eq_bytesB (op : BitVec 5) (p : Pair) (last : BitVec 1) :
    [pairByte op p last] = bytesB (op.toNat * 8 + last.toNat) p := by
  rw [pairByte_eq_ofNat, bytesB]

theorem pairByte_eq_bytesE (op : BitVec 5) (p : Pair) (last : BitVec 1) (imm : Byte) :
    [pairByte op p last, imm] = bytesE (op.toNat * 8 + last.toNat) p imm := by
  rw [pairByte_eq_ofNat, bytesE]

/-! ### INCH, INCL, DECH, DECL -/

theorem exec_inch (p : Pair) (s : State) : exec (.inch p) s = execHalf p.hi (incOut (s.reg p.hi)) s := rfl
theorem exec_incl (p : Pair) (s : State) : exec (.incl p) s = execHalf p.lo (incOut (s.reg p.lo)) s := rfl
theorem exec_dech (p : Pair) (s : State) : exec (.dech p) s = execHalf p.hi (decOut (s.reg p.hi)) s := rfl
theorem exec_decl (p : Pair) (s : State) : exec (.decl p) s = execHalf p.lo (decOut (s.reg p.lo)) s := rfl

theorem incOut_value_toNat (a : Byte) : (incOut a).value.toNat = (a.toNat + 1) % 256 := BitVec.toNat_add a 1#8

theorem decOut_value_toNat (a : Byte) : (decOut a).value.toNat = (a.toNat + 255) % 256 := by
  rw [Nat.add_comm]
  exact BitVec.toNat_sub a 1#8

/-- A half stepped up: it wraps, with C and with Z, exactly from FFh. -/
theorem execHalf_incOut (r : Reg) (hr : r ≠ .status) (s : State) :
    ∃ t, execHalf r (incOut (s.reg r)) s = .next t ∧ (t.reg r).toNat = ((s.reg r).toNat + 1) % 256 ∧
      t.carry = decide (s.reg r = 0xFF#8) ∧ t.zero = decide (s.reg r = 0xFF#8) ∧ StatusKept s t ∧
      Frame [.status, r] s t ∧ t.pc = s.pc := by
  obtain ⟨t, run, value, carry, zero, rest⟩ := execHalf_spec r hr (incOut (s.reg r)) s
  have stepped : (t.reg r).toNat = ((s.reg r).toNat + 1) % 256 := by rw [value, incOut_value_toNat]
  exact ⟨t, run, stepped, carry.trans (beq_eq_decide ..), zero.trans (beq_eq_decide ..), rest⟩

/-- A half stepped down: C on the wrap from 00h, Z from 01h. -/
theorem execHalf_decOut (r : Reg) (hr : r ≠ .status) (s : State) :
    ∃ t, execHalf r (decOut (s.reg r)) s = .next t ∧ (t.reg r).toNat = ((s.reg r).toNat + 255) % 256 ∧
      t.carry = decide (s.reg r = 0x00#8) ∧ t.zero = decide (s.reg r = 0x01#8) ∧ StatusKept s t ∧
      Frame [.status, r] s t ∧ t.pc = s.pc := by
  obtain ⟨t, run, value, carry, zero, rest⟩ := execHalf_spec r hr (decOut (s.reg r)) s
  have stepped : (t.reg r).toNat = ((s.reg r).toNat + 255) % 256 := by rw [value, decOut_value_toNat]
  exact ⟨t, run, stepped, carry.trans (beq_eq_decide ..), zero.trans (beq_eq_decide ..), rest⟩

/-- Settles O19: each of the four is the step up or down of one half, and no half is STATUS. -/
theorem halvesStepByOne : Obligations.HalvesStepByOne := by
  intro p s
  obtain ⟨-, hlo, hhi, -⟩ := pair_halves p
  refine ⟨pairByte_eq_bytesB 0b01111#5 p 1#1, pairByte_eq_bytesB 0b01111#5 p 0#1, pairByte_eq_bytesB 0b01110#5 p 1#1,
    pairByte_eq_bytesB 0b01110#5 p 0#1, ?inch, ?incl, ?dech, ?decl⟩
  case inch => rw [exec_inch]; exact execHalf_incOut p.hi hhi s
  case incl => rw [exec_incl]; exact execHalf_incOut p.lo hlo s
  case dech => rw [exec_dech]; exact execHalf_decOut p.hi hhi s
  case decl => rw [exec_decl]; exact execHalf_decOut p.lo hlo s

/-! ### COMPH, COMPL -/

theorem exec_comph (p : Pair) (imm : Byte) (s : State) : exec (.comph p imm) s = execCompare (s.reg p.hi) imm s := rfl
theorem exec_compl (p : Pair) (imm : Byte) (s : State) : exec (.compl p imm) s = execCompare (s.reg p.lo) imm s := rfl

/-- A compare is unsigned: C says below as numbers, Z says equal. -/
theorem execCompare_unsigned (a imm : Byte) (s : State) :
    ∃ t, execCompare a imm s = .next t ∧ t.carry = decide (a.toNat < imm.toNat) ∧ t.zero = decide (a = imm) ∧
      StatusKept s t ∧ Frame [.status] s t ∧ t.pc = s.pc := by
  obtain ⟨t, run, carry, zero, rest⟩ := execCompare_spec a imm s
  exact ⟨t, run, carry.trans (decide_eq_decide.mpr BitVec.lt_def), zero.trans (beq_eq_decide ..), rest⟩

/-- Settles O20: both are the unsigned compare of one half with the immediate. -/
theorem compareSetsTheFlags : Obligations.CompareSetsTheFlags := by
  intro p imm s
  refine ⟨pairByte_eq_bytesE 0b10111#5 p 1#1 imm, pairByte_eq_bytesE 0b10111#5 p 0#1 imm, ?comph, ?compl⟩
  case comph => rw [exec_comph]; exact execCompare_unsigned (s.reg p.hi) imm s
  case compl => rw [exec_compl]; exact execCompare_unsigned (s.reg p.lo) imm s

end Sys2Proof.Machine
end

