-- ==== Sys2Proof/Proofs/HalfMoves.lean ====
section
/-! PROOFS. MOVEH and MOVEL (R171, R172): both are the replacement of one general register by the immediate. -/

namespace Sys2Proof.Machine

theorem exec_moveh (p : Pair) (imm : Byte) (s : State) : exec (.moveh p imm) s = .next (s.putReg p.hi imm) := rfl
theorem exec_movel (p : Pair) (imm : Byte) (s : State) : exec (.movel p imm) s = .next (s.putReg p.lo imm) := rfl

/-- An instruction that only replaces one register writes that register and no other part of the state. -/
theorem next_putReg_spec {res : Result} (r : Reg) (v : Byte) (s : State) (run : res = .next (s.putReg r v)) :
    ∃ t, res = .next t ∧ t.reg r = v ∧ Frame [r] s t ∧ t.pc = s.pc :=
  ⟨s.putReg r v, run, s.putReg_reg_same r v, (Frame.refl s).putReg r v, s.putReg_pc r v⟩

/-- Settles O29: MOVEH replaces the high half, MOVEL the low half. -/
theorem halfMovesWriteTheHalf : Obligations.HalfMovesWriteTheHalf := by
  intro p imm s
  refine ⟨pairByte_eq_bytesE 0b10110#5 p 1#1 imm, pairByte_eq_bytesE 0b10110#5 p 0#1 imm, ?moveh, ?movel⟩
  case moveh => exact next_putReg_spec p.hi imm s (exec_moveh p imm s)
  case movel => exact next_putReg_spec p.lo imm s (exec_movel p imm s)

end Sys2Proof.Machine
end

