-- ==== Sys2Proof/Proofs/HostReads.lean ====
section
/-! PROOFS. The two reads of the host (R263, R264): the status read is a read of ECSCR, and the data read writes only the
byte the host obtains and OBF. -/

namespace Sys2Proof.Machine

/-- Clearing a bit is masking it out. -/
theorem withBit_false (b : Byte) (i : Nat) : withBit b i false = b &&& ~~~(1#8 <<< i) :=
  BitVec.or_zero

theorem act_hostReadStatus (s : State) :
    act .hostReadStatus s = (s.readReg .ecscr).2.withHostRead (s.readReg .ecscr).1 := rfl

theorem act_hostReadData (s : State) :
    act .hostReadData s = (s.withHostRead (s.reg .ecdata)).putReg .ecscr (withBit (s.reg .ecscr) 0 false) := rfl

/-- Settles O52: the status read leaves what a read of ECSCR leaves, and the data read masks OBF out of ECSCR. -/
theorem hostReadsClearObfOnly : Obligations.HostReadsClearObfOnly := by
  intro s
  refine ⟨?statusRead, ?dataRead⟩
  case statusRead =>
    obtain ⟨k, onlyDraws⟩ := s.readReg_state .ecscr
    refine ⟨(s.readReg .ecscr).1, k, s.readReg_shows .ecscr, ?_⟩
    rw [act_hostReadStatus, onlyDraws]
  case dataRead =>
    have obfMask : ~~~(1#8 <<< 0) = 0xFE#8 := by decide
    rw [act_hostReadData, withBit_false, obfMask]

end Sys2Proof.Machine
end

