-- ==== Sys2Proof/Proofs/Encoding.lean ====
section
/-! PROOFS. The encoder and the decoder (R90 to R111), each by its two parts: byte 0 with the head it stands for, and the
bytes after it with the operands. Both directions of the round trip are put together from the two parts. -/

namespace Sys2Proof

/-! ### Fields of a byte -/

@[simp] theorem pairBits_pairOfBits (x : BitVec 2) : pairBits (pairOfBits x) = x := by
  revert x
  decide

/-- A byte is its five leading bits, its Pair field and its last bit (R93). -/
theorem pairByte_fields (b : Byte) : pairByte (b.extractLsb' 3 5) (pairField b) (b.extractLsb' 0 1) = b := by
  unfold pairByte pairField
  rw [pairBits_pairOfBits]
  revert b
  decide

theorem pairByte_high_nibble (op : BitVec 5) (p : Pair) (last : BitVec 1) :
    (pairByte op p last).extractLsb' 4 4 = op.extractLsb' 1 4 := by
  revert op last
  cases p <;> decide

theorem pairField_pairByte (op : BitVec 5) (p : Pair) (last : BitVec 1) : pairField (pairByte op p last) = p := by
  revert op last
  cases p <;> decide

theorem bitOf_three_pairByte (op : BitVec 5) (p : Pair) (last : BitVec 1) :
    bitOf (pairByte op p last) 3 = op.getLsbD 0 := by
  revert op last
  cases p <;> decide

theorem bitOf_zero_pairByte (op : BitVec 5) (p : Pair) (last : BitVec 1) :
    bitOf (pairByte op p last) 0 = last.getLsbD 0 := by
  revert op last
  cases p <;> decide

/-! ### The register specifiers -/

theorem Config.wellFormed_iff (c : Config) :
    c.wellFormed = true ↔ c.memoryOk = true ∧ c.dfhMapOk = true ∧ c.regCodesOk = true ∧ c.irqOrderOk = true := by
  simp only [Config.wellFormed, Bool.and_eq_true, and_assoc]

/-- Usable codes list every register exactly once (R97). -/
theorem regCodes_spec {c : Config} (hc : c.wellFormed = true) :
    c.regCodes.length = 16 ∧ c.regCodes.Nodup ∧ ∀ r, r ∈ c.regCodes := by
  obtain ⟨-, -, hcodes, -⟩ := c.wellFormed_iff.1 hc
  simp only [Config.regCodesOk, Bool.and_eq_true, beq_iff_eq, List.all_eq_true, List.contains_iff_mem] at hcodes
  obtain ⟨len, all⟩ := hcodes
  have nodup : Reg.all.Nodup := by decide
  have perm : Reg.all.Perm c.regCodes := (nodup.subperm all).perm_of_length_le (by rw [len]; decide)
  exact ⟨len, perm.nodup_iff.1 nodup, fun r => all r (by cases r <;> decide)⟩

theorem regOfCode_codeOfReg {c : Config} (hc : c.wellFormed = true) (r : Reg) : regOfCode c (codeOfReg c r) = r := by
  obtain ⟨len, -, all⟩ := regCodes_spec hc
  have lt : c.regCodes.idxOf r < 16 := len ▸ List.idxOf_lt_length_of_mem (all r)
  have idx : (codeOfReg c r).toNat = c.regCodes.idxOf r := by
    rw [codeOfReg, BitVec.toNat_ofNat, Nat.mod_eq_of_lt lt]
  rw [regOfCode, idx, List.getD_eq_getElem _ _ (len ▸ lt), List.getElem_idxOf]

theorem codeOfReg_regOfCode {c : Config} (hc : c.wellFormed = true) (x : BitVec 4) : codeOfReg c (regOfCode c x) = x := by
  obtain ⟨len, nodup, -⟩ := regCodes_spec hc
  have lt : x.toNat < c.regCodes.length := len ▸ x.isLt
  rw [regOfCode, codeOfReg, List.getD_eq_getElem _ _ lt, nodup.idxOf_getElem _ lt, BitVec.ofNat_toNat, BitVec.setWidth_eq]

theorem highField_append {c : Config} (hc : c.wellFormed = true) (r : Reg) (low : BitVec 4) :
    highField c (codeOfReg c r ++ low) = r := by
  have high : (codeOfReg c r ++ low).extractLsb' 4 4 = codeOfReg c r := by
    generalize codeOfReg c r = x
    revert x low
    decide
  rw [highField, high, regOfCode_codeOfReg hc]

theorem lowField_append {c : Config} (hc : c.wellFormed = true) (high : BitVec 4) (r : Reg) :
    lowField c (high ++ codeOfReg c r) = r := by
  have low : (high ++ codeOfReg c r).extractLsb' 0 4 = codeOfReg c r := by
    generalize codeOfReg c r = x
    revert x high
    decide
  rw [lowField, low, regOfCode_codeOfReg hc]

/-- A byte after byte 0 is the specifier of its high field and its low four bits. -/
theorem specifier_low_bits {c : Config} (hc : c.wellFormed = true) (b : Byte) :
    codeOfReg c (highField c b) ++ b.extractLsb' 0 4 = b := by
  rw [highField, codeOfReg_regOfCode hc]
  revert b
  decide

theorem bitFormByte_eq (c : Config) (r : Reg) (n : BitVec 3) : bitFormByte c r n = codeOfReg c r ++ (0#1 ++ n) := by
  rw [bitFormByte]
  generalize codeOfReg c r = x
  revert x n
  decide

/-! ### Byte 0 -/

/-- What byte 0 of an instruction says (R111). -/
def Instr.head : Instr → Head
  | .br _ => .dfh .br
  | .brnz _ => .dfh .brnz
  | .brnc _ => .dfh .brnc
  | .brncz _ => .dfh .brncz
  | .brz _ => .dfh .brz
  | .brc _ => .dfh .brc
  | .brcz _ => .dfh .brcz
  | .movel p _ => .movel p
  | .moveh p _ => .moveh p
  | .compl p _ => .compl p
  | .comph p _ => .comph p
  | .add _ _ => .dfh .add
  | .sub _ _ => .dfh .sub
  | .addc _ _ => .dfh .addc
  | .subc _ _ => .dfh .subc
  | .move _ _ => .dfh .move
  | .and _ _ => .dfh .and
  | .or _ _ => .dfh .or
  | .xor _ _ => .dfh .xor
  | .load _ p _ => .load p
  | .store p _ _ => .store p
  | .shll _ _ => .dfh .shll
  | .rotr _ _ => .dfh .rotr
  | .test _ _ => .dfh .test
  | .clear _ _ => .dfh .clear
  | .set _ _ => .dfh .set
  | .rotl _ _ => .dfh .rotl
  | .shlr _ _ => .dfh .shlr
  | .shal _ _ => .dfh .shal
  | .shar _ _ => .dfh .shar
  | .call _ => .call
  | .jump _ => .jump
  | .movei p _ => .movei p
  | i => .one i

/-- Byte 0 of the instructions with a head, unused bits 0; a one-byte instruction whole (R103 to R108). -/
def Head.bytes (c : Config) : Head → List Byte
  | .one i => encode c i
  | .dfh op => [c.dfhByte op]
  | .movel p => [pairByte 0b10110#5 p 0#1]
  | .moveh p => [pairByte 0b10110#5 p 1#1]
  | .compl p => [pairByte 0b10111#5 p 0#1]
  | .comph p => [pairByte 0b10111#5 p 1#1]
  | .load p => [pairByte 0b10100#5 p 0#1]
  | .store p => [pairByte 0b10101#5 p 0#1]
  | .call => [0xC0#8]
  | .jump => [0xC1#8]
  | .movei p => [pairByte 0b11100#5 p 0#1]

theorem Instr.length_eq_extra (i : Instr) : i.length = i.head.extra + 1 := by
  cases i <;> rfl

theorem encode_length (c : Config) (i : Instr) : (encode c i).length = i.length := by
  cases i <;> rfl

/-- An encoding is a first byte and the others. -/
theorem encode_eq_cons (c : Config) (i : Instr) : encode c i = (encode c i).headD 0#8 :: (encode c i).tail := by
  cases i <;> rfl

/-- Byte 0 of an encoding is read back as its head. -/
theorem decodeHead_encode {c : Config} (hc : c.wellFormed = true) (i : Instr) :
    decodeHead c ((encode c i).headD 0#8) = .ok i.head := by
  cases i with
  | reset | ret | call | jump => simp [encode, decodeHead, checkUnused, Instr.head, bitOf]
  | inc | dec | pop | push | decl | dech | incl | inch | movel | moveh | compl | comph | load | store | movei =>
    simp [encode, decodeHead, checkUnused, Instr.head, pairByte_high_nibble, pairField_pairByte, bitOf_three_pairByte,
      bitOf_zero_pairByte]
  | br | brnz | brnc | brncz | brz | brc | brcz | add | sub | addc | subc | move | and | or | xor | shll | rotr | test
  | clear | set | rotl | shlr | shal | shar => exact Machine.decodeHead_dfhByte c hc _

/-! ### The bytes after byte 0 -/

theorem decodeRegForm_regRegByte {c : Config} (hc : c.wellFormed = true) (f : Reg → Reg → Instr) (l r : Reg) :
    decodeRegForm c f (regRegByte c l r) = .ok (f l r) := by
  rw [decodeRegForm, regRegByte, highField_append hc, lowField_append hc]

theorem decodeBitForm_bitFormByte {c : Config} (hc : c.wellFormed = true) (f : Reg → BitVec 3 → Instr) (r : Reg)
    (n : BitVec 3) : decodeBitForm c f (bitFormByte c r n) = .ok (f r n) := by
  have fields : ∀ x : BitVec 4, bitOf (x ++ (0#1 ++ n)) 3 = false ∧ (x ++ (0#1 ++ n)).extractLsb' 0 3 = n := by
    revert n
    decide
  obtain ⟨unused, low⟩ := fields (codeOfReg c r)
  rw [decodeBitForm, bitFormByte_eq, highField_append hc, unused, low]
  rfl

/-- The bytes after byte 0 of an encoding are read back as the operands. -/
theorem decodeTail_encode {c : Config} (hc : c.wellFormed = true) (i : Instr) :
    decodeTail c i.head (encode c i).tail = .ok i := by
  cases i with
  | reset | ret | inc | dec | pop | push | decl | dech | incl | inch => rfl
  | br | brnz | brnc | brncz | brz | brc | brcz | movel | moveh | compl | comph => rfl
  | add | sub | addc | subc | move | and | or | xor => exact decodeRegForm_regRegByte hc _ _ _
  | shll | rotr | test | clear | set | rotl | shlr | shal | shar => exact decodeBitForm_bitFormByte hc _ _ _
  | load r p disp | store p disp r =>
    have low : ∀ x : BitVec 4, (x ++ disp).extractLsb' 0 4 = disp := by
      revert disp
      decide
    simp only [Instr.head, encode, List.tail_cons, decodeTail, highField_append hc, low]
  | call t | jump t | movei _ t => simp only [Instr.head, encode, List.tail_cons, decodeTail, Machine.joinBytes_halves]

/-- Settles O1: byte 0 of an encoding is read back as the head, and the bytes after it as the operands. -/
theorem decodeReadsBackEncode : Obligations.DecodeReadsBackEncode := by
  intro c i hc
  rw [encode_eq_cons]
  simp only [decode, decodeHead_encode hc i, decodeTail_encode hc i]

end Sys2Proof
end

