-- ==== Sys2Proof/Proofs/Decoding.lean ====
section
/-! PROOFS. Decoding inverted (R90, R102, R109, R110): what a byte that decodes is, what the unused bits do, and the first
bytes of the decided map. -/

namespace Sys2Proof

/-! ### Byte 0 that decodes -/

theorem checkUnused_ok_iff (c : Config) {α : Type} (zero : Bool) (k : Except DecodeError α) (x : α) :
    checkUnused c zero k = .ok x ↔ k = .ok x ∧ (zero = true ∨ c.unusedBits = .ignore) := by
  unfold checkUnused
  cases zero <;> cases c.unusedBits <;> simp

theorem prefixLength_eq_nibble (b : Byte) : prefixLength b = (b.extractLsb' 4 4).toNat / 4 := by
  revert b
  decide

/-- Bit 3 and the high nibble of byte 0 are the five bits before its Pair field. -/
theorem pairByte_of_bits {b : Byte} (op : BitVec 5) (last : BitVec 1) (nibble : (b.extractLsb' 4 4).toNat = op.toNat / 2)
    (three : bitOf b 3 = op.getLsbD 0) (zero : bitOf b 0 = last.getLsbD 0) : pairByte op (pairField b) last = b := by
  have five : ∀ x : Byte, (x.extractLsb' 3 5).toNat = (x.extractLsb' 4 4).toNat * 2 + (bitOf x 3).toNat := by decide
  have opBits : ∀ x : BitVec 5, x.toNat = x.toNat / 2 * 2 + (x.getLsbD 0).toNat := by decide
  have one : ∀ x : Byte, x.extractLsb' 0 1 = BitVec.ofBool (bitOf x 0) := by decide
  have lastBit : ∀ x : BitVec 1, x = BitVec.ofBool (x.getLsbD 0) := by decide
  have hop : b.extractLsb' 3 5 = op := BitVec.eq_of_toNat_eq (by rw [five, opBits op, nibble, three])
  have hlast : b.extractLsb' 0 1 = last := by rw [one, zero, ← lastBit]
  have fields := pairByte_fields b
  rwa [hop, hlast] at fields

/-- A first byte that the map gives an operation is the first byte of that operation (R108). -/
theorem dfhByte_of_lookup {c : Config} (hc : c.wellFormed = true) {b : Byte} {op : DfhOp}
    (hb : c.dfhMap.lookup b = some op) : c.dfhByte op = b := by
  obtain ⟨-, hmap, -, -⟩ := c.wellFormed_iff.1 hc
  simp only [Config.dfhMapOk, Bool.and_eq_true, List.all_eq_true, beq_iff_eq] at hmap
  obtain ⟨-, own⟩ := hmap
  obtain ⟨l₁, l₂, split, -⟩ := List.lookup_eq_some_iff.1 hb
  exact (own (b, op) (by simp [split])).1

/-- A first byte and the head it stands for (R90, R102): the length in bits 7..6 is that of the head, the byte is the one
of the encoder unless an unused bit is ignored, and a head that is a whole instruction is one of one byte. -/
structure HeadOf (c : Config) (b : Byte) (h : Head) : Prop where
  length : prefixLength b = h.extra + 1
  bytes : c.unusedBits ≠ .ignore → h.bytes c = [b]
  whole : ∀ i, h = .one i → i.length = 1

/-- A head in the formats with a Pair field (R103 to R105). -/
theorem headOf_pairByte {c : Config} {b : Byte} {h : Head} {op : BitVec 5} {last : BitVec 1}
    (bytes : h.bytes c = [pairByte op (pairField b) last]) (nibble : (b.extractLsb' 4 4).toNat = op.toNat / 2)
    (three : bitOf b 3 = op.getLsbD 0) (zero : c.unusedBits ≠ .ignore → bitOf b 0 = last.getLsbD 0)
    (length : op.toNat / 2 / 4 = h.extra + 1) (whole : ∀ i, h = .one i → i.length = 1) : HeadOf c b h where
  length := by rw [prefixLength_eq_nibble, nibble, length]
  bytes strict := by rw [bytes, pairByte_of_bits op last nibble three (zero strict)]
  whole := whole

/-- Formats a (0100): the one unused field is bits 2..0. -/
theorem headOf_formatA {c : Config} {b : Byte} (nibble : (b.extractLsb' 4 4).toNat = 4)
    (low : c.unusedBits ≠ .ignore → b.extractLsb' 0 3 = 0#3) : HeadOf c b (.one (if bitOf b 3 then .ret else .reset)) := by
  have fields : ∀ x : Byte, (x.extractLsb' 4 4).toNat = 4 → x.extractLsb' 0 3 = 0#3 →
      x = if bitOf x 3 then 0x48#8 else 0x40#8 := by decide
  refine ⟨by rw [prefixLength_eq_nibble, nibble]; rfl, fun strict => ?_, fun i hi => ?_⟩
  · rw [fields b nibble (low strict)]
    cases bitOf b 3 <;> rfl
  · cases hi
    cases bitOf b 3 <;> rfl

/-- Format i (1100): the one unused field is bits 3..1. -/
theorem headOf_formatI {c : Config} {b : Byte} (nibble : (b.extractLsb' 4 4).toNat = 12)
    (mid : c.unusedBits ≠ .ignore → b.extractLsb' 1 3 = 0#3) : HeadOf c b (if bitOf b 0 then .jump else .call) := by
  have fields : ∀ x : Byte, (x.extractLsb' 4 4).toNat = 12 → x.extractLsb' 1 3 = 0#3 →
      x = if bitOf x 0 then 0xC1#8 else 0xC0#8 := by decide
  refine ⟨?_, fun strict => ?_, fun i hi => ?_⟩
  · rw [prefixLength_eq_nibble, nibble]
    cases bitOf b 0 <;> rfl
  · rw [fields b nibble (mid strict)]
    cases bitOf b 0 <;> rfl
  · cases hzero : bitOf b 0 <;> rw [hzero] at hi <;> cases hi

/-- Formats d, f and h (1000, 1001): the byte is one of the map. -/
theorem headOf_dfh {c : Config} (hc : c.wellFormed = true) {b : Byte} {op : DfhOp}
    (nibble : (b.extractLsb' 4 4).toNat = 8 ∨ (b.extractLsb' 4 4).toNat = 9) (hb : c.dfhMap.lookup b = some op) :
    HeadOf c b (.dfh op) where
  length := by rw [prefixLength_eq_nibble]; obtain nibble | nibble := nibble <;> rw [nibble] <;> rfl
  bytes _ := by rw [Head.bytes, dfhByte_of_lookup hc hb]
  whole _ hi := nomatch hi

/-- A first byte that decodes stands for its head: the cases are the formats of R109. -/
theorem headOf_decodeHead {c : Config} (hc : c.wellFormed = true) {b : Byte} {h : Head} (hb : decodeHead c b = .ok h) :
    HeadOf c b h := by
  unfold decodeHead at hb
  simp only [] at hb
  split at hb
  case h_1 nibble =>
    obtain ⟨e, unused⟩ := (checkUnused_ok_iff ..).1 hb
    cases e
    exact headOf_formatA nibble fun strict => by simpa [strict] using unused
  case h_2 nibble | h_3 nibble =>
    cases three : bitOf b 3 <;> cases zero : bitOf b 0 <;> rw [three, zero] at hb <;> cases hb
    all_goals exact headOf_pairByte rfl nibble three (fun _ => zero) (by simp [Head.extra]) (fun _ hi => by cases hi; rfl)
  case h_4 nibble =>
    split at hb <;> cases hb
    exact headOf_dfh hc (.inl nibble) ‹_›
  case h_5 nibble =>
    split at hb <;> cases hb
    exact headOf_dfh hc (.inr nibble) ‹_›
  case h_6 nibble =>
    obtain ⟨e, unused⟩ := (checkUnused_ok_iff ..).1 hb
    have zero (strict : c.unusedBits ≠ .ignore) : bitOf b 0 = false := by simpa [strict] using unused
    cases three : bitOf b 3 <;> rw [three] at e <;> cases e
    · exact headOf_pairByte rfl nibble three zero (by simp [Head.extra]) (fun _ hi => nomatch hi)
    · exact headOf_pairByte rfl nibble three zero (by simp [Head.extra]) (fun _ hi => nomatch hi)
  case h_7 nibble =>
    cases three : bitOf b 3 <;> cases zero : bitOf b 0 <;> rw [three, zero] at hb <;> cases hb
    all_goals exact headOf_pairByte rfl nibble three (fun _ => zero) (by simp [Head.extra]) (fun _ hi => nomatch hi)
  case h_8 nibble =>
    obtain ⟨e, unused⟩ := (checkUnused_ok_iff ..).1 hb
    cases e
    exact headOf_formatI nibble fun strict => by simpa [strict] using unused
  case h_9 nibble =>
    cases three : bitOf b 3 <;> rw [three] at hb
    · obtain ⟨e, unused⟩ := (checkUnused_ok_iff ..).1 hb
      cases e
      exact headOf_pairByte rfl nibble three (fun strict => by simpa [strict] using unused) (by simp [Head.extra])
        (fun _ hi => nomatch hi)
    · cases hb
  case h_10 => cases hb

/-! ### The bytes after a first byte that decodes -/

theorem regRegByte_fields {c : Config} (hc : c.wellFormed = true) (b : Byte) :
    regRegByte c (highField c b) (lowField c b) = b := by
  rw [regRegByte, lowField, codeOfReg_regOfCode hc, specifier_low_bits hc]

theorem bitFormByte_fields {c : Config} (hc : c.wellFormed = true) (b : Byte) (three : bitOf b 3 = false) :
    bitFormByte c (highField c b) (b.extractLsb' 0 3) = b := by
  have low : ∀ x : Byte, bitOf x 3 = false → 0#1 ++ x.extractLsb' 0 3 = x.extractLsb' 0 4 := by decide
  rw [bitFormByte_eq, low b three, specifier_low_bits hc]

theorem decodeBitForm_ok {c : Config} (hc : c.wellFormed = true) {f : Reg → BitVec 3 → Instr} {b : Byte} {i : Instr}
    (h : decodeBitForm c f b = .ok i) :
    ∃ r n, i = f r n ∧ (c.unusedBits ≠ .ignore → bitFormByte c r n = b) := by
  obtain ⟨e, unused⟩ := (checkUnused_ok_iff ..).1 h
  cases e
  exact ⟨_, _, rfl, fun strict => bitFormByte_fields hc b (by simpa [strict] using unused)⟩

/-- Operands that decode have the encoding they were read from, unless an unused bit is ignored (R92). -/
theorem encode_decodeDfh {c : Config} (hc : c.wellFormed = true) (strict : c.unusedBits ≠ .ignore) {op : DfhOp} {b : Byte}
    {i : Instr} (h : decodeDfh c op b = .ok i) : encode c i = [c.dfhByte op, b] := by
  cases op with
  | br | brnz | brnc | brncz | brz | brc | brcz => cases h; rfl
  | add | sub | addc | subc | move | and | or | xor => cases h; simp only [encode, regRegByte_fields hc]
  | shll | rotr | test | clear | set | rotl | shlr | shal | shar =>
    obtain ⟨r, n, rfl, hb⟩ := decodeBitForm_ok hc h
    simp only [encode, hb strict]

theorem encode_decodeTail {c : Config} (hc : c.wellFormed = true) (strict : c.unusedBits ≠ .ignore) {h : Head}
    {rest : List Byte} {i : Instr} (hi : decodeTail c h rest = .ok i) : encode c i = h.bytes c ++ rest.take h.extra := by
  unfold decodeTail at hi
  split at hi
  case h_2 => exact encode_decodeDfh hc strict hi
  case h_12 => cases hi
  all_goals cases hi
  case h_1 => simp [Head.bytes, Head.extra]
  case h_7 | h_8 => simp [encode, Head.bytes, Head.extra, specifier_low_bits hc]
  case h_9 | h_10 | h_11 => simp [encode, Head.bytes, Head.extra]
  all_goals rfl

/-- Operands that decode have the length their head asks for. -/
theorem length_decodeTail {c : Config} {h : Head} {rest : List Byte} {i : Instr} (whole : ∀ j, h = .one j → j.length = 1)
    (hi : decodeTail c h rest = .ok i) : i.length = h.extra + 1 := by
  unfold decodeTail at hi
  split at hi
  case h_1 =>
    cases hi
    exact whole _ rfl
  case h_2 op b _ =>
    cases op with
    | shll | rotr | test | clear | set | rotl | shlr | shal | shar =>
      obtain ⟨e, -⟩ := (checkUnused_ok_iff ..).1 hi
      cases e
      rfl
    | br | brnz | brnc | brncz | brz | brc | brcz | add | sub | addc | subc | move | and | or | xor => cases hi; rfl
  all_goals cases hi
  all_goals rfl

/-- Bytes that decode are a first byte and others, each of which decodes (R111). -/
theorem decode_ok {c : Config} {bytes : List Byte} {i : Instr} (h : decode c bytes = .ok i) :
    ∃ b rest hd, bytes = b :: rest ∧ decodeHead c b = .ok hd ∧ decodeTail c hd rest = .ok i := by
  unfold decode at h
  split at h
  · cases h
  · split at h
    · cases h
    · exact ⟨_, _, _, rfl, ‹_›, h⟩

/-- Settles O2: the first byte is that of its head, and the others those of the operands. -/
theorem decodedBytesAreTheEncoding : Obligations.DecodedBytesAreTheEncoding := by
  intro c bytes i hc strict hi
  obtain ⟨b, rest, h, rfl, hb, hrest⟩ := decode_ok hi
  have head := headOf_decodeHead hc hb
  have whole := encode_decodeTail hc strict hrest
  rw [head.bytes strict] at whole
  rw [whole, length_decodeTail head.whole hrest]
  rfl

/-- Below the high nibble 4 no first byte is an instruction (R90, R110). -/
theorem decodeHead_low_nibble (c : Config) (b : Byte) (low : (b.extractLsb' 4 4).toNat < 4) :
    decodeHead c b = .error .invalidOpcode := by
  unfold decodeHead
  simp only []
  split
  case h_10 => rfl
  all_goals omega

/-- Settles O3: the length in bits 7..6 is that of the head, which is that of the instruction. -/
theorem firstBitsGiveTheLength : Obligations.FirstBitsGiveTheLength := by
  intro c hc
  refine ⟨fun i => ⟨encode_length c i, ?_⟩, fun b hb => ?_, fun b h hb => (headOf_decodeHead hc hb).length⟩
  · rw [(headOf_decodeHead hc (decodeHead_encode hc i)).length, i.length_eq_extra]
  · rw [prefixLength_eq_nibble] at hb
    exact decodeHead_low_nibble c b (by omega)

/-! ### The decided map -/

/-- Settles O4: the 256 first bytes, one by one. -/
theorem invalidOpcodesAreTheListed : Obligations.InvalidOpcodesAreTheListed := by
  unfold Obligations.InvalidOpcodesAreTheListed
  decide

/-- Settles O5: each of the seven words is decoded. -/
theorem specWordsDecode : Obligations.SpecWordsDecode := by
  unfold Obligations.SpecWordsDecode
  decide

end Sys2Proof
end

