-- ==== Sys2Proof/Proofs/UnusedBits.lean ====
section
/-! PROOFS. The unused bits of an instruction (R102): bytes that are an encoding but for unused bits are checked by
UNUSED_BITS, in byte 0 or in byte 1, and read as the instruction otherwise. -/

namespace Sys2Proof

open Machine (unusedBitsOf)

/-- No unused bit is set in the bytes. -/
def unusedClear (bytes masks : List Byte) : Bool := (List.zipWith (fun b m => b &&& m) bytes masks).all (· == 0#8)

theorem unusedClear_single (b m : Byte) : unusedClear [b] [m] = (b &&& m == 0#8) := Bool.and_true _

theorem and_not_zero (b : Byte) : b &&& ~~~0#8 = b := BitVec.and_allOnes

/-- Bytes without an unused bit set are what is left of them with the unused bits cleared. -/
theorem zipWith_unusedClear : ∀ (bytes masks : List Byte), bytes.length = masks.length →
    unusedClear bytes masks = true → List.zipWith (fun b m => b &&& ~~~m) bytes masks = bytes
  | [], _, _, _ => rfl
  | _ :: _, [], len, _ => nomatch len
  | b :: bytes, m :: masks, len, h => by
    simp only [unusedClear, List.zipWith_cons_cons, List.all_cons, Bool.and_eq_true, beq_iff_eq] at h
    obtain ⟨zero, rest⟩ := h
    have kept : b &&& ~~~m = b := by
      apply BitVec.eq_of_getLsbD_eq
      intro k hk
      have bit := congrArg (BitVec.getLsbD · k) zero
      simp only [BitVec.getLsbD_and, BitVec.getLsbD_not, hk, BitVec.getLsbD_zero] at bit ⊢
      cases hb : b.getLsbD k <;> simp_all
    rw [List.zipWith_cons_cons, kept, zipWith_unusedClear bytes masks (by simpa using len) rest]

theorem unusedBitsOf_length (i : Instr) : (unusedBitsOf i).length = i.length := by
  cases i <;> rfl

/-- The error a nonzero unused bit is, if the parameter makes it one (R102). -/
def UnusedBits.error : UnusedBits → Option DecodeError
  | .refuse => some .unusedBits
  | .invalid => some .invalidOpcode
  | .ignore => none

theorem checkUnused_error {c : Config} {e : DecodeError} (he : c.unusedBits.error = some e) {α : Type} {zero : Bool}
    (k : Except DecodeError α) (set : zero = false) : checkUnused c zero k = .error e := by
  unfold checkUnused
  cases hu : c.unusedBits <;> rw [hu] at he <;> cases he <;> simp [set]

theorem checkUnused_ignore {c : Config} (he : c.unusedBits = .ignore) {α : Type} (zero : Bool) (k : Except DecodeError α) :
    checkUnused c zero k = k := by
  simp [checkUnused, he]

theorem checkUnused_clear (c : Config) {α : Type} {zero : Bool} (k : Except DecodeError α) (clear : zero = true) :
    checkUnused c zero k = k := by
  simp [checkUnused, clear]

/-! ### Byte 0 -/

/-- Bit 0 is no part of what the formats g and j read from byte 0. -/
theorem fields_of_masked_bit_zero (b : Byte) : (b &&& ~~~0x01#8).extractLsb' 4 4 = b.extractLsb' 4 4 ∧
    pairField (b &&& ~~~0x01#8) = pairField b ∧ bitOf (b &&& ~~~0x01#8) 3 = bitOf b 3 ∧
    (!bitOf b 0) = (b &&& 0x01#8 == 0#8) := by
  revert b
  decide

/-- Bits 2..0 are no part of what format a reads from byte 0. -/
theorem fields_of_masked_low_three (b : Byte) : (b &&& ~~~0x07#8).extractLsb' 4 4 = b.extractLsb' 4 4 ∧
    bitOf (b &&& ~~~0x07#8) 3 = bitOf b 3 ∧ (b.extractLsb' 0 3 == 0#3) = (b &&& 0x07#8 == 0#8) := by
  revert b
  decide

/-- Bits 3..1 are no part of what format i reads from byte 0. -/
theorem fields_of_masked_mid_three (b : Byte) : (b &&& ~~~0x0E#8).extractLsb' 4 4 = b.extractLsb' 4 4 ∧
    bitOf (b &&& ~~~0x0E#8) 0 = bitOf b 0 ∧ (b.extractLsb' 1 3 == 0#3) = (b &&& 0x0E#8 == 0#8) := by
  revert b
  decide

/-- Byte 0 of an instruction, but for its unused bits (R102). -/
theorem decodeHead_unused {c : Config} (hc : c.wellFormed = true) (i : Instr) {b : Byte}
    (hb : b &&& ~~~((unusedBitsOf i).headD 0#8) = (encode c i).headD 0#8) :
    decodeHead c b = checkUnused c (b &&& (unusedBitsOf i).headD 0#8 == 0#8) (.ok i.head) := by
  have used (zero : (unusedBitsOf i).headD 0#8 = 0#8) :
      decodeHead c b = checkUnused c (b &&& (unusedBitsOf i).headD 0#8 == 0#8) (.ok i.head) := by
    rw [zero] at hb ⊢
    rw [← and_not_zero b, hb, decodeHead_encode hc]
    simp [checkUnused]
  cases i with
  | reset | ret =>
    obtain ⟨nibble, three, clear⟩ := fields_of_masked_low_three b
    rw [show b &&& ~~~0x07#8 = _ from hb] at nibble three
    unfold decodeHead
    rw [← nibble, ← three, clear]
    simp [encode, unusedBitsOf, Instr.head, bitOf]
  | load _ p | store p | movei p =>
    obtain ⟨nibble, pair, three, clear⟩ := fields_of_masked_bit_zero b
    rw [show b &&& ~~~0x01#8 = pairByte _ p 0#1 from hb] at nibble pair three
    rw [pairByte_high_nibble] at nibble
    rw [pairField_pairByte] at pair
    rw [bitOf_three_pairByte] at three
    simp [decodeHead, ← nibble, ← pair, ← three, clear, unusedBitsOf, Instr.head]
  | call | jump =>
    obtain ⟨nibble, zero, clear⟩ := fields_of_masked_mid_three b
    rw [show b &&& ~~~0x0E#8 = _ from hb] at nibble zero
    unfold decodeHead
    rw [← nibble, ← zero, clear]
    simp [encode, unusedBitsOf, Instr.head, bitOf]
  | inc | dec | pop | push | decl | dech | incl | inch | movel | moveh | compl | comph | br | brnz | brnc | brncz | brz
  | brc | brcz | add | sub | addc | subc | move | and | or | xor | shll | rotr | test | clear | set | rotl | shlr | shal
  | shar => exact used rfl

/-! ### The other bytes -/

/-- Bit 3 is no part of what format h reads from byte 1. -/
theorem fields_of_masked_bit_three (b : Byte) : (b &&& ~~~0x08#8).extractLsb' 4 4 = b.extractLsb' 4 4 ∧
    (b &&& ~~~0x08#8).extractLsb' 0 3 = b.extractLsb' 0 3 ∧ bitOf (b &&& ~~~0x08#8) 3 = false ∧
    (!bitOf b 3) = (b &&& 0x08#8 == 0#8) := by
  revert b
  decide

theorem decodeBitForm_unused {c : Config} (hc : c.wellFormed = true) (f : Reg → BitVec 3 → Instr) {r : Reg} {n : BitVec 3}
    {b : Byte} (hb : b &&& ~~~0x08#8 = bitFormByte c r n) :
    decodeBitForm c f b = checkUnused c (b &&& 0x08#8 == 0#8) (.ok (f r n)) := by
  obtain ⟨high, low, three, clear⟩ := fields_of_masked_bit_three b
  have read := decodeBitForm_bitFormByte hc f r n
  rw [← hb, decodeBitForm, three, highField, high, low] at read
  rw [decodeBitForm, clear, highField, show Except.ok (f _ _) = _ from read]

/-- The bytes after byte 0 of an instruction, but for its unused bits: only format h has one there (R102). -/
theorem decodeTail_unused {c : Config} (hc : c.wellFormed = true) (i : Instr) {rest : List Byte}
    (len : rest.length = (unusedBitsOf i).tail.length)
    (hrest : List.zipWith (fun b m => b &&& ~~~m) rest (unusedBitsOf i).tail = (encode c i).tail) :
    decodeTail c i.head rest = checkUnused c (unusedClear rest (unusedBitsOf i).tail) (.ok i) := by
  have used (clear : unusedClear rest (unusedBitsOf i).tail = true) :
      decodeTail c i.head rest = checkUnused c (unusedClear rest (unusedBitsOf i).tail) (.ok i) := by
    rw [zipWith_unusedClear rest _ len clear] at hrest
    rw [hrest, decodeTail_encode hc, ← hrest, clear]
    rfl
  cases i with
  | reset | ret | inc | dec | pop | push | decl | dech | incl | inch =>
    exact used (by simp [unusedClear, unusedBitsOf])
  | br | brnz | brnc | brncz | brz | brc | brcz | movel | moveh | compl | comph | add | sub | addc | subc | move | and | or
  | xor | load | store =>
    obtain ⟨b, rfl⟩ := List.length_eq_one_iff.1 len
    exact used (by simp [unusedClear, unusedBitsOf])
  | call | jump | movei =>
    obtain ⟨b, b', rfl⟩ := List.length_eq_two.1 len
    exact used (by simp [unusedClear, unusedBitsOf])
  | shll r n | rotr r n | test r n | clear r n | set r n | rotl r n | shlr r n | shal r n | shar r n =>
    obtain ⟨b, rfl⟩ := List.length_eq_one_iff.1 len
    have hb : b &&& ~~~0x08#8 = bitFormByte c r n := List.singleton_inj.1 hrest
    refine (decodeBitForm_unused hc _ hb).trans ?_
    rw [← unusedClear_single]
    rfl

/-! ### All bytes -/

/-- Bytes that are an encoding but for unused bits: byte 0 and the others, each checked. -/
structure ReadsButUnused (c : Config) (i : Instr) (b : Byte) (rest : List Byte) : Prop where
  head : decodeHead c b = checkUnused c (b &&& (unusedBitsOf i).headD 0#8 == 0#8) (.ok i.head)
  tail : decodeTail c i.head rest = checkUnused c (unusedClear rest (unusedBitsOf i).tail) (.ok i)
  set : (b &&& (unusedBitsOf i).headD 0#8 == 0#8) = false ∨ unusedClear rest (unusedBitsOf i).tail = false

theorem readsButUnused {c : Config} (hc : c.wellFormed = true) {i : Instr} {bytes : List Byte}
    (len : bytes.length = i.length) (cleared : List.zipWith (fun b m => b &&& ~~~m) bytes (unusedBitsOf i) = encode c i)
    (ne : bytes ≠ encode c i) : ∃ b rest, bytes = b :: rest ∧ ReadsButUnused c i b rest := by
  rw [← unusedBitsOf_length] at len
  obtain ⟨m, masks, hm⟩ : ∃ m masks, unusedBitsOf i = m :: masks := by cases i <;> exact ⟨_, _, rfl⟩
  obtain ⟨b, rest, rfl⟩ : ∃ b rest, bytes = b :: rest :=
    List.exists_cons_of_ne_nil (by rintro rfl; simp [hm] at len)
  have dirty : unusedClear (b :: rest) (unusedBitsOf i) = false := by
    by_contra h
    rw [zipWith_unusedClear _ _ len (by simpa using h)] at cleared
    exact ne cleared
  refine ⟨b, rest, rfl, decodeHead_unused hc i ?_, decodeTail_unused hc i ?_ ?_, ?_⟩
  · rw [← cleared, hm]
    rfl
  · rw [hm] at len ⊢
    simpa using len
  · rw [← cleared, hm]
    rfl
  · rw [hm] at dirty ⊢
    exact (Bool.and_eq_false_iff.1 dirty)

theorem ReadsButUnused.error {c : Config} {i : Instr} {b : Byte} {rest : List Byte} (reads : ReadsButUnused c i b rest)
    {e : DecodeError} (he : c.unusedBits.error = some e) :
    decodeHead c b = .error e ∨ decodeHead c b = .ok i.head ∧ decodeTail c i.head rest = .error e := by
  rw [reads.head, reads.tail]
  obtain first | others := reads.set
  · exact .inl (checkUnused_error he _ first)
  · cases first : (b &&& (unusedBitsOf i).headD 0#8 == 0#8) with
    | false => exact .inl (checkUnused_error he _ rfl)
    | true => exact .inr ⟨checkUnused_clear c _ rfl, checkUnused_error he _ others⟩

theorem ReadsButUnused.ignored {c : Config} {i : Instr} {b : Byte} {rest : List Byte} (reads : ReadsButUnused c i b rest)
    (he : c.unusedBits = .ignore) : decodeHead c b = .ok i.head ∧ decodeTail c i.head rest = .ok i := by
  rw [reads.head, reads.tail, checkUnused_ignore he, checkUnused_ignore he]
  exact ⟨rfl, rfl⟩

theorem decode_cons_of_head {c : Config} {b : Byte} {h : Head} (hb : decodeHead c b = .ok h) (rest : List Byte) :
    decode c (b :: rest) = decodeTail c h rest := by
  simp only [decode, hb]

theorem decode_cons_error {c : Config} {b : Byte} {e : DecodeError} (hb : decodeHead c b = .error e) (rest : List Byte) :
    decode c (b :: rest) = .error e := by
  simp only [decode, hb]

/-- Settles O6: byte 0 or the bytes after it answer the error of the parameter, or the instruction is read. -/
theorem unusedBitsFollowTheParameter : Obligations.UnusedBitsFollowTheParameter := by
  intro c i bytes hc len cleared ne
  obtain ⟨b, rest, rfl, reads⟩ := readsButUnused hc len cleared ne
  have stops {e : DecodeError} (he : c.unusedBits.error = some e) : decode c (b :: rest) = .error e := by
    obtain first | ⟨first, others⟩ := reads.error he
    · exact decode_cons_error first rest
    · rw [decode_cons_of_head first, others]
  refine ⟨fun refuse => stops (by rw [refuse]; rfl), fun invalid => stops (by rw [invalid]; rfl), fun ignore => ?_⟩
  obtain ⟨first, others⟩ := reads.ignored ignore
  rw [decode_cons_of_head first, others]

/-! ### Branch offsets -/

/-- A 16-bit value is the extension of its low byte exactly when it is one of a signed byte. -/
theorem sext16_loByte_eq_iff (d : Addr) : sext16 (loByte d) = d ↔ -128 ≤ d.toInt ∧ d.toInt ≤ 127 := by
  have low : (loByte d).toInt = d.toInt.bmod 256 := by
    rw [BitVec.toInt_eq_toNat_bmod, Machine.loByte_toNat, BitVec.toInt_eq_toNat_bmod]
    simp only [Int.bmod_def]
    omega
  have ext : (sext16 (loByte d)).toInt = (loByte d).toInt := BitVec.toInt_signExtend_of_le (by omega)
  rw [← BitVec.toInt_inj, ext, low, Int.bmod_def]
  omega

/-- Settles O7: the offset stored is the low byte of the distance, where that is a signed byte. -/
theorem branchOffsetReachesTheTarget : Obligations.BranchOffsetReachesTheTarget := by
  intro a target
  simp only [branchOffset, Option.ite_none_right_eq_some, Option.some.injEq]
  refine ⟨?_, ?_⟩
  · rintro off ⟨fits, rfl⟩
    rw [fits, add_comm, sub_add_cancel]
  · rw [← sext16_loByte_eq_iff]
    exact ⟨fun ⟨_, fits, _⟩ => fits, fun fits => ⟨_, fits, rfl⟩⟩

end Sys2Proof
end

