-- ==== Sys2Proof/Proofs/Fetching.lean ====
section
/-! PROOFS. The fetch (R73, R111, R200): what it reads where every byte may be fetched, where it stops, and what a step makes
of it. -/

namespace Sys2Proof.Machine

/-- A byte that may be fetched, in ordinary memory (R73, R78). -/
def State.Fetchable (s : State) (a : Addr) : Prop := s.fetchCheck a = .pass ∧ inSmbZone a = false

/-- The `n` bytes of memory from an address on. -/
def State.bytesFrom (s : State) (a : Addr) (n : Nat) : List Byte :=
  (List.range n).map (fun k => s.byteAt (a + BitVec.ofNat 16 k))

theorem offset_zero (a : Addr) : a + BitVec.ofNat 16 0 = a := BitVec.add_zero a

theorem offset_succ (a : Addr) (k : Nat) : a + BitVec.ofNat 16 (k + 1) = a + 1#16 + BitVec.ofNat 16 k := by
  rw [BitVec.add_assoc, ← BitVec.ofNat_add, Nat.add_comm]

theorem State.bytesFrom_succ (s : State) (a : Addr) (n : Nat) :
    s.bytesFrom a (n + 1) = s.byteAt a :: s.bytesFrom (a + 1#16) n := by
  simp only [State.bytesFrom, List.range_succ_eq_map, List.map_cons, List.map_map, offset_zero]
  congr 2
  funext k
  exact congrArg s.byteAt (offset_succ a k)

/-- A byte before what a fetch of the bytes after it ends in. -/
def FetchedBytes.cons (b : Byte) : FetchedBytes → FetchedBytes
  | .got bytes t => .got (b :: bytes) t
  | .nmi cause info t => .nmi cause info t
  | .refused r => .refused r

theorem fetchBytes_cons {s : State} {a : Addr} (h : s.Fetchable a) (n : Nat) :
    fetchBytes (n + 1) a s = (fetchBytes n (a + 1#16) s).cons (s.byteAt a) := by
  obtain ⟨pass, ordinary⟩ := h
  simp only [fetchBytes, pass, State.readByte, ordinary, Bool.false_eq_true, if_false]
  cases fetchBytes n (a + 1#16) s <;> rfl

/-- Where every byte may be fetched, the fetch is the bytes of memory. -/
theorem fetchBytes_got (s : State) : ∀ (n : Nat) (a : Addr), (∀ k, k < n → s.Fetchable (a + BitVec.ofNat 16 k)) →
    fetchBytes n a s = .got (s.bytesFrom a n) s
  | 0, _, _ => rfl
  | n + 1, a, h => by
    have first : s.Fetchable a := offset_zero a ▸ h 0 (by omega)
    have others := fetchBytes_got s n (a + 1#16) fun k hk => offset_succ a k ▸ h (k + 1) (by omega)
    rw [fetchBytes_cons first, others, State.bytesFrom_succ, FetchedBytes.cons]

/-- The first byte whose check does not pass stops the fetch (R73, R222). -/
theorem fetchBytes_stop (s : State) : ∀ (n k : Nat) (a : Addr), k < n →
    (∀ j, j < k → s.Fetchable (a + BitVec.ofNat 16 j)) →
    (∀ cause info, s.fetchCheck (a + BitVec.ofNat 16 k) = .nmi cause info → fetchBytes n a s = .nmi cause info s) ∧
    (∀ r, s.fetchCheck (a + BitVec.ofNat 16 k) = .refuse r → fetchBytes n a s = .refused r)
  | n + 1, 0, a, _, _ => by
    rw [offset_zero]
    exact ⟨fun cause info h => by simp [fetchBytes, h], fun r h => by simp [fetchBytes, h]⟩
  | n + 1, k + 1, a, hk, h => by
    have first : s.Fetchable a := offset_zero a ▸ h 0 (by omega)
    obtain ⟨nmi, refuse⟩ := fetchBytes_stop s n k (a + 1#16) (by omega)
      fun j hj => offset_succ a j ▸ h (j + 1) (by omega)
    rw [fetchBytes_cons first, offset_succ]
    exact ⟨fun cause info h => by rw [nmi cause info h, FetchedBytes.cons],
      fun r h => by rw [refuse r h, FetchedBytes.cons]⟩

/-! ### The instruction at pc -/

/-- Byte 0 that is no head ends the fetch (R110, R111). -/
theorem fetch_of_head_error {s : State} (first : s.Fetchable s.pc) {e : DecodeError}
    (he : decodeHead s.config (s.byteAt s.pc) = .error e) : fetch s = decodeStop e s.pc s := by
  simp only [fetch, fetchBytes_one s s.pc first.1 first.2, List.headD_cons, he]

/-- After a byte 0 that is a head, the fetch is that of the other bytes. -/
theorem fetch_of_head {s : State} (first : s.Fetchable s.pc) {h : Head}
    (hh : decodeHead s.config (s.byteAt s.pc) = .ok h) :
    (∀ cause info u, fetchBytes h.extra (s.pc + 1#16) s = .nmi cause info u → fetch s = .nmi cause info u) ∧
    (∀ r, fetchBytes h.extra (s.pc + 1#16) s = .refused r → fetch s = .refused r) ∧
    (∀ rest u, fetchBytes h.extra (s.pc + 1#16) s = .got rest u →
      (∀ e, decodeTail s.config h rest = .error e → fetch s = decodeStop e s.pc u) ∧
      (∀ i, decodeTail s.config h rest = .ok i →
        fetch s = .instr i (u.withPc (s.pc + BitVec.ofNat 16 (h.extra + 1))))) := by
  rw [offset_succ s.pc h.extra]
  simp only [fetch, fetchBytes_one s s.pc first.1 first.2, List.headD_cons, hh]
  exact ⟨fun cause info u e => by simp only [e], fun r e => by simp only [e],
    fun rest u e => ⟨fun x hx => by simp only [e, hx], fun i hi => by simp only [e, hi]⟩⟩

/-- Where all bytes its head asks for may be fetched, the fetch is their decoding. -/
theorem fetch_of_bytes {s : State} {h : Head} (hh : decodeHead s.config (s.byteAt s.pc) = .ok h)
    (all : ∀ k, k < h.extra + 1 → s.Fetchable (s.pc + BitVec.ofNat 16 k)) :
    (∀ i, decodeTail s.config h (s.bytesFrom (s.pc + 1#16) h.extra) = .ok i →
      fetch s = .instr i (s.withPc (s.pc + BitVec.ofNat 16 (h.extra + 1)))) ∧
    (∀ e, decodeTail s.config h (s.bytesFrom (s.pc + 1#16) h.extra) = .error e → fetch s = decodeStop e s.pc s) := by
  have first : s.Fetchable s.pc := offset_zero s.pc ▸ all 0 (by omega)
  have others := fetchBytes_got s h.extra (s.pc + 1#16) fun k hk => offset_succ s.pc k ▸ all (k + 1) (by omega)
  obtain ⟨error, ok⟩ := (fetch_of_head first hh).2.2 _ _ others
  exact ⟨ok, error⟩

/-! ### The step of a fetch -/

theorem step_of_instr {s t : State} {i : Instr} (quiet : (boundary s).nextIrq = none)
    (h : fetch (boundary s) = .instr i t) : step s = exec i t := by
  simp only [step, coreStep, quiet, h]

theorem step_of_nmi {s t : State} {cause : NmiCause} {info : Addr} (quiet : (boundary s).nextIrq = none)
    (h : fetch (boundary s) = .nmi cause info t) : step s = raiseNmi cause info t := by
  simp only [step, coreStep, quiet, h]

theorem step_of_refused {s : State} {r : Refusal} (quiet : (boundary s).nextIrq = none)
    (h : fetch (boundary s) = .refused r) : step s = .refused r := by
  simp only [step, coreStep, quiet, h]

/-- Settles O8: the bytes that decode are a byte 0 and the bytes its head asks for, and the fetch decodes the same ones. -/
theorem stepRunsTheDecodedInstruction : Obligations.StepRunsTheDecodedInstruction := by
  intro s i quiet hc all hi
  obtain ⟨b, rest, h, bytes, hb, hrest⟩ := decode_ok hi
  have len : i.length = h.extra + 1 := length_decodeTail (headOf_decodeHead hc hb).whole hrest
  have split := (boundary s).bytesFrom_succ (boundary s).pc h.extra
  rw [← len] at split
  obtain ⟨rfl, rfl⟩ := List.cons.inj (split.symm.trans bytes)
  rw [len] at all ⊢
  exact step_of_instr quiet ((fetch_of_bytes hb all).1 i hrest)

/-! ### Bytes that are no instruction -/

/-- What policing says of a byte that may not be fetched (R73, R76). -/
theorem fetchCheck_bad (s : State) (a : Addr) :
    (s.policing = true → s.config.flashTop < a → s.fetchCheck a = .nmi .invalidFetch a) ∧
    (s.policing = false → s.implemented a = false → s.fetchCheck a = .refuse (.unimplementedAddress a)) := by
  refine ⟨fun on beyond => ?_, fun off missing => ?_⟩
  · have outside : s.inFlash a = false := by simpa [State.inFlash, BitVec.not_le] using beyond
    simp [State.fetchCheck, on, outside]
  · simp [State.fetchCheck, State.openReadCheck, off, missing]

/-- A byte that may not be fetched, the bytes before it being read, is how the fetch ends. -/
theorem fetch_of_bad_byte {s : State} {k : Nat}
    (asked : k = 0 ∨ ∃ h, decodeHead s.config (s.byteAt s.pc) = .ok h ∧ k ≤ h.extra)
    (before : ∀ j, j < k → s.Fetchable (s.pc + BitVec.ofNat 16 j)) :
    (∀ cause info, s.fetchCheck (s.pc + BitVec.ofNat 16 k) = .nmi cause info → fetch s = .nmi cause info s) ∧
    (∀ r, s.fetchCheck (s.pc + BitVec.ofNat 16 k) = .refuse r → fetch s = .refused r) := by
  cases k with
  | zero =>
    obtain ⟨nmi, refuse⟩ := fetchBytes_stop s 1 0 s.pc (by omega) before
    exact ⟨fun cause info h => by simp only [fetch, nmi cause info h], fun r h => by simp only [fetch, refuse r h]⟩
  | succ k =>
    obtain ⟨h, hh, le⟩ := asked.resolve_left (by omega)
    have first : s.Fetchable s.pc := offset_zero s.pc ▸ before 0 (by omega)
    obtain ⟨nmi, refuse⟩ := fetchBytes_stop s h.extra k (s.pc + 1#16) (by omega)
      fun j hj => offset_succ s.pc j ▸ before (j + 1) (by omega)
    obtain ⟨nmiHead, refuseHead, -⟩ := fetch_of_head first hh
    rw [offset_succ]
    exact ⟨fun cause info h => nmiHead _ _ _ (nmi cause info h), fun r h => refuseHead r (refuse r h)⟩

/-- Settles O9: the fetch stops at the byte that may not be fetched, at a byte 0 that is no head, or at the unused bit. -/
theorem badFetchRaisesTheNmi : Obligations.BadFetchRaisesTheNmi := by
  rintro s b rfl quiet
  refine ⟨fun k asked before => ?_, fun pass ordinary => ?_, fun i bytes hc len cleared ne all hbytes => ?_⟩
  · obtain ⟨nmi, refuse⟩ := fetch_of_bad_byte asked before
    obtain ⟨on, off⟩ := fetchCheck_bad (boundary s) ((boundary s).pc + BitVec.ofNat 16 k)
    exact ⟨fun h beyond => step_of_nmi quiet (nmi _ _ (on h beyond)),
      fun h missing => step_of_refused quiet (refuse _ (off h missing))⟩
  · exact ⟨fun h => step_of_nmi quiet (fetch_of_head_error ⟨pass, ordinary⟩ h),
      fun h => step_of_refused quiet (fetch_of_head_error ⟨pass, ordinary⟩ h)⟩
  · obtain ⟨b, rest, rfl, reads⟩ := readsButUnused hc len cleared ne
    rw [i.length_eq_extra] at all hbytes ⊢
    obtain ⟨rfl, rfl⟩ := List.cons.inj (((boundary s).bytesFrom_succ (boundary s).pc i.head.extra).symm.trans hbytes)
    have first : (boundary s).Fetchable (boundary s).pc := offset_zero (boundary s).pc ▸ all 0 (by omega)
    have stops {e : DecodeError} (he : (boundary s).config.unusedBits.error = some e) :
        fetch (boundary s) = decodeStop e (boundary s).pc (boundary s) := by
      obtain head | ⟨head, others⟩ := reads.error he
      · exact fetch_of_head_error first head
      · exact (fetch_of_bytes head all).2 e others
    refine ⟨fun refuse => step_of_refused quiet (stops (e := .unusedBits) (by rw [refuse]; rfl)),
      fun invalid => step_of_nmi quiet (stops (e := .invalidOpcode) (by rw [invalid]; rfl)), fun ignore => ?_⟩
    obtain ⟨head, others⟩ := reads.ignored ignore
    exact step_of_instr quiet ((fetch_of_bytes head all).1 i others)

end Sys2Proof.Machine
end

