-- ==== Sys2Proof/Proofs/PortStarts.lean ====
section
/-! PROOFS. What a program write of PCON does to the ports (R250 to R259): nothing started, one operation started in order,
and the careless starts. -/

namespace Sys2Proof.Machine

/-! ### The control bits -/

theorem controlOf_eq_iff (x y : Byte) : controlOf x = controlOf y ↔ ∀ k, 4 ≤ k → k < 8 → bitOf x k = bitOf y k := by
  have bit (z : Byte) (k : Nat) (hk : k < 8) : (controlOf z).getLsbD k = (decide (4 ≤ k) && bitOf z k) := by
    simp only [controlOf, bitOf, BitVec.getLsbD_and]
    interval_cases k <;> simp
  constructor
  · intro h k low high
    simpa [bit _ k high, low] using congrArg (BitVec.getLsbD · k) h
  · intro h
    apply BitVec.eq_of_getLsbD_eq
    intro k hk
    rw [bit x k hk, bit y k hk]
    by_cases low : 4 ≤ k
    · rw [h k low hk]
    · simp [low]

theorem bitOf_andNot (x y : Byte) (k : Nat) (hk : k < 8) : bitOf (x &&& ~~~y) k = (bitOf x k && !bitOf y k) := by
  simp [bitOf, hk]

theorem controlOf_eq_zero_iff (x : Byte) : controlOf x = 0#8 ↔ ∀ k, 4 ≤ k → k < 8 → bitOf x k = false := by
  have zero := controlOf_eq_iff x 0#8
  rw [show controlOf 0#8 = 0#8 by decide] at zero
  simpa [bitOf] using zero

/-- A write starts and cancels nothing exactly when it leaves the control bits as they are (R251). -/
theorem controlOf_eq_iff_andNot (x y : Byte) :
    controlOf x = controlOf y ↔ controlOf (x &&& ~~~y) = 0#8 ∧ controlOf (y &&& ~~~x) = 0#8 := by
  simp only [controlOf_eq_iff x y, controlOf_eq_zero_iff]
  constructor
  · intro h
    refine ⟨fun k low high => ?_, fun k low high => ?_⟩ <;> simp [bitOf_andNot _ _ k high, h k low high]
  · rintro ⟨started, cancelled⟩ k low high
    have a := started k low high
    have b := cancelled k low high
    rw [bitOf_andNot _ _ k high] at a b
    cases hx : bitOf x k <;> cases hy : bitOf y k <;> simp_all

/-- From no operation, the control bits written are those started. -/
theorem controlOf_started_of_idle {w old : Byte} (idle : controlOf old = 0#8) :
    controlOf (w &&& ~~~old) = controlOf w := by
  rw [controlOf_eq_iff]
  intro k low high
  rw [bitOf_andNot _ _ k high, (controlOf_eq_zero_iff old).1 idle k low high]
  simp

@[simp] theorem channelOf_low (w : Byte) : channelOf (w &&& 0x0F#8) = channelOf w := by
  revert w
  decide

@[simp] theorem controlOf_low (w : Byte) : controlOf (w &&& 0x0F#8) = 0#8 := by
  revert w
  decide

/-- The bit of PCON that starts an operation (R250). -/
def PortOp.bit : PortOp → BitVec 3
  | .dir => 7#3
  | .dow => 6#3
  | .pwm => 5#3
  | .adc => 4#3

theorem soleOp_bitMask (op : PortOp) : soleOp (bitMask op.bit) = some op := by
  cases op <;> decide

theorem eq_bitMask_of_soleOp {x : Byte} {op : PortOp} (h : soleOp x = some op) : x = bitMask op.bit := by
  revert x
  cases op <;> decide

/-! ### The four cases of a PCON write -/

theorem writePcon_startsNothing {w : Byte} {s : State} (same : controlOf w = controlOf s.regs.pcon) :
    writePcon w s = .ok (s.putReg .pcon w) := by
  obtain ⟨started, cancelled⟩ := (controlOf_eq_iff_andNot w s.regs.pcon).1 same
  simp [writePcon, started, cancelled]

/-- Settles O46: the cancelled bits decide the refusal, and equal control bits start and cancel nothing. -/
theorem pconWriteThatStartsNothing : Obligations.PconWriteThatStartsNothing := by
  intro w s
  exact ⟨⟨writePcon_error w s, fun h => (writePcon_refused_iff w s).1 ⟨_, h⟩⟩, writePcon_startsNothing⟩

/-- One operation, started from none (R251 (b), (c)). -/
theorem writePcon_one {w : Byte} {s : State} {op : PortOp} (idle : controlOf s.regs.pcon = 0#8)
    (one : soleOp (controlOf w) = some op) :
    writePcon w s = .ok (if channelOf w = channelOf s.regs.pcon then startClean op w (s.putReg .pcon w)
      else startSkewed op s.regs.pcon w (s.putReg .pcon w)) := by
  have kept : controlOf (s.regs.pcon &&& ~~~w) = 0#8 := by
    rw [controlOf_eq_zero_iff] at idle ⊢
    intro k low high
    rw [bitOf_andNot _ _ k high, idle k low high, Bool.false_and]
  have some_started : controlOf w ≠ 0#8 := by
    intro zero
    rw [zero, show soleOp 0#8 = none by decide] at one
    cases one
  simp only [writePcon, kept, controlOf_started_of_idle idle, idle, one, some_started, ne_eq, not_true_eq_false, if_false,
    if_true]
  split <;> rfl

theorem writePcon_clean {w : Byte} {s : State} {op : PortOp} (idle : controlOf s.regs.pcon = 0#8)
    (one : soleOp (controlOf w) = some op) (channel : channelOf w = channelOf s.regs.pcon) :
    writePcon w s = .ok (startClean op w (s.putReg .pcon w)) := by
  rw [writePcon_one idle one, if_pos channel]

theorem writePcon_skewed {w : Byte} {s : State} {op : PortOp} (idle : controlOf s.regs.pcon = 0#8)
    (one : soleOp (controlOf w) = some op) (channel : channelOf w ≠ channelOf s.regs.pcon) :
    writePcon w s = .ok (startSkewed op s.regs.pcon w (s.putReg .pcon w)) := by
  rw [writePcon_one idle one, if_neg channel]

/-- Several operations started, or some during another (R251 (d)). -/
theorem writePcon_several {w : Byte} {s : State} (kept : controlOf (s.regs.pcon &&& ~~~w) = 0#8)
    (started : controlOf (w &&& ~~~s.regs.pcon) ≠ 0#8)
    (clash : controlOf s.regs.pcon ≠ 0#8 ∨ soleOp (controlOf (w &&& ~~~s.regs.pcon)) = none) :
    writePcon w s = .ok (startSeveral s.regs.pcon w (s.putReg .pcon w)) := by
  have none : (if controlOf s.regs.pcon = 0#8 then soleOp (controlOf (w &&& ~~~s.regs.pcon)) else none) = none := by
    obtain busy | many := clash
    · rw [if_neg busy]
    · rw [many, ite_self]
  simp only [writePcon, kept, started, none, ne_eq, not_true_eq_false, if_false]

/-! ### The end of an operation -/

@[simp] theorem State.endPort_port (s : State) : s.endPort.port = .idle := rfl
@[simp] theorem State.endPort_pcon (s : State) : s.endPort.reg .pcon = s.reg .pcon &&& 0x0F#8 := rfl
@[simp] theorem State.endPort_pdata (s : State) : s.endPort.reg .pdata = s.reg .pdata := rfl
@[simp] theorem State.endPort_pdataUndefined (s : State) : s.endPort.pdataUndefined = s.pdataUndefined := rfl
@[simp] theorem State.endPort_pwmDuty (s : State) : s.endPort.pwmDuty = s.pwmDuty := rfl
@[simp] theorem State.endPort_dout (s : State) : s.endPort.dout = s.dout := rfl

theorem State.putDuty_get (s : State) (ch : BitVec 4) (v : Byte) (k : Fin 16) :
    (s.putDuty ch v).pwmDuty[k] = if k.val = ch.toNat then v else s.pwmDuty[k] := by
  simp only [State.putDuty, State.withPwmDuty_pwmDuty, Fin.getElem_fin, Vector.getElem_set]
  exact ite_congr (propext eq_comm) (fun _ => rfl) (fun _ => rfl)

/-- All that the ports can change, as a frame: PCON, PDATA and what belongs to the ports. -/
theorem PortOnly.frame {s t : State} (h : PortOnly s t) : Frame [.pcon, .pdata] s t where
  regs q hq := by
    simp only [List.mem_cons, List.not_mem_nil, or_false, not_or] at hq
    exact h.regs q hq.1 hq.2
  bytes a := by simp only [State.byteAt, h.mem]
  sp := h.sp
  irq := h.irq
  policing := h.policing
  hostRead := h.hostRead
  arrivals := h.arrivals
  timerWait := h.timerWait
  config := h.config
  ports hq := absurd List.mem_cons_self hq
  pdataUndefined hq := absurd List.mem_cons_self hq
  sci _ := h.sci

/-- The same with PDATA as it was. -/
theorem PortOnly.frame_pcon {s t : State} (h : PortOnly s t) (kept : PdataKept s t) : Frame [.pcon] s t where
  regs q hq := by
    by_cases hp : q = .pdata
    · rw [hp, kept.pdata]
    · exact h.regs q (by simpa using hq) hp
  bytes := h.frame.bytes
  sp := h.sp
  irq := h.irq
  policing := h.policing
  hostRead := h.hostRead
  arrivals := h.arrivals
  timerWait := h.timerWait
  config := h.config
  ports hq := absurd List.mem_cons_self hq
  pdataUndefined _ _ := kept.undefined
  sci _ := h.sci

/-! ### One operation, started in order -/

theorem control_bit_set (op : PortOp) {p : Byte} (idle : controlOf p = 0#8) :
    controlOf (p ||| bitMask op.bit) = bitMask op.bit ∧ channelOf (p ||| bitMask op.bit) = channelOf p ∧
      (p ||| bitMask op.bit) &&& 0x0F#8 = p := by
  revert p
  cases op <;> decide

/-- The state in which setting the bit of an operation leaves the ports. -/
def State.started (s : State) (op : PortOp) : State :=
  startClean op (s.reg .pcon ||| bitMask op.bit) (s.putReg .pcon (s.reg .pcon ||| bitMask op.bit))

/-- Setting the bit of an operation, with none in progress, starts it (R251 (b)). -/
theorem exec_set_pcon (op : PortOp) {s : State} (idle : controlOf (s.reg .pcon) = 0#8) :
    exec (.set .pcon op.bit) s = .next (s.started op) := by
  obtain ⟨control, channel, -⟩ := control_bit_set op idle
  have write : writePcon (s.reg .pcon ||| bitMask op.bit) s = .ok (s.started op) :=
    writePcon_clean idle (by rw [control, soleOp_bitMask]) channel
  show settle (writePcon (s.reg .pcon ||| bitMask op.bit) s) = _
  rw [write]
  rfl

theorem PortOnly.started (s : State) (op : PortOp) : PortOnly s (s.started op) :=
  (PortOnly.putPcon s _).trans' (PortOnly.startClean op _ _)

theorem startDow_eq (s : State) : ∃ k, startDow s = ((s.withDraws k).withDout s.readPdata.1).endPort := by
  obtain ⟨k, hk⟩ := s.readReg_state .pdata
  exact ⟨k, by rw [startDow, show s.readPdata.2 = _ from hk]⟩

theorem startClean_pwm (w : Byte) (s : State) :
    ∃ k, startClean .pwm w s = startPwm (channelOf w) s.readPdata.1 (s.withDraws k) := by
  obtain ⟨k, hk⟩ := s.readReg_state .pdata
  exact ⟨k, by rw [startClean, show s.readPdata.2 = _ from hk]⟩

/-- A PWM write ends within the step or is in progress (R258). -/
theorem startPwm_cases (ch : BitVec 4) (duty : Byte) (s : State) :
    (∃ k, startPwm ch duty s = ((s.withDraws k).putDuty ch duty).endPort) ∨
      ∃ k n, startPwm ch duty s = (s.withDraws k).withPort (.pwm ch duty n) := by
  unfold startPwm
  split
  · exact .inl ⟨_, rfl⟩
  · exact .inr ⟨_, _, rfl⟩

theorem readPdata_putPcon (s : State) (w : Byte) : (s.putReg .pcon w).readPdata.1 = s.readPdata.1 := by
  unfold State.readPdata
  rw [State.putReg_pdataUndefined]
  cases s.pdataUndefined <;> rfl

/-- Settles O47: a clean start of DIR, and one of DOW, ends within the step. -/
theorem digitalPortsCompleteInTheStep : Obligations.DigitalPortsCompleteInTheStep := by
  intro s idle
  constructor
  · obtain ⟨-, -, cleared⟩ := control_bit_set .dir idle
    have only := PortOnly.started s .dir
    exact ⟨_, exec_set_pcon .dir idle, rfl, rfl, cleared, rfl, rfl, rfl, only.frame, only.pc⟩
  · obtain ⟨-, -, cleared⟩ := control_bit_set .dow idle
    have run := exec_set_pcon .dow idle
    have only := PortOnly.started s .dow
    obtain ⟨k, hk⟩ : ∃ k, s.started .dow = _ := startDow_eq (s.putReg .pcon (s.reg .pcon ||| bitMask PortOp.dow.bit))
    rw [hk] at run only
    exact ⟨_, _, s.readReg_shows .pdata, run, readPdata_putPcon s _, rfl, cleared, rfl, rfl, only.frame_pcon ⟨rfl, rfl⟩,
      only.pc⟩

/-! ### An operation in progress -/

theorem portBoundary_adc_succ {s : State} {ch : BitVec 4} {n : Nat} (h : s.port = .adc ch (n + 1)) :
    portBoundary s = s.withPort (.adc ch n) := by
  simp only [portBoundary, h]

theorem portBoundary_adc_zero {s : State} {ch : BitVec 4} (h : s.port = .adc ch 0) :
    portBoundary s = (s.draw.2.putPdata s.draw.1).endPort := by
  simp only [portBoundary, h, adcComplete, State.draw_port]

theorem portBoundary_pwm_succ {s : State} {ch : BitVec 4} {duty : Byte} {n : Nat} (h : s.port = .pwm ch duty (n + 1)) :
    portBoundary s = s.withPort (.pwm ch duty n) := by
  simp only [portBoundary, h]

theorem portBoundary_pwm_zero {s : State} {ch : BitVec 4} {duty : Byte} (h : s.port = .pwm ch duty 0) :
    portBoundary s = (s.putDuty ch duty).endPort := by
  simp only [portBoundary, h, pwmComplete]

theorem portBoundary_several_succ {s : State} {n : Nat} (h : s.port = .several (n + 1)) :
    portBoundary s = s.withPort (.several n) := by
  simp only [portBoundary, h]

theorem portBoundary_several_zero {s : State} (h : s.port = .several 0) : portBoundary s = s.endSeveral := by
  simp only [portBoundary, h]

/-- An operation that each boundary brings one nearer is, after `k` of them, `k` nearer. -/
theorem portBoundary_iterate {busy : Nat → PortBusy}
    (nearer : ∀ (n : Nat) (u : State), u.port = busy (n + 1) → portBoundary u = u.withPort (busy n)) :
    ∀ (k n : Nat) (s : State), s.port = busy n → k ≤ n → portBoundary^[k] s = s.withPort (busy (n - k))
  | 0, _, s, h, _ => by
    show s = s.withPort _
    rw [Nat.sub_zero, ← h]
    rfl
  | k + 1, n, s, h, le => by
    rw [Function.iterate_succ_apply', portBoundary_iterate nearer k n s h (by omega),
      nearer (n - (k + 1)) _ (by rw [State.withPort_port]; congr 1; omega)]
    rfl

/-- After as many boundaries as it waits, an operation ends at the next. -/
theorem portBoundary_iterate_end {busy : Nat → PortBusy}
    (nearer : ∀ (n : Nat) (u : State), u.port = busy (n + 1) → portBoundary u = u.withPort (busy n)) {n : Nat} {s : State}
    (h : s.port = busy n) : portBoundary^[n + 1] s = portBoundary (s.withPort (busy 0)) := by
  rw [Function.iterate_succ_apply', portBoundary_iterate nearer n n s h le_rfl, Nat.sub_self]

/-- Settles O48: the start, the boundaries of the conversion, and a step that leaves the ports alone. -/
theorem adcConvertsTheChannel : Obligations.AdcConvertsTheChannel := by
  refine ⟨fun s idle => ?start, fun n ch s busy => ?boundaries, fun ch n s t busy alone run => ?steps⟩
  case start =>
    obtain ⟨-, channel, -⟩ := control_bit_set .adc idle
    have only := PortOnly.started s .adc
    refine ⟨_, Config.drawDelay s.draws, exec_set_pcon .adc idle, ?_, rfl, rfl, rfl, rfl, only.frame_pcon ⟨rfl, rfl⟩, only.pc⟩
    show PortBusy.adc _ _ = _
    rw [channel]
    rfl
  case boundaries =>
    have nearer : ∀ (n : Nat) (u : State), u.port = .adc ch (n + 1) → portBoundary u = u.withPort (.adc ch n) :=
      fun n u h => portBoundary_adc_succ h
    rw [portBoundary_iterate_end nearer busy, portBoundary_adc_zero (s.withPort_port _)]
    exact ⟨fun k le => portBoundary_iterate nearer k n s busy le, rfl, rfl, rfl, rfl⟩
  case steps =>
    obtain ⟨ports, pdata⟩ := step_ports s t alone run
    cases n with
    | zero =>
      rw [portBoundary_adc_zero busy] at ports pdata
      exact ⟨fun m h => (nomatch h), fun _ => ⟨ports.port, ports.pcon, pdata.pdata, pdata.undefined⟩, ports.pwmDuty,
        ports.dout⟩
    | succ m =>
      rw [portBoundary_adc_succ busy] at ports
      refine ⟨fun m' h => ?_, fun h => (nomatch h), ports.pwmDuty, ports.dout⟩
      cases h
      exact ⟨ports.port, ports.pcon⟩

/-- Settles O49: the start, the boundaries of the write, and a step that leaves the ports alone. -/
theorem pwmWritesTheLatch : Obligations.PwmWritesTheLatch := by
  refine ⟨fun s idle => ?start, fun ch duty n s busy => ?boundaries, fun ch duty n s t busy alone run => ?steps⟩
  case start =>
    obtain ⟨-, channel, cleared⟩ := control_bit_set .pwm idle
    obtain ⟨j, hj⟩ := startClean_pwm (s.reg .pcon ||| bitMask PortOp.pwm.bit)
      (s.putReg .pcon (s.reg .pcon ||| bitMask PortOp.pwm.bit))
    rw [channel, readPdata_putPcon] at hj
    have run := exec_set_pcon .pwm idle
    have only := PortOnly.started s .pwm
    rw [State.started, hj] at run only
    refine ⟨_, _, s.readReg_shows .pdata, run, ?_⟩
    obtain ⟨k, hk⟩ | ⟨k, n, hk⟩ := startPwm_cases (channelOf (s.reg .pcon)) s.readPdata.1
      ((s.putReg .pcon (s.reg .pcon ||| bitMask PortOp.pwm.bit)).withDraws j)
    · rw [hk] at only ⊢
      exact ⟨rfl, rfl, only.frame_pcon ⟨rfl, rfl⟩, only.pc, .inr ⟨rfl, cleared, State.putDuty_get _ _ _⟩⟩
    · rw [hk] at only ⊢
      exact ⟨rfl, rfl, only.frame_pcon ⟨rfl, rfl⟩, only.pc, .inl ⟨n, rfl, rfl, rfl⟩⟩
  case boundaries =>
    have nearer : ∀ (n : Nat) (u : State), u.port = .pwm ch duty (n + 1) → portBoundary u = u.withPort (.pwm ch duty n) :=
      fun n u h => portBoundary_pwm_succ h
    rw [portBoundary_iterate_end nearer busy, portBoundary_pwm_zero (s.withPort_port _),
      portBoundary_iterate nearer n n s busy le_rfl, Nat.sub_self]
    exact ⟨rfl, rfl, rfl, State.putDuty_get _ ch duty, rfl, rfl⟩
  case steps =>
    obtain ⟨ports, -⟩ := step_ports s t alone run
    cases n with
    | zero =>
      rw [portBoundary_pwm_zero busy] at ports
      refine ⟨fun m h => (nomatch h), fun _ => ⟨ports.port, ports.pcon, fun k => ?_⟩, ports.dout⟩
      rw [ports.pwmDuty, State.endPort_pwmDuty, State.putDuty_get]
    | succ m =>
      rw [portBoundary_pwm_succ busy] at ports
      refine ⟨fun m' h => ?_, fun h => (nomatch h), ports.dout⟩
      cases h
      exact ⟨ports.port, ports.pcon, ports.pwmDuty⟩

end Sys2Proof.Machine
end

