-- ==== Sys2Proof/Proofs/PortClashes.lean ====
section
/-! PROOFS. The careless starts of port operations (R253, R254): which latches they touch, how they end, and that PCON bits
7..4 stay true to the operation in progress (R37 (b)). -/

namespace Sys2Proof.Machine

@[simp] theorem State.draw_reg (s : State) (r : Reg) : s.draw.2.reg r = s.reg r := rfl
@[simp] theorem State.drawDelay_reg (s : State) (r : Reg) : s.drawDelay.2.reg r = s.reg r := rfl
@[simp] theorem State.putDuty_reg (s : State) (ch : BitVec 4) (v : Byte) (r : Reg) : (s.putDuty ch v).reg r = s.reg r := rfl
@[simp] theorem State.scrambleDuty_reg (s : State) (ch : BitVec 4) (r : Reg) : (s.scrambleDuty ch).reg r = s.reg r := rfl
@[simp] theorem State.scrambleDout_reg (s : State) (r : Reg) : s.scrambleDout.reg r = s.reg r := rfl

/-! ### How the operations started end -/

/-- One operation started: it has ended within the step, or is in progress with PCON as written. -/
def OneStarted (op : PortOp) (w : Byte) (t : State) : Prop :=
  (t.port = .idle ∧ t.reg .pcon = w &&& 0x0F#8 ∧ op ≠ .adc) ∨
    (op = .adc ∧ t.reg .pcon = w ∧ ∃ n, t.port = .adc (channelOf w) n) ∨
    (op = .pwm ∧ t.reg .pcon = w ∧ ∃ duty n, t.port = .pwm (channelOf w) duty n)

/-- Several operations started: they have ended within the step, or are in progress without DIR and DOW. -/
def SeveralStarted (w : Byte) (t : State) : Prop :=
  (t.port = .idle ∧ t.reg .pcon = w &&& 0x0F#8) ∨
    ∃ n, t.port = .several n ∧ t.reg .pcon = w ∧ bitOf w 7 = false ∧ bitOf w 6 = false

theorem startPwm_started {w : Byte} {duty : Byte} {s : State} (pcon : s.reg .pcon = w) :
    OneStarted .pwm w (startPwm (channelOf w) duty s) := by
  obtain ⟨k, hk⟩ | ⟨k, n, hk⟩ := startPwm_cases (channelOf w) duty s <;> rw [hk]
  · exact .inl ⟨rfl, pcon ▸ rfl, nofun⟩
  · exact .inr (.inr ⟨rfl, pcon, duty, n, rfl⟩)

theorem startClean_started {op : PortOp} {w : Byte} {s : State} (pcon : s.reg .pcon = w) :
    OneStarted op w (startClean op w s) := by
  cases op with
  | dir => exact .inl ⟨rfl, pcon ▸ rfl, nofun⟩
  | dow =>
    obtain ⟨k, hk⟩ := startDow_eq s
    rw [startClean, hk]
    exact .inl ⟨rfl, pcon ▸ rfl, nofun⟩
  | pwm =>
    obtain ⟨k, hk⟩ := startClean_pwm w s
    rw [hk]
    exact startPwm_started pcon
  | adc => exact .inr (.inl ⟨rfl, pcon, _, rfl⟩)

theorem startSkewed_started {op : PortOp} {old w : Byte} {s : State} (pcon : s.reg .pcon = w) :
    OneStarted op w (startSkewed op old w s) := by
  cases op with
  | dir => exact .inl ⟨rfl, pcon ▸ rfl, nofun⟩
  | dow => exact .inl ⟨rfl, pcon ▸ rfl, nofun⟩
  | pwm => exact startPwm_started pcon
  | adc => exact .inr (.inl ⟨rfl, pcon, _, rfl⟩)

/-! ### Several operations, part by part -/

/-- The output latch, undefined if DOW is set in what is written. -/
def State.spoilDout (s : State) (w : Byte) : State := if bitOf w 6 then s.scrambleDout else s

/-- The PWM latches of the channels involved, undefined if PWM is set in what is written. -/
def State.spoilDuty (s : State) (old w : Byte) : State :=
  if bitOf w 5 then (s.scrambleBusyDuty.scrambleDuty (channelOf old)).scrambleDuty (channelOf w) else s

/-- The end within the step, or after a drawn number of boundaries. -/
def State.goOn (s : State) (w : Byte) : State :=
  if bitOf w 7 || bitOf w 6 then s.endPort
  else
    match s.drawDelay.1 with
    | 0 => s.drawDelay.2.endPort
    | n + 1 => s.drawDelay.2.withPort (.several n)

theorem startSeveral_eq (old w : Byte) (s : State) :
    startSeveral old w s = (((s.withPdataUndefined true).spoilDout w).spoilDuty old w).goOn w := rfl

/-- What the end, or the going on, of several operations does: the ports alone. -/
theorem State.goOn_cases (s : State) (w : Byte) :
    (∃ k, s.goOn w = (s.withDraws k).endPort) ∨
      ∃ k n, s.goOn w = (s.withDraws k).withPort (.several n) ∧ bitOf w 7 = false ∧ bitOf w 6 = false := by
  unfold State.goOn
  split
  · exact .inl ⟨s.draws, rfl⟩
  · rename_i lasting
    split
    · exact .inl ⟨_, rfl⟩
    · exact .inr ⟨_, _, rfl, by simpa using lasting⟩

theorem State.scrambleBusyDuty_reg (s : State) (r : Reg) : s.scrambleBusyDuty.reg r = s.reg r := by
  unfold State.scrambleBusyDuty
  split <;> rfl

theorem State.spoilDout_reg (s : State) (w : Byte) (r : Reg) : (s.spoilDout w).reg r = s.reg r := by
  unfold State.spoilDout
  split <;> rfl

theorem State.spoilDuty_reg (s : State) (old w : Byte) (r : Reg) : (s.spoilDuty old w).reg r = s.reg r := by
  unfold State.spoilDuty
  split
  · exact s.scrambleBusyDuty_reg r
  · rfl

theorem startSeveral_started {old w : Byte} {s : State} (pcon : s.reg .pcon = w) :
    SeveralStarted w (startSeveral old w s) := by
  rw [startSeveral_eq]
  have before : (((s.withPdataUndefined true).spoilDout w).spoilDuty old w).reg .pcon = w := by
    rw [State.spoilDuty_reg, State.spoilDout_reg, State.withPdataUndefined_reg, pcon]
  generalize ((s.withPdataUndefined true).spoilDout w).spoilDuty old w = u at before ⊢
  obtain ⟨k, hk⟩ | ⟨k, n, hk, lasting⟩ := u.goOn_cases w <;> rw [hk]
  · exact .inl ⟨rfl, before ▸ rfl⟩
  · exact .inr ⟨n, rfl, before, lasting⟩

/-! ### What a careless start touches -/

/-- From `s`, with PCON `old` overwritten by `w`, to `t`: PDATA is undefined, and the latches are touched only as the written
bits and the channels involved allow. -/
structure Spoiled (old w : Byte) (s t : State) : Prop where
  undefined : t.pdataUndefined = true
  dout : bitOf w 6 = false → t.dout = s.dout
  noPwm : bitOf w 5 = false → t.pwmDuty = s.pwmDuty
  others : ∀ k : Fin 16, k.val ≠ (channelOf old).toNat → k.val ≠ (channelOf w).toNat →
    (∀ ch duty n, s.port = .pwm ch duty n → k.val ≠ ch.toNat) → t.pwmDuty[k] = s.pwmDuty[k]

/-- A change of state that leaves PDATA undefined and the latches alone. -/
theorem Spoiled.kept {old w : Byte} {s t u : State} (h : Spoiled old w s t)
    (undefined : u.pdataUndefined = t.pdataUndefined) (dout : u.dout = t.dout) (pwmDuty : u.pwmDuty = t.pwmDuty) :
    Spoiled old w s u where
  undefined := undefined.trans h.undefined
  dout e := dout.trans (h.dout e)
  noPwm e := pwmDuty.trans (h.noPwm e)
  others k a b c := by rw [pwmDuty, h.others k a b c]

theorem spoiled_start (old w : Byte) (s : State) : Spoiled old w s ((s.putReg .pcon w).withPdataUndefined true) :=
  ⟨rfl, fun _ => rfl, fun _ => rfl, fun _ _ _ _ => rfl⟩

theorem Spoiled.scrambleDout {old w : Byte} {s t : State} (h : Spoiled old w s t) (dow : bitOf w 6 = true) :
    Spoiled old w s t.scrambleDout where
  undefined := h.undefined
  dout e := by rw [dow] at e; cases e
  noPwm := h.noPwm
  others := h.others

/-- Writing the latch of a channel that is involved, PWM being set in what is written. -/
theorem Spoiled.putDuty {old w : Byte} {s t : State} (h : Spoiled old w s t) (pwm : bitOf w 5 = true) {ch : BitVec 4}
    (involved : ch = channelOf old ∨ ch = channelOf w ∨ ∃ duty n, s.port = .pwm ch duty n) (v : Byte) :
    Spoiled old w s (t.putDuty ch v) where
  undefined := h.undefined
  dout := h.dout
  noPwm e := by rw [pwm] at e; cases e
  others k a b c := by
    have other : k.val ≠ ch.toNat := by
      obtain rfl | rfl | ⟨duty, n, busy⟩ := involved
      · exact a
      · exact b
      · exact c ch duty n busy
    rw [State.putDuty_get, if_neg other, h.others k a b c]

theorem Spoiled.scrambleDuty {old w : Byte} {s t : State} (h : Spoiled old w s t) (pwm : bitOf w 5 = true) {ch : BitVec 4}
    (involved : ch = channelOf old ∨ ch = channelOf w ∨ ∃ duty n, s.port = .pwm ch duty n) :
    Spoiled old w s (t.scrambleDuty ch) :=
  (h.kept (u := t.draw.2) rfl rfl rfl).putDuty pwm involved _

theorem Spoiled.startPwm {old w : Byte} {s t : State} (h : Spoiled old w s t) (pwm : bitOf w 5 = true) (duty : Byte) :
    Spoiled old w s (startPwm (channelOf w) duty t) := by
  obtain ⟨k, hk⟩ | ⟨k, n, hk⟩ := startPwm_cases (channelOf w) duty t <;> rw [hk]
  · exact ((h.kept (u := t.withDraws k) rfl rfl rfl).putDuty pwm (.inr (.inl rfl)) duty).kept rfl rfl rfl
  · exact h.kept rfl rfl rfl

theorem startSkewed_pwm (old w : Byte) (s : State) : startSkewed .pwm old w s =
    startPwm (channelOf w) (((s.withPdataUndefined true).scrambleDuty (channelOf old)).scrambleDuty (channelOf w)).draw.1
      (((s.withPdataUndefined true).scrambleDuty (channelOf old)).scrambleDuty (channelOf w)).draw.2 := rfl

theorem startSkewed_spoiled {op : PortOp} {old w : Byte} {s : State} (one : controlOf w = bitMask op.bit) :
    Spoiled old w s (startSkewed op old w (s.putReg .pcon w)) := by
  have start := spoiled_start old w s
  have bits : ∀ w : Byte, (controlOf w = 0x40#8 → bitOf w 6 = true) ∧ (controlOf w = 0x20#8 → bitOf w 5 = true) := by
    decide
  cases op with
  | dir => exact start.kept rfl rfl rfl
  | dow => exact (start.scrambleDout ((bits w).1 one)).kept rfl rfl rfl
  | pwm =>
    have pwm := (bits w).2 one
    have latches := (start.scrambleDuty pwm (.inl rfl)).scrambleDuty pwm (.inr (.inl rfl))
    rw [startSkewed_pwm]
    exact (latches.kept (State.draw_pdataUndefined _) (State.draw_dout _) (State.draw_pwmDuty _)).startPwm pwm _
  | adc => exact start.kept rfl rfl rfl

theorem Spoiled.scrambleBusyDuty {old w : Byte} {s t : State} (h : Spoiled old w s t) (pwm : bitOf w 5 = true)
    (port : t.port = s.port) : Spoiled old w s t.scrambleBusyDuty := by
  unfold State.scrambleBusyDuty
  split
  · rename_i ch duty n busy
    exact h.scrambleDuty pwm (.inr (.inr ⟨duty, n, port.symm.trans busy⟩))
  all_goals exact h

theorem startSeveral_spoiled (old w : Byte) (s : State) : Spoiled old w s (startSeveral old w (s.putReg .pcon w)) := by
  rw [startSeveral_eq]
  have dout : Spoiled old w s (((s.putReg .pcon w).withPdataUndefined true).spoilDout w) ∧
      (((s.putReg .pcon w).withPdataUndefined true).spoilDout w).port = s.port := by
    unfold State.spoilDout
    split
    · exact ⟨(spoiled_start old w s).scrambleDout ‹_›, rfl⟩
    · exact ⟨spoiled_start old w s, rfl⟩
  generalize ((s.putReg .pcon w).withPdataUndefined true).spoilDout w = t at dout ⊢
  have duty : Spoiled old w s (t.spoilDuty old w) := by
    unfold State.spoilDuty
    split
    · rename_i pwm
      exact ((dout.1.scrambleBusyDuty pwm dout.2).scrambleDuty pwm (.inl rfl)).scrambleDuty pwm (.inr (.inl rfl))
    · exact dout.1
  obtain ⟨k, hk⟩ | ⟨k, n, hk, -⟩ := (t.spoilDuty old w).goOn_cases w <;> rw [hk] <;> exact duty.kept rfl rfl rfl

/-! ### The statement -/

theorem OneStarted.channel {op : PortOp} {w : Byte} {t : State} (h : OneStarted op w t) :
    channelOf (t.reg .pcon) = channelOf w := by
  obtain ⟨-, pcon, -⟩ | ⟨-, pcon, -⟩ | ⟨-, pcon, -⟩ := h <;> rw [pcon]
  exact channelOf_low w

theorem SeveralStarted.channel {w : Byte} {t : State} (h : SeveralStarted w t) :
    channelOf (t.reg .pcon) = channelOf w := by
  obtain ⟨-, pcon⟩ | ⟨n, -, pcon, -⟩ := h <;> rw [pcon]
  exact channelOf_low w

theorem soleOp_ne_none {x : Byte} (h : soleOp x ≠ none) : ∃ op, soleOp x = some op := Option.ne_none_iff_exists'.1 h

/-- Settles O50: the careless start of one operation or of several, and the end of several. -/
theorem carelessStartsSpoilPdata : Obligations.CarelessStartsSpoilPdata := by
  refine ⟨fun w s kept started careless => ?start, fun n s busy => ?boundaries, fun n s t busy alone run => ?steps⟩
  case start =>
    by_cases clash : controlOf (s.reg .pcon) ≠ 0#8 ∨ soleOp (controlOf (w &&& ~~~(s.reg .pcon))) = none
    · have write := writePcon_several kept started clash
      have ends := startSeveral_started (old := s.reg .pcon) (s.putReg_reg_same .pcon w)
      have spoiled := startSeveral_spoiled (s.reg .pcon) w s
      have only := writePcon_portOnly w s _ write
      refine ⟨_, write, spoiled.undefined, ends.channel, fun _ => ends, fun op idle one => ?_, spoiled.dout, spoiled.noPwm,
        spoiled.others, only.frame, only.pc⟩
      obtain busy | many := clash
      · exact absurd idle busy
      · rw [many] at one
        cases one
    · obtain ⟨idle, one⟩ := not_or.1 clash
      rw [not_not] at idle
      obtain ⟨op, one⟩ := soleOp_ne_none one
      have channel := careless.resolve_left (not_not.2 idle) |>.resolve_left (by rw [one]; nofun)
      rw [controlOf_started_of_idle idle] at one
      have write := writePcon_skewed idle one channel
      have ends := startSkewed_started (op := op) (old := s.reg .pcon) (s.putReg_reg_same .pcon w)
      have spoiled := startSkewed_spoiled (old := s.reg .pcon) (s := s) (eq_bitMask_of_soleOp one)
      have only := writePcon_portOnly w s _ write
      refine ⟨_, write, spoiled.undefined, ends.channel, fun h => absurd h clash, fun op' _ one' => ?_, spoiled.dout,
        spoiled.noPwm, spoiled.others, only.frame, only.pc⟩
      rw [controlOf_started_of_idle idle, one] at one'
      cases one'
      exact ends
  case boundaries =>
    have nearer : ∀ (n : Nat) (u : State), u.port = .several (n + 1) → portBoundary u = u.withPort (.several n) :=
      fun n u h => portBoundary_several_succ h
    rw [portBoundary_iterate_end nearer busy, portBoundary_several_zero (s.withPort_port _)]
    refine ⟨fun k le => portBoundary_iterate nearer k n s busy le, ?_⟩
    have ends : ∀ v, act .pwmComplete s = s.endSeveral ∧ act (.adcComplete v) s = s.endSeveral := fun v => by
      simp only [act, pwmComplete, adcComplete, busy, and_self]
    rintro t (rfl | rfl | ⟨v, rfl⟩)
    · exact ⟨rfl, rfl, rfl, rfl, rfl⟩
    · rw [(ends 0#8).1]
      exact ⟨rfl, rfl, rfl, rfl, rfl⟩
    · rw [(ends v).2]
      exact ⟨rfl, rfl, rfl, rfl, rfl⟩
  case steps =>
    obtain ⟨ports, pdata⟩ := step_ports s t alone run
    cases n with
    | zero =>
      rw [portBoundary_several_zero busy] at ports pdata
      exact ⟨fun m h => (nomatch h), fun _ => ⟨ports.port, ports.pcon, pdata.undefined⟩, ports.pwmDuty, ports.dout⟩
    | succ m =>
      rw [portBoundary_several_succ busy] at ports
      refine ⟨fun m' h => ?_, fun h => (nomatch h), ports.pwmDuty, ports.dout⟩
      cases h
      exact ⟨ports.port, ports.pcon⟩

end Sys2Proof.Machine
end

