-- ==== Sys2Proof/Proofs/Invariants.lean ====
section
/-! PROOFS. What every step keeps (R36, R63, R78, R182): the parameters, program memory, the canonical form of memory, the
parity of the stack pointer, and PCON true to the operation in progress. -/

namespace Sys2Proof.Machine

/-! ### What a step may do to memory, the stack pointer and the parameters -/

/-- The memories that writes of data memory outside the SMB zone lead to (R63, R78). -/
inductive RamWrites (s : State) : Memory → Prop where
  | none : RamWrites s s.mem
  | write {m : Memory} {a : Addr} (v : Byte) (before : RamWrites s m) (ram : s.inRam a = true)
      (ordinary : inSmbZone a = false) : RamWrites s (m.write a.toNat v)

/-- `sp` has the parity of `RAM_TOP` (R36). -/
def StackAligned (s : State) : Prop := s.sp.toNat % 2 = s.config.ramTop.toNat % 2

/-- The bounds of every step: parameters the same, memory written in data memory only, `sp` aligned if it was. -/
structure Bounded (s t : State) : Prop where
  config : t.config = s.config
  mem : RamWrites s t.mem
  aligned : StackAligned s → StackAligned t

theorem RamWrites.trans' {s t : State} (config : t.config = s.config) (first : RamWrites s t.mem) {m : Memory}
    (h : RamWrites t m) : RamWrites s m := by
  induction h with
  | none => exact first
  | write v _ ram ordinary ih =>
    refine .write v ih ?_ ordinary
    rwa [State.inRam, config] at ram

theorem Bounded.trans' {s t u : State} (h : Bounded s t) (k : Bounded t u) : Bounded s u :=
  ⟨k.config.trans h.config, h.mem.trans' h.config k.mem, fun a => k.aligned (h.aligned a)⟩

/-- A change of neither memory, `sp` nor the parameters. -/
theorem Bounded.of_kept {s t : State} (config : t.config = s.config) (mem : t.mem = s.mem) (sp : t.sp = s.sp) :
    Bounded s t :=
  ⟨config, mem ▸ .none, fun a => by rwa [StackAligned, sp, config]⟩

theorem Bounded.rfl (s : State) : Bounded s s := .of_kept (Eq.refl _) (Eq.refl _) (Eq.refl _)

/-- `sp` moved by two, or to `RAM_TOP`. -/
theorem Bounded.withSp {s : State} {x : Addr} (h : x = s.sp + 2#16 ∨ x = s.sp - 2#16 ∨ x = s.config.ramTop) :
    Bounded s (s.withSp x) := by
  refine ⟨Eq.refl _, .none, fun a => ?_⟩
  unfold StackAligned at a ⊢
  rw [State.withSp_sp, State.withSp_config]
  obtain rfl | rfl | rfl := h
  · rw [BitVec.toNat_add, BitVec.toNat_ofNat]
    omega
  · rw [BitVec.toNat_sub, BitVec.toNat_ofNat]
    omega
  · exact Eq.refl _

theorem PortOnly.bounded {s t : State} (h : PortOnly s t) : Bounded s t := .of_kept h.config h.mem h.sp

theorem Bounded.withDraws (s : State) (k : Nat) : Bounded s (s.withDraws k) :=
  .of_kept (Eq.refl _) (Eq.refl _) (Eq.refl _)

theorem Bounded.withPc (s : State) (x : Addr) : Bounded s (s.withPc x) :=
  .of_kept (Eq.refl _) (Eq.refl _) (Eq.refl _)

theorem Bounded.putReg (s : State) (r : Reg) (v : Byte) : Bounded s (s.putReg r v) :=
  .of_kept (Eq.refl _) (Eq.refl _) (Eq.refl _)

/-- A write of one byte of data memory. -/
theorem Bounded.writeByte {s : State} {a : Addr} (ram : s.inRam a = true) (v : Byte) : Bounded s (s.writeByte a v) := by
  obtain ⟨-, e⟩ | ⟨ordinary, e⟩ := s.writeByte_cases a v <;> rw [e]
  · exact .rfl s
  · exact ⟨Eq.refl _, .write v .none ram ordinary, id⟩

/-- A push where there is room. -/
theorem Bounded.pushWord {s : State} (room : pushRoom s = true) (v : Addr) : Bounded s (s.pushWord v) := by
  obtain ⟨high, low⟩ := Bool.and_eq_true_iff.1 room
  have moved : Bounded s (s.withSp (s.sp - 2#16)) := .withSp (.inr (.inl (Eq.refl _)))
  have first := moved.trans' (.writeByte (s := s.withSp (s.sp - 2#16)) high (hiByte v))
  refine first.trans' (.writeByte ?_ (loByte v))
  rwa [State.inRam, first.config]

theorem raiseNmi_bounded {c : NmiCause} {i : Addr} {s t : State} (h : raiseNmi c i s = .next t) : Bounded s t := by
  obtain ⟨-, room, rfl⟩ := raiseNmi_next c i s t h
  have push : Bounded s.drawWord.2 (s.drawWord.2.pushWord s.drawWord.1) := .pushWord (s := s.drawWord.2) room _
  exact (Bounded.withDraws s _).trans' (push.trans' (.withPc _ _))

/-- A guarded step is bounded if what it guards is, where the checks pass. -/
theorem guarded_bounded {x : Check} {s t : State} {k : Result} (h : guarded x s k = .next t)
    (hk : x = .pass → k = .next t → Bounded s t) : Bounded s t := by
  obtain ⟨pass, e⟩ | ⟨c, i, -, e⟩ := guarded_next x s t k h
  · exact hk pass e
  · exact raiseNmi_bounded e

theorem pushRoom_of_pass {s : State} (h : s.pushCheck = .pass) : pushRoom s = true := by
  obtain ⟨-, on, off⟩ := s.pushCheck_cases
  by_contra none
  rw [Bool.not_eq_true] at none
  cases hp : s.policing with
  | true => rw [on none hp] at h; cases h
  | false =>
    obtain ⟨a, -, -, e⟩ := off none hp
    rw [e] at h
    cases h

theorem inRam_of_storeCheck_pass {s : State} {a : Addr} (h : s.storeCheck a = .pass) : s.inRam a = true := by
  obtain ⟨-, outside⟩ := s.storeCheck_cases a
  by_contra none
  rw [Bool.not_eq_true] at none
  cases hp : s.policing with
  | true => rw [(outside none).1 hp] at h; cases h
  | false => rw [(outside none).2 hp] at h; cases h

theorem guarded_push_bounded {s t : State} {v x : Addr}
    (h : guarded s.pushCheck s (.next ((s.pushWord v).withPc x)) = .next t) : Bounded s t :=
  guarded_bounded h fun pass e => by
    cases e
    exact (Bounded.pushWord (pushRoom_of_pass pass) v).trans' (.withPc _ x)

/-! ### The instructions -/

/-- A register write is bounded: PCON writes work on the ports alone. -/
theorem writeReg_bounded {s t : State} {r : Reg} {v : Byte} (h : s.writeReg r v = .ok t) : Bounded s t := by
  cases r with
  | pcon => exact (writePcon_portOnly v s t h).bounded
  | pdata => cases h; exact (PortOnly.putPdata s v).bounded
  | r0 | r1 | r2 | r3 | r4 | r5 | r6 | r7 | ecdata | c0 | c1 | ecscr | ecscw | status =>
    cases h
    exact .of_kept rfl rfl rfl

theorem settle_bounded {s t : State} {x : Except Refusal State} (h : settle x = .next t)
    (hx : x = .ok t → Bounded s t) : Bounded s t := by
  cases x with
  | ok u =>
    cases h
    exact hx rfl
  | error e => cases h

theorem execFlagged_bounded {l r : Reg} {f : Byte → Byte → AluOut} {s t : State} (h : execFlagged l r f s = .next t) :
    Bounded s t := by
  obtain ⟨⟨k, hk⟩, -⟩ := s.readTwo_spec l r
  unfold execFlagged at h
  split at h
  · cases h
  · simp only [hk] at h
    split at h
    · cases h
    · rename_i u hu
      cases h
      exact ((Bounded.withDraws s k).trans' (writeReg_bounded hu)).trans' (.of_kept rfl rfl rfl)

theorem execRotate_bounded {r : Reg} {f : BitVec 9 → BitVec 9} {s t : State} (h : execRotate r f s = .next t) :
    Bounded s t := by
  obtain ⟨k, hk⟩ := s.readReg_state r
  unfold execRotate at h
  split at h
  · cases h
  · simp only [hk] at h
    split at h
    · cases h
    · rename_i u hu
      cases h
      exact ((Bounded.withDraws s k).trans' (writeReg_bounded hu)).trans' (.of_kept rfl rfl rfl)

theorem execModify_bounded {r : Reg} {f : Byte → Byte} {s t : State} (h : execModify r f s = .next t) : Bounded s t := by
  obtain ⟨k, hk⟩ := s.readReg_state r
  refine settle_bounded h fun e => ?_
  rw [hk] at e
  exact (Bounded.withDraws s k).trans' (writeReg_bounded e)

theorem execBranch_bounded {taken : Bool} {off : Byte} {s t : State} (h : execBranch taken off s = .next t) :
    Bounded s t := by
  unfold execBranch at h
  split at h
  · refine guarded_bounded h fun _ e => ?_
    cases e
    exact .withPc s _
  · cases h
    exact .rfl s

theorem readByte_state (s : State) (a : Addr) : ∃ k, (s.readByte a).2 = s.withDraws k := by
  obtain ⟨-, e⟩ | ⟨-, e⟩ := s.readByte_cases a <;> rw [e]
  · exact ⟨s.draws + 1, rfl⟩
  · exact ⟨s.draws, rfl⟩

theorem deviceReset_bounded (s : State) : Bounded s s.deviceReset := by
  have top : Bounded s (s.withSp s.config.ramTop) := .withSp (.inr (.inr rfl))
  exact top.trans' (.of_kept rfl rfl rfl)

theorem exec_br (off : Byte) (s : State) : exec (.br off) s = execBranch true off s := rfl
theorem exec_brc (off : Byte) (s : State) : exec (.brc off) s = execBranch s.carry off s := rfl
theorem exec_brnc (off : Byte) (s : State) : exec (.brnc off) s = execBranch (!s.carry) off s := rfl
theorem exec_brz (off : Byte) (s : State) : exec (.brz off) s = execBranch s.zero off s := rfl
theorem exec_brnz (off : Byte) (s : State) : exec (.brnz off) s = execBranch (!s.zero) off s := rfl
theorem exec_brcz (off : Byte) (s : State) : exec (.brcz off) s = execBranch (s.carry && s.zero) off s := rfl
theorem exec_brncz (off : Byte) (s : State) : exec (.brncz off) s = execBranch (!s.carry && !s.zero) off s := rfl

/-- Every instruction is bounded: only STORE, PUSH and CALL write memory, after their checks. -/
theorem exec_bounded (i : Instr) {s t : State} (h : exec i s = .next t) : Bounded s t := by
  cases i with
  | reset =>
    cases h
    exact deviceReset_bounded s
  | ret =>
    refine guarded_bounded h fun _ e => ?_
    obtain ⟨k, hk⟩ := s.topWord_state
    rw [hk] at e
    refine (Bounded.withDraws s k).trans' (guarded_bounded e fun _ e => ?_)
    cases e
    exact (Bounded.withSp (.inl rfl)).trans' (.withPc _ _)
  | pop p =>
    refine guarded_bounded h fun _ e => ?_
    obtain ⟨k, hk⟩ := s.topWord_state
    rw [hk] at e
    cases e
    have put : Bounded s ((s.withDraws k).putPair p s.topWord.1) := .of_kept rfl rfl rfl
    exact put.trans' (.withSp (.inl rfl))
  | push p =>
    refine guarded_bounded h fun pass e => ?_
    cases e
    exact .pushWord (pushRoom_of_pass pass) _
  | call target => exact guarded_bounded h fun _ e => guarded_push_bounded e
  | store p disp r =>
    refine guarded_bounded h fun pass e => ?_
    obtain ⟨k, hk⟩ := s.readReg_state r
    rw [hk] at e
    cases e
    exact (Bounded.withDraws s k).trans' (.writeByte (s := s.withDraws k) (inRam_of_storeCheck_pass pass) _)
  | load r p disp =>
    refine guarded_bounded h fun _ e => settle_bounded e fun e => ?_
    obtain ⟨k, hk⟩ := readByte_state s (s.effAddr p disp)
    rw [hk] at e
    exact (Bounded.withDraws s k).trans' (writeReg_bounded e)
  | jump target =>
    refine guarded_bounded h fun _ e => ?_
    cases e
    exact .withPc s target
  | test r n =>
    obtain ⟨k, hk⟩ := s.readReg_state r
    have e : exec (.test r n) s = .next ((s.withDraws k).setZero (bitOf (s.readReg r).1 n.toNat)) := by
      rw [← hk]
      rfl
    rw [e] at h
    cases h
    exact .of_kept rfl rfl rfl
  | move l r =>
    obtain ⟨k, hk⟩ := s.readReg_state r
    refine settle_bounded h fun e => ?_
    rw [hk] at e
    exact (Bounded.withDraws s k).trans' (writeReg_bounded e)
  | inc | dec | decl | dech | incl | inch | movel | moveh | compl | comph | movei =>
    cases h
    exact .of_kept rfl rfl rfl
  | br | brnz | brnc | brncz | brz | brc | brcz =>
    simp only [exec_br, exec_brnz, exec_brnc, exec_brncz, exec_brz, exec_brc, exec_brcz] at h
    exact execBranch_bounded h
  | add | sub | addc | subc | and | or | xor =>
    simp only [exec_add, exec_sub, exec_addc, exec_subc, exec_and, exec_or, exec_xor] at h
    exact execFlagged_bounded h
  | rotl | rotr =>
    simp only [exec_rotl, exec_rotr] at h
    exact execRotate_bounded h
  | shll | shlr | shal | shar | set | clear =>
    simp only [exec_shll, exec_shlr, exec_shal, exec_shar, exec_set, exec_clear] at h
    exact execModify_bounded h

/-! ### The other agents and the whole step -/

theorem act_bounded (a : EnvAction) (s : State) : Bounded s (act a s) := by
  by_cases reset : a = .deviceReset
  · subst reset
    exact deviceReset_bounded s
  · have agent := act_agentKept a s
    exact .of_kept agent.config agent.mem (act_countersKept a s reset).sp

theorem boundary_bounded (s : State) : Bounded s (boundary s) := by
  have clock : Bounded s (clockBoundary s) := .of_kept rfl rfl rfl
  have ports := clock.trans' (portBoundary_portOnly (clockBoundary s)).bounded
  have schedule := ports.trans' (u := (portBoundary (clockBoundary s)).withArrivals s.arrivals.tail) (.of_kept rfl rfl rfl)
  exact actAll_induct (Bounded s) (fun a _ before => before.trans' (act_bounded a _)) _ _ schedule

theorem takeIrq_bounded {x : Irq} {s t : State} (h : takeIrq x s = .next t) : Bounded s t := by
  refine guarded_bounded h fun pass e => ?_
  cases e
  have clear : Bounded s (s.clearPending x) := by cases x <;> exact .of_kept rfl rfl rfl
  have room : pushRoom (s.clearPending x) = true := by cases x <;> exact pushRoom_of_pass pass
  exact clear.trans' ((Bounded.pushWord (s := s.clearPending x) room _).trans' (.withPc _ _))

theorem step_bounded {s t : State} (h : step s = .next t) : Bounded s t := by
  refine (boundary_bounded s).trans' ?_
  obtain ⟨x, -, taken⟩ | ⟨c, i, k, entered⟩ | ⟨i, k, pc, executed⟩ := step_cases s t h
  · exact takeIrq_bounded taken
  · exact (Bounded.withDraws _ k).trans' (raiseNmi_bounded entered)
  · exact ((Bounded.withDraws _ k).trans' (.withPc _ pc)).trans' (exec_bounded i executed)

/-- Settles O59: every part of a step moves `sp` by two, or to `RAM_TOP`. -/
theorem stackPointerKeepsItsParity : Obligations.StackPointerKeepsItsParity := by
  intro s t aligned h
  have bounded := step_bounded h
  exact ⟨bounded.aligned aligned, bounded.config⟩

/-! ### Program memory -/

theorem memoryOk_bounds {c : Config} (hc : c.wellFormed = true) : c.flashTop ≤ 0x7FFF#16 ∧ 0x8000#16 ≤ c.ramTop := by
  obtain ⟨bounds, -⟩ := c.wellFormed_iff.1 hc
  simpa [Config.memoryOk] using bounds

/-- No address is in both memories (R5, R63). -/
theorem ne_of_flash_of_ram {s : State} (hc : s.config.wellFormed = true) {a b : Addr} (flash : a ≤ s.config.flashTop)
    (ram : s.inRam b = true) : a ≠ b := by
  obtain ⟨top, -⟩ := memoryOk_bounds hc
  simp only [State.inRam, Bool.and_eq_true, decide_eq_true_eq] at ram
  obtain ⟨low, -⟩ := ram
  rintro rfl
  bv_omega

theorem RamWrites.read_flash {s : State} {m : Memory} (h : RamWrites s m) (hc : s.config.wellFormed = true) {a : Addr}
    (flash : a ≤ s.config.flashTop) : m.read a.toNat = s.mem.read a.toNat := by
  induction h with
  | none => rfl
  | write v _ ram _ ih =>
    rw [Memory.read_write_other _ _ _ _ (fun e => ne_of_flash_of_ram hc flash ram (BitVec.eq_of_toNat_eq e)), ih]

/-- Settles O58: every write of a step is in data memory. -/
theorem noStepWritesProgramMemory : Obligations.NoStepWritesProgramMemory := by
  intro s t a hc h flash
  rw [State.byteAt, State.byteAt, (step_bounded h).mem.read_flash hc flash]

/-! ### The ports and PCON -/

theorem PortsKept.mirrored {s t : State} (h : PortsKept s t) (hs : PortMirrored s) : PortMirrored t := by
  have pcon : t.regs.pcon = s.regs.pcon := h.pcon
  unfold PortMirrored at hs ⊢
  rwa [h.port, pcon]

theorem mirrored_of_idle {s : State} (port : s.port = .idle) (pcon : controlOf (s.reg .pcon) = 0#8) : PortMirrored s := by
  rw [PortMirrored, port]
  exact pcon

theorem mirrored_of_several {s : State} {n : Nat} (port : s.port = .several n)
    (pcon : controlOf (s.reg .pcon) = 0x30#8) : PortMirrored s := by
  rw [PortMirrored, port]
  exact pcon

theorem OneStarted.mirrored {op : PortOp} {w : Byte} {t : State} (h : OneStarted op w t)
    (one : controlOf w = bitMask op.bit) : PortMirrored t := by
  obtain ⟨port, pcon, -⟩ | ⟨rfl, pcon, n, port⟩ | ⟨rfl, pcon, duty, n, port⟩ := h
  · exact mirrored_of_idle port (by rw [pcon, controlOf_low])
  · rw [PortMirrored, port, show t.regs.pcon = w from pcon, one]
    rfl
  · rw [PortMirrored, port, show t.regs.pcon = w from pcon, one]
    rfl

/-- After a clash PCON does not name one operation alone (R253). -/
theorem control_of_clash_ne {w old : Byte} (kept : controlOf (old &&& ~~~w) = 0#8)
    (started : controlOf (w &&& ~~~old) ≠ 0#8)
    (clash : controlOf old ≠ 0#8 ∨ soleOp (controlOf (w &&& ~~~old)) = none) (op : PortOp) :
    controlOf w ≠ bitMask op.bit := by
  intro one
  have mask : ∀ k, 4 ≤ k → k < 8 → bitOf (bitMask op.bit) k = decide (k = op.bit.toNat) := by
    intro k low high
    cases op <;> interval_cases k <;> decide
  have own : controlOf w = controlOf (bitMask op.bit) := by rw [one]; cases op <;> decide
  have bits : ∀ k, 4 ≤ k → k < 8 → bitOf w k = decide (k = op.bit.toNat) := fun k low high => by
    rw [(controlOf_eq_iff _ _).1 own k low high, mask k low high]
  rw [controlOf_eq_zero_iff] at kept
  cases was : bitOf old op.bit.toNat with
  | true =>
    refine started ((controlOf_eq_zero_iff _).2 fun k low high => ?_)
    rw [bitOf_andNot _ _ k high, bits k low high]
    by_cases h : k = op.bit.toNat <;> simp [h, was]
  | false =>
    have idle : controlOf old = 0#8 := (controlOf_eq_zero_iff _).2 fun k low high => by
      have cancelled := kept k low high
      rw [bitOf_andNot _ _ k high, bits k low high] at cancelled
      by_cases h : k = op.bit.toNat
      · rw [h, was]
      · simpa [h] using cancelled
    rw [controlOf_started_of_idle idle, one, soleOp_bitMask] at clash
    exact clash.elim (fun busy => busy idle) nofun

/-- What is in progress after a clash, without DIR and DOW, is ADC and PWM together (R253). -/
theorem control_of_clash {w old : Byte} (kept : controlOf (old &&& ~~~w) = 0#8)
    (started : controlOf (w &&& ~~~old) ≠ 0#8)
    (clash : controlOf old ≠ 0#8 ∨ soleOp (controlOf (w &&& ~~~old)) = none) (noDir : bitOf w 7 = false)
    (noDow : bitOf w 6 = false) : controlOf w = 0x30#8 := by
  have analog : ∀ w : Byte, bitOf w 7 = false → bitOf w 6 = false →
      controlOf w = 0#8 ∨ controlOf w = bitMask PortOp.adc.bit ∨ controlOf w = bitMask PortOp.pwm.bit ∨
        controlOf w = 0x30#8 := by decide
  obtain none | adc | pwm | both := analog w noDir noDow
  · refine absurd ((controlOf_eq_zero_iff _).2 fun k low high => ?_) started
    rw [bitOf_andNot _ _ k high, (controlOf_eq_zero_iff w).1 none k low high, Bool.false_and]
  · exact absurd adc (control_of_clash_ne kept started clash .adc)
  · exact absurd pwm (control_of_clash_ne kept started clash .pwm)
  · exact both

/-- A PCON write keeps PCON true to the ports, whatever it starts (R251). -/
theorem writePcon_mirrored {w : Byte} {s t : State} (hs : PortMirrored s) (h : writePcon w s = .ok t) :
    PortMirrored t := by
  have kept : controlOf (s.regs.pcon &&& ~~~w) = 0#8 := by
    by_contra cancels
    rw [writePcon_error w s cancels] at h
    cases h
  by_cases started : controlOf (w &&& ~~~s.regs.pcon) = 0#8
  · have same := (controlOf_eq_iff_andNot w s.regs.pcon).2 ⟨started, kept⟩
    rw [writePcon_startsNothing same] at h
    cases h
    unfold PortMirrored at hs ⊢
    rwa [State.putReg_port, show (s.putReg .pcon w).regs.pcon = w from rfl, same]
  · by_cases clash : controlOf s.regs.pcon ≠ 0#8 ∨ soleOp (controlOf (w &&& ~~~s.regs.pcon)) = none
    · rw [writePcon_several kept started clash] at h
      cases h
      obtain ⟨port, pcon⟩ | ⟨n, port, pcon, noDir, noDow⟩ :=
        startSeveral_started (old := s.regs.pcon) (s.putReg_reg_same .pcon w)
      · exact mirrored_of_idle port (by rw [pcon, controlOf_low])
      · exact mirrored_of_several port (by rw [pcon]; exact control_of_clash kept started clash noDir noDow)
    · obtain ⟨idle, one⟩ := not_or.1 clash
      rw [not_not] at idle
      obtain ⟨op, one⟩ := soleOp_ne_none one
      rw [controlOf_started_of_idle idle] at one
      have bit := eq_bitMask_of_soleOp one
      by_cases channel : channelOf w = channelOf s.regs.pcon
      · rw [writePcon_clean idle one channel] at h
        cases h
        exact (startClean_started (s.putReg_reg_same .pcon w)).mirrored bit
      · rw [writePcon_skewed idle one channel] at h
        cases h
        exact (startSkewed_started (s.putReg_reg_same .pcon w)).mirrored bit

/-- A register write, however it is reached, keeps PCON true to the ports. -/
theorem Wrote.mirrored {s t : State} {v : Byte} (h : Wrote s t .pcon v) (hs : PortMirrored s) : PortMirrored t := by
  obtain ⟨k, u, write, pcon, -, -, port, pwmDuty, dout⟩ := h.pcon rfl
  have kept : PortsKept u t := ⟨port, pcon, pwmDuty, dout⟩
  exact kept.mirrored (writePcon_mirrored ((withDraws_portsKept s k).mirrored hs) write)

theorem PlainWrite.mirrored {s t : State} {v : Byte} {o : Result} (h : PlainWrite s .pcon v o) (ho : o = .next t)
    (hs : PortMirrored s) : PortMirrored t := by
  unfold PlainWrite at h
  split at h
  · rw [h] at ho
    cases ho
  · obtain ⟨u, hu, wrote, -⟩ := h
    rw [hu] at ho
    cases ho
    exact wrote.mirrored hs

theorem FlaggedWrite.mirrored {s t : State} {v : Byte} {c z : Bool} {o : Result} (h : FlaggedWrite s .pcon v c z o)
    (ho : o = .next t) (hs : PortMirrored s) : PortMirrored t := by
  unfold FlaggedWrite at h
  split at h
  · rw [h] at ho
    cases ho
  · obtain ⟨u, hu, wrote, -⟩ := h
    rw [hu] at ho
    cases ho
    exact wrote.mirrored hs

theorem execFlagged_pcon_mirrored {r : Reg} {f : Byte → Byte → AluOut} {s t : State}
    (h : execFlagged .pcon r f s = .next t) (hs : PortMirrored s) : PortMirrored t := by
  obtain ⟨a, b, -, -, -, write⟩ := execFlagged_spec .pcon r f s nofun
  exact write.mirrored h hs

theorem execRotate_pcon_mirrored {f : BitVec 9 → BitVec 9} {s t : State} (h : execRotate .pcon f s = .next t)
    (hs : PortMirrored s) : PortMirrored t := by
  obtain ⟨b, -, write⟩ := execRotate_spec .pcon f s nofun
  exact write.mirrored h hs

theorem execModify_pcon_mirrored {f : Byte → Byte} {s t : State} (h : execModify .pcon f s = .next t)
    (hs : PortMirrored s) : PortMirrored t := by
  obtain ⟨v, -, write⟩ := execModify_spec .pcon f s
  exact write.mirrored h hs

theorem deviceReset_mirrored (s : State) : PortMirrored s.deviceReset :=
  mirrored_of_idle rfl (show controlOf 0#8 = 0#8 by decide)

/-- Every instruction keeps PCON true to the ports: RESET drops both, a write of PCON starts what it says, and no other
instruction touches either. -/
theorem exec_mirrored (i : Instr) {s t : State} (h : exec i s = .next t) (hs : PortMirrored s) : PortMirrored t := by
  by_cases reset : i = .reset
  · subst reset
    cases h
    exact deviceReset_mirrored s
  · by_cases dest : i.regDest = some .pcon
    · cases i with
      | add l | sub l | addc l | subc l | and l | or l | xor l =>
        cases Option.some.inj dest
        simp only [exec_add, exec_sub, exec_addc, exec_subc, exec_and, exec_or, exec_xor] at h
        exact execFlagged_pcon_mirrored h hs
      | rotl r | rotr r =>
        cases Option.some.inj dest
        simp only [exec_rotl, exec_rotr] at h
        exact execRotate_pcon_mirrored h hs
      | shll r | shlr r | shal r | shar r | set r | clear r =>
        cases Option.some.inj dest
        simp only [exec_shll, exec_shlr, exec_shal, exec_shar, exec_set, exec_clear] at h
        exact execModify_pcon_mirrored h hs
      | move l r =>
        cases Option.some.inj dest
        obtain ⟨v, -, write⟩ := execMove_spec .pcon r s
        exact write.mirrored h hs
      | load r p disp =>
        cases Option.some.inj dest
        obtain ⟨-, e⟩ | ⟨c, i, -, e⟩ := guarded_next _ _ _ _ h
        · obtain ⟨k, hk⟩ := readByte_state s (s.effAddr p disp)
          rw [hk] at e
          exact (settle_write s k .pcon _).mirrored e hs
        · exact (raiseNmi_portsKept c i s t e).mirrored hs
      | _ => cases dest
    · exact (exec_portsKept i s t reset dest h).mirrored hs

theorem endPort_mirrored (s : State) : PortMirrored s.endPort := mirrored_of_idle rfl (controlOf_low _)

theorem adcComplete_mirrored (v : Byte) {s : State} (hs : PortMirrored s) : PortMirrored (adcComplete v s) := by
  unfold adcComplete
  split
  · exact endPort_mirrored _
  · exact endPort_mirrored _
  all_goals exact hs

theorem pwmComplete_mirrored {s : State} (hs : PortMirrored s) : PortMirrored (pwmComplete s) := by
  unfold pwmComplete
  split
  · exact endPort_mirrored _
  · exact endPort_mirrored _
  all_goals exact hs

theorem act_mirrored (a : EnvAction) {s : State} (hs : PortMirrored s) : PortMirrored (act a s) := by
  cases a with
  | adcComplete v => exact adcComplete_mirrored v hs
  | pwmComplete => exact pwmComplete_mirrored hs
  | deviceReset => exact deviceReset_mirrored s
  | hostWriteCommand | hostWriteData | hostReadStatus | hostReadData | timerTick | smbEvent | setPolicingPin =>
    exact PortsKept.mirrored (act_portsKept _ s (by nofun) (by nofun) (by nofun)).1 hs

theorem portBoundary_mirrored {s : State} (hs : PortMirrored s) : PortMirrored (portBoundary s) := by
  cases busy : s.port with
  | idle => simpa only [portBoundary, busy] using hs
  | adc ch n =>
    cases n with
    | zero =>
      rw [portBoundary_adc_zero busy]
      exact endPort_mirrored _
    | succ n =>
      rw [portBoundary_adc_succ busy]
      rw [PortMirrored, busy] at hs
      exact hs
  | pwm ch duty n =>
    cases n with
    | zero =>
      rw [portBoundary_pwm_zero busy]
      exact endPort_mirrored _
    | succ n =>
      rw [portBoundary_pwm_succ busy]
      rw [PortMirrored, busy] at hs
      exact hs
  | several n =>
    cases n with
    | zero =>
      rw [portBoundary_several_zero busy]
      exact endPort_mirrored _
    | succ n =>
      rw [portBoundary_several_succ busy]
      rw [PortMirrored, busy] at hs
      exact hs

theorem boundary_mirrored {s : State} (hs : PortMirrored s) : PortMirrored (boundary s) := by
  have clock : PortMirrored (clockBoundary s) := hs
  have ports : PortMirrored ((portBoundary (clockBoundary s)).withArrivals s.arrivals.tail) := portBoundary_mirrored clock
  exact actAll_induct PortMirrored (fun a _ before => act_mirrored a before) _ _ ports

theorem takeIrq_portsKept {x : Irq} {s t : State} (h : takeIrq x s = .next t) : PortsKept s t := by
  refine guarded_portsKept _ _ _ _ h fun e => ?_
  cases e
  have clear : PortsKept s (s.clearPending x) := by cases x <;> exact ⟨rfl, rfl, rfl, rfl⟩
  obtain ⟨-, -, same, -⟩ := State.enterTrap_spec (s.clearPending x) (vecOf s.config x) s.pc
  exact clear.trans' same.portsKept

theorem step_mirrored {s t : State} (hs : PortMirrored s) (h : step s = .next t) : PortMirrored t := by
  have start := boundary_mirrored hs
  obtain ⟨x, -, taken⟩ | ⟨c, i, k, entered⟩ | ⟨i, k, pc, executed⟩ := step_cases s t h
  · exact (takeIrq_portsKept taken).mirrored start
  · exact (raiseNmi_portsKept c i _ t entered).mirrored ((withDraws_portsKept _ k).mirrored start)
  · exact exec_mirrored i executed (((withDraws_portsKept _ k).trans' (withPc_portsKept _ pc)).mirrored start)

/-! ### The invariant -/

theorem RamWrites.wf {s : State} {m : Memory} (h : RamWrites s m) (hs : s.mem.wf) : m.wf := by
  induction h with
  | none => exact hs
  | write v _ _ _ ih => exact Memory.wf_write _ _ v ih (BitVec.isLt _)

theorem implemented_of_inRam {s : State} {a : Addr} (h : s.inRam a = true) : s.implemented a = true := by
  rw [State.implemented, h, Bool.or_true]

/-- What writes of data memory leave listed lies where memory is implemented, outside the SMB zone (R63, R78). -/
theorem RamWrites.placed {s : State} {m : Memory} (h : RamWrites s m) (hs : CellsPlaced s) :
    ∀ x ∈ m.cells, s.implemented (BitVec.ofNat 16 x.1) = true ∧ inSmbZone (BitVec.ofNat 16 x.1) = false := by
  induction h with
  | none => exact hs
  | write v _ ram ordinary ih =>
    intro x hx
    obtain rfl | old := mem_insertCell _ _ _ x hx
    · simp only [BitVec.ofNat_toNat, BitVec.setWidth_eq]
      exact ⟨implemented_of_inRam ram, ordinary⟩
    · exact ih x old

theorem Bounded.placed {s t : State} (h : Bounded s t) (hs : CellsPlaced s) : CellsPlaced t := by
  intro x hx
  obtain ⟨here, ordinary⟩ := h.mem.placed hs x hx
  refine ⟨?_, ordinary⟩
  rwa [State.implemented, State.inFlash, State.inRam, h.config]

/-- Settles O57: the bounds of a step keep the parameters and memory, and PCON stays true to the ports. -/
theorem stepKeepsTheInvariant : Obligations.StepKeepsTheInvariant := by
  intro s t inv h
  have bounded := step_bounded h
  exact ⟨bounded.config ▸ inv.config, bounded.mem.wf inv.memory, bounded.placed inv.placed, step_mirrored inv.mirrored h⟩

/-- Settles O56: right after reset nothing is listed in memory and no operation is in progress. -/
theorem invariantHoldsAtReset : Obligations.InvariantHoldsAtReset where
  config := by decide
  memory := State.reset_memory_wf
  placed _ hx := nomatch hx
  mirrored := mirrored_of_idle rfl (by decide)

/-- Settles O55: the fields of the state after power-on. -/
theorem powerOnState : Obligations.PowerOnState :=
  ⟨rfl, rfl, rfl, rfl, rfl, rfl, by decide, rfl⟩

end Sys2Proof.Machine
end

