-- ==== Sys2Proof/Proofs/RegisterWrites.lean ====
section
/-! PROOFS. The instructions that read and write registers, in general (R141, R142, R175): their encodings in the decided
map, that a read changes nothing, which of them answer a next state, and which are refused for their destination. -/

namespace Sys2Proof.Machine

/-! ### The encodings of the decided map (R96, R97, R108) -/

theorem codeOfReg_default_toNat (r : Reg) : (codeOfReg Config.default r).toNat = specifier r := by
  cases r <;> decide

theorem append_nibbles (x y : BitVec 4) : x ++ y = BitVec.ofNat 8 (x.toNat * 16 + y.toNat) := by
  revert x y
  decide

/-- A format f instruction of the map, as its rule prints it. -/
theorem bytesF_of_map {op : DfhOp} {b0 : Nat} (h : Config.default.dfhByte op = BitVec.ofNat 8 b0) (l r : Reg) :
    [Config.default.dfhByte op, regRegByte Config.default l r] = bytesF b0 l r := by
  rw [h, regRegByte, append_nibbles, codeOfReg_default_toNat, codeOfReg_default_toNat, bytesF]

/-- A format h instruction of the map, as its rule prints it. -/
theorem bytesH_of_map {op : DfhOp} {b0 : Nat} (h : Config.default.dfhByte op = BitVec.ofNat 8 b0) (r : Reg)
    (n : BitVec 3) : [Config.default.dfhByte op, bitFormByte Config.default r n] = bytesH b0 r n := by
  have low : (0#1 ++ n).toNat = n.toNat := by
    revert n
    decide
  rw [h, bitFormByte_eq, append_nibbles, codeOfReg_default_toNat, low, bytesH]

/-- A format g instruction, as its rule prints it. -/
theorem bytesG_of_pair (op : BitVec 5) (p : Pair) (r : Reg) (disp : BitVec 4) :
    [pairByte op p 0#1, codeOfReg Config.default r ++ disp] = bytesG (op.toNat * 8) p r disp := by
  rw [pairByte_eq_ofNat, append_nibbles, codeOfReg_default_toNat, bytesG]
  rfl

/-- The bytes of an address, low byte first (R101). -/
theorem bytesI_of_halves (b0 : Nat) (v : Addr) : [BitVec.ofNat 8 b0, loByte v, hiByte v] = bytesI b0 v := by
  have lo : loByte v = BitVec.ofNat 8 (v.toNat % 256) := by
    rw [← loByte_toNat, BitVec.ofNat_toNat, BitVec.setWidth_eq]
  have hi : hiByte v = BitVec.ofNat 8 (v.toNat / 256) := by
    rw [← hiByte_toNat, BitVec.ofNat_toNat, BitVec.setWidth_eq]
  rw [lo, hi, bytesI]

/-! ### Reads -/

theorem Frame.withDraws (s : State) (k : Nat) : Frame [] s (s.withDraws k) :=
  Frame.of_draws (Frame.refl (s.withDraws k))

/-- Settles O11: a read shows the register and moves the count of draws at most. -/
theorem readsHaveNoSideEffect : Obligations.ReadsHaveNoSideEffect := by
  intro s r
  obtain ⟨k, onlyDraws⟩ := s.readReg_state r
  refine ⟨s.readReg_shows r, ?_, ?_⟩ <;> rw [onlyDraws]
  · exact .withDraws s k
  · rfl

/-! ### Instructions that answer a next state -/

theorem FlaggedWrite.completes {s : State} {l : Reg} {v : Byte} {c z : Bool} {o : Result} (h : FlaggedWrite s l v c z o)
    (idle : l = .pcon → controlOf (s.reg .pcon) = 0x00#8) : ∃ t, o = .next t := by
  rw [FlaggedWrite, if_neg (by rw [cancels_idle s l v idle]; decide)] at h
  obtain ⟨t, run, -⟩ := h
  exact ⟨t, run⟩

theorem PlainWrite.completes {s : State} {l : Reg} {v : Byte} {o : Result} (h : PlainWrite s l v o)
    (idle : l = .pcon → controlOf (s.reg .pcon) = 0x00#8) : ∃ t, o = .next t := by
  rw [PlainWrite, if_neg (by rw [cancels_idle s l v idle]; decide)] at h
  obtain ⟨t, run, -⟩ := h
  exact ⟨t, run⟩

theorem execFlagged_completes {l r : Reg} (f : Byte → Byte → AluOut) {s : State} (hl : l ≠ .status)
    (idle : l = .pcon → controlOf (s.reg .pcon) = 0x00#8) : ∃ t, execFlagged l r f s = .next t := by
  obtain ⟨a, b, -, -, -, write⟩ := execFlagged_spec l r f s hl
  exact write.completes idle

theorem execRotate_completes {r : Reg} (f : BitVec 9 → BitVec 9) {s : State} (hr : r ≠ .status)
    (idle : r = .pcon → controlOf (s.reg .pcon) = 0x00#8) : ∃ t, execRotate r f s = .next t := by
  obtain ⟨b, -, write⟩ := execRotate_spec r f s hr
  exact write.completes idle

theorem execModify_completes {r : Reg} (f : Byte → Byte) {s : State}
    (idle : r = .pcon → controlOf (s.reg .pcon) = 0x00#8) : ∃ t, execModify r f s = .next t := by
  obtain ⟨v, -, write⟩ := execModify_spec r f s
  exact write.completes idle

/-- Settles O13: seven of the nine write both flags, two rotate. -/
theorem flaggedInstructionsComplete : Obligations.FlaggedInstructionsComplete := by
  intro l r n s hl idle
  simp only [exec_add, exec_addc, exec_sub, exec_subc, exec_and, exec_or, exec_xor, exec_rotl, exec_rotr]
  exact ⟨execFlagged_completes _ hl idle, execFlagged_completes _ hl idle, execFlagged_completes _ hl idle,
    execFlagged_completes _ hl idle, execFlagged_completes _ hl idle, execFlagged_completes _ hl idle,
    execFlagged_completes _ hl idle, execRotate_completes _ hl idle, execRotate_completes _ hl idle⟩

theorem exec_load (r : Reg) (p : Pair) (disp : BitVec 4) (s : State) : exec (.load r p disp) s =
    guarded (s.loadCheck (s.effAddr p disp)) s
      (settle ((s.readByte (s.effAddr p disp)).2.writeReg r (s.readByte (s.effAddr p disp)).1)) := rfl

/-- LOAD from an address that may be read is the write of the byte read there (R181). -/
theorem exec_load_readable {r : Reg} {p : Pair} {disp : BitVec 4} {s : State}
    (h : readable s (s.effAddr p disp) = true) :
    PlainWrite s r (s.readByte (s.effAddr p disp)).1 (exec (.load r p disp) s) := by
  obtain ⟨k, hk⟩ := readByte_state s (s.effAddr p disp)
  rw [exec_load, (s.loadCheck_cases _).1 h, guarded_pass, hk]
  exact settle_write s k r _

/-- Settles O14: each writes one register, but TEST, which writes none. -/
theorem plainInstructionsComplete : Obligations.PlainInstructionsComplete := by
  intro l r n p disp s idle
  simp only [exec_set, exec_clear, exec_shll, exec_shlr, exec_shal, exec_shar]
  obtain ⟨v, -, move⟩ := execMove_spec l r s
  exact ⟨move.completes idle, execModify_completes _ idle, execModify_completes _ idle, execModify_completes _ idle,
    execModify_completes _ idle, execModify_completes _ idle, execModify_completes _ idle, ⟨_, rfl⟩,
    fun may => (exec_load_readable may).completes idle⟩

/-! ### The destination STATUS -/

theorem FlaggedWrite.ne_statusDestination {s : State} {l : Reg} {v : Byte} {c z : Bool} {o : Result}
    (h : FlaggedWrite s l v c z o) : o ≠ .refused .statusDestination := by
  unfold FlaggedWrite at h
  split at h
  · rw [h]
    nofun
  · obtain ⟨t, run, -⟩ := h
    rw [run]
    nofun

theorem PlainWrite.ne_statusDestination {s : State} {l : Reg} {v : Byte} {o : Result} (h : PlainWrite s l v o) :
    o ≠ .refused .statusDestination := by
  unfold PlainWrite at h
  split at h
  · rw [h]
    nofun
  · obtain ⟨t, run, -⟩ := h
    rw [run]
    nofun

theorem raiseNmi_ne_refused (c : NmiCause) (i : Addr) (s : State) (r : Refusal) : raiseNmi c i s ≠ .refused r := by
  unfold raiseNmi
  split
  · nofun
  · unfold nmiEntry
    split <;> nofun

theorem guarded_ne_refused {x : Check} {s : State} {k : Result} {r : Refusal} (hx : x ≠ .refuse r)
    (hk : k ≠ .refused r) : guarded x s k ≠ .refused r := by
  cases x with
  | pass => exact hk
  | nmi c i => exact raiseNmi_ne_refused c i s r
  | refuse r' =>
    intro h
    cases h
    exact hx rfl

/-- The checks of addresses refuse for the address alone. -/
theorem Check.andThen_ne_refuse {x y : Check} {r : Refusal} (hx : x ≠ .refuse r) (hy : y ≠ .refuse r) :
    x.andThen y ≠ .refuse r := by
  cases x with
  | pass => exact hy
  | nmi | refuse => exact hx

theorem openReadCheck_ne_status (s : State) (a : Addr) : s.openReadCheck a ≠ .refuse .statusDestination := by
  unfold State.openReadCheck
  split <;> nofun

theorem openWriteCheck_ne_status (s : State) (a : Addr) : s.openWriteCheck a ≠ .refuse .statusDestination := by
  unfold State.openWriteCheck
  split
  · nofun
  · split <;> nofun

theorem targetCheck_ne_status (s : State) (a : Addr) : s.targetCheck a ≠ .refuse .statusDestination := by
  unfold State.targetCheck
  split <;> nofun

theorem loadCheck_ne_status (s : State) (a : Addr) : s.loadCheck a ≠ .refuse .statusDestination := by
  unfold State.loadCheck
  split
  · split <;> nofun
  · exact openReadCheck_ne_status s a

theorem storeCheck_ne_status (s : State) (a : Addr) : s.storeCheck a ≠ .refuse .statusDestination := by
  unfold State.storeCheck
  split
  · split <;> nofun
  · exact openWriteCheck_ne_status s a

theorem pushCheck_ne_status (s : State) : s.pushCheck ≠ .refuse .statusDestination := by
  unfold State.pushCheck
  split
  · split <;> nofun
  · exact Check.andThen_ne_refuse (openWriteCheck_ne_status s _) (openWriteCheck_ne_status s _)

theorem popCheck_ne_status (s : State) : s.popCheck ≠ .refuse .statusDestination := by
  unfold State.popCheck
  split
  · split <;> nofun
  · exact Check.andThen_ne_refuse (openReadCheck_ne_status s _) (openReadCheck_ne_status s _)

theorem execFlagged_ne_status {l r : Reg} {f : Byte → Byte → AluOut} {s : State} (hl : l ≠ .status) :
    execFlagged l r f s ≠ .refused .statusDestination := by
  obtain ⟨a, b, -, -, -, write⟩ := execFlagged_spec l r f s hl
  exact write.ne_statusDestination

theorem execRotate_ne_status {r : Reg} {f : BitVec 9 → BitVec 9} {s : State} (hr : r ≠ .status) :
    execRotate r f s ≠ .refused .statusDestination := by
  obtain ⟨b, -, write⟩ := execRotate_spec r f s hr
  exact write.ne_statusDestination

theorem execModify_ne_status (r : Reg) (f : Byte → Byte) (s : State) :
    execModify r f s ≠ .refused .statusDestination := by
  obtain ⟨v, -, write⟩ := execModify_spec r f s
  exact write.ne_statusDestination

theorem execBranch_ne_status (taken : Bool) (off : Byte) (s : State) :
    execBranch taken off s ≠ .refused .statusDestination := by
  unfold execBranch
  split
  · exact guarded_ne_refused (targetCheck_ne_status s _) nofun
  · nofun

/-- No instruction but a flag-writing one with destination STATUS is refused for its destination (R142). -/
theorem exec_ne_statusDestination (i : Instr) (s : State) (hi : i.flagWritingDest ≠ some .status) :
    exec i s ≠ .refused .statusDestination := by
  cases i with
  | add l | sub l | addc l | subc l | and l | or l | xor l =>
    simp only [exec_add, exec_sub, exec_addc, exec_subc, exec_and, exec_or, exec_xor]
    exact execFlagged_ne_status fun h => hi (congrArg some h)
  | rotl r | rotr r =>
    simp only [exec_rotl, exec_rotr]
    exact execRotate_ne_status fun h => hi (congrArg some h)
  | shll | shlr | shal | shar | set | clear =>
    simp only [exec_shll, exec_shlr, exec_shal, exec_shar, exec_set, exec_clear]
    exact execModify_ne_status _ _ s
  | br | brnz | brnc | brncz | brz | brc | brcz =>
    simp only [exec_br, exec_brnz, exec_brnc, exec_brncz, exec_brz, exec_brc, exec_brcz]
    exact execBranch_ne_status _ _ s
  | move l r =>
    obtain ⟨v, -, write⟩ := execMove_spec l r s
    exact write.ne_statusDestination
  | load r p disp =>
    obtain ⟨k, hk⟩ := readByte_state s (s.effAddr p disp)
    rw [exec_load, hk]
    exact guarded_ne_refused (loadCheck_ne_status s _) (settle_write s k r _).ne_statusDestination
  | store => exact guarded_ne_refused (storeCheck_ne_status s _) nofun
  | push => exact guarded_ne_refused (pushCheck_ne_status s) nofun
  | pop => exact guarded_ne_refused (popCheck_ne_status s) nofun
  | ret => exact guarded_ne_refused (popCheck_ne_status s) (guarded_ne_refused (targetCheck_ne_status _ _) nofun)
  | call target =>
    exact guarded_ne_refused (targetCheck_ne_status s target) (guarded_ne_refused (pushCheck_ne_status s) nofun)
  | jump target => exact guarded_ne_refused (targetCheck_ne_status s target) nofun
  | reset | inc | dec | decl | dech | incl | inch | movel | moveh | compl | comph | test | movei => nofun

/-- Settles O12: the nine flag-writing forms are refused with destination STATUS, and no other instruction is. -/
theorem statusDestinationIsRefused : Obligations.StatusDestinationIsRefused := by
  intro i s
  constructor
  · intro h
    by_cases dest : i.flagWritingDest = some .status
    · cases i with
      | add l r | sub l r | addc l r | subc l r | and l r | or l r | xor l r =>
        cases Option.some.inj dest
        exact .inl ⟨r, by simp⟩
      | rotl r n | rotr r n =>
        cases Option.some.inj dest
        exact .inr ⟨n, by simp⟩
      | _ => cases dest
    · exact absurd h (exec_ne_statusDestination i s dest)
  · rintro (⟨r, rfl | rfl | rfl | rfl | rfl | rfl | rfl⟩ | ⟨n, rfl | rfl⟩) <;> rfl

end Sys2Proof.Machine
end

