-- ==== Sys2Proof/Proofs/Arithmetic.lean ====
section
/-! PROOFS. ADD, ADDC, SUB, SUBC (R131 to R134): sums and differences as numbers, and the chains of two on pairs. -/

namespace Sys2Proof.Machine

/-! ### Sums and differences as numbers -/

theorem ofNat_byte_eq_zero (n : Nat) : (BitVec.ofNat 8 n == 0#8) = decide (n % 256 = 0) := by
  rw [beq_eq_decide, decide_eq_decide, ← BitVec.toNat_inj, BitVec.toNat_ofNat]
  rfl

theorem addOut_zero (a b : Byte) (cin : Bool) :
    (addOut a b cin).zero = decide ((a.toNat + b.toNat + cin.toNat) % 256 = 0) :=
  ofNat_byte_eq_zero _

theorem addOut_value_toNat (a b : Byte) (cin : Bool) :
    (addOut a b cin).value.toNat = (a.toNat + b.toNat + cin.toNat) % 256 :=
  BitVec.toNat_ofNat ..

theorem addOut_carry (a b : Byte) (cin : Bool) :
    (addOut a b cin).carry = decide (256 ≤ a.toNat + b.toNat + cin.toNat) := rfl

theorem subOut_value_toNat (a b : Byte) (bin : Bool) :
    (subOut a b bin).value.toNat = (a.toNat + 512 - b.toNat - bin.toNat) % 256 := by
  have hb := b.isLt
  cases bin <;> simp only [subOut, BitVec.toNat_sub, BitVec.toNat_ofNat, Bool.toNat_false, Bool.toNat_true] <;> omega

theorem subOut_carry (a b : Byte) (bin : Bool) :
    (subOut a b bin).carry = decide (a.toNat < b.toNat + bin.toNat) := rfl

theorem subOut_value (a b : Byte) (bin : Bool) :
    (subOut a b bin).value = BitVec.ofInt 8 ((a.toNat : Int) - b.toNat - bin.toNat) := by
  have hb := b.isLt
  apply BitVec.eq_of_toNat_eq
  rw [subOut_value_toNat, BitVec.toNat_ofInt]
  cases bin <;> simp only [Bool.toNat_false, Bool.toNat_true] <;> omega

theorem subOut_zero (a b : Byte) (bin : Bool) :
    (subOut a b bin).zero = decide (((a.toNat : Int) - b.toNat - bin.toNat) % 256 = 0) := by
  have hb := b.isLt
  show ((subOut a b bin).value == 0#8) = _
  rw [beq_eq_decide, decide_eq_decide, ← BitVec.toNat_inj, subOut_value_toNat, BitVec.toNat_ofNat]
  cases bin <;> simp only [Bool.toNat_false, Bool.toNat_true] <;> omega

/-- Without a borrow the difference is zero exactly for equal bytes. -/
theorem subOut_zero_of_no_borrow (a b : Byte) : (subOut a b false).zero = decide (a = b) := by
  have ha := a.isLt
  have hb := b.isLt
  rw [subOut_zero, decide_eq_decide, ← BitVec.toNat_inj]
  simp only [Bool.toNat_false]
  omega

/-! ### The four instructions -/

/-- Settles O15: the sum of both operands without a carry in. -/
theorem addWritesTheSum : Obligations.AddWritesTheSum := by
  intro l r s
  refine ⟨bytesF_of_map (by decide) l r, fun h => by rw [h]; rfl, fun hl => ?_⟩
  obtain ⟨a, b, ha, hb, same, write⟩ := execFlagged_spec l r (fun a b => addOut a b false) s hl
  rw [addOut_zero] at write
  exact ⟨a, b, ha, hb, same, write⟩

/-- Settles O16: the sum of both operands and the carry in. -/
theorem addcWritesTheSumWithCarry : Obligations.AddcWritesTheSumWithCarry := by
  intro l r s
  refine ⟨bytesF_of_map (by decide) l r, fun h => by rw [h]; rfl, fun hl => ?_⟩
  obtain ⟨a, b, ha, hb, same, write⟩ := execFlagged_spec l r (fun a b => addOut a b s.carry) s hl
  rw [addOut_zero] at write
  exact ⟨a, b, ha, hb, same, write⟩

/-- Settles O17: the difference of both operands without a borrow in. -/
theorem subWritesTheDifference : Obligations.SubWritesTheDifference := by
  intro l r s
  refine ⟨bytesF_of_map (by decide) l r, fun h => by rw [h]; rfl, fun hl => ?_⟩
  obtain ⟨a, b, ha, hb, same, write⟩ := execFlagged_spec l r (fun a b => subOut a b false) s hl
  rw [subOut_value, subOut_zero_of_no_borrow, Bool.toNat_false, Nat.cast_zero, sub_zero] at write
  exact ⟨a, b, ha, hb, same, write⟩

theorem borrowIn_toNat (m : BorrowIn) (c : Bool) :
    (m = .notCarry → ((borrowIn m c).toNat : Int) = 1 - c.toNat) ∧
    (m = .carry → ((borrowIn m c).toNat : Int) = c.toNat) := by
  cases m <;> cases c <;> simp [borrowIn]

/-- Settles O18: the difference of both operands and the borrow of the parameter. -/
theorem subcWritesTheDifferenceWithBorrow : Obligations.SubcWritesTheDifferenceWithBorrow := by
  intro l r s
  refine ⟨bytesF_of_map (by decide) l r, fun h => by rw [h]; rfl, fun hl => ?_⟩
  obtain ⟨notCarry, carry⟩ := borrowIn_toNat s.config.subcBorrowIn s.carry
  obtain ⟨a, b, ha, hb, same, write⟩ :=
    execFlagged_spec l r (fun a b => subOut a b (borrowIn s.config.subcBorrowIn s.carry)) s hl
  refine ⟨a, b, (borrowIn s.config.subcBorrowIn s.carry).toNat, ha, hb, same, notCarry, carry, ?_⟩
  have borrow : (subOut a b (borrowIn s.config.subcBorrowIn s.carry)).carry =
      decide ((a.toNat : Int) - b.toNat - (borrowIn s.config.subcBorrowIn s.carry).toNat < 0) := by
    rw [subOut_carry, decide_eq_decide]
    omega
  rw [subOut_value, subOut_zero, borrow] at write
  exact write

/-! ### Chains on pairs -/

/-- A register with no side effect and no open bits: the general registers are such (R20 (a)). -/
def Plain (r : Reg) : Prop := r ≠ .status ∧ r ≠ .pcon ∧ r ≠ .pdata ∧ r ≠ .ecscr

theorem plain_halves (p : Pair) : Plain p.lo ∧ Plain p.hi := by
  obtain ⟨-, a, b, c, d, e, f, g, h⟩ := pair_halves p
  exact ⟨⟨a, c, e, g⟩, b, d, f, h⟩

/-- A flag-writing instruction on plain registers works on their stored bytes, and writes one of them and the flags. -/
theorem execFlagged_plain {l r : Reg} (hl : Plain l) (hr : Plain r) {f : Byte → Byte → AluOut} {s t : State}
    (h : execFlagged l r f s = .next t) :
    t.reg l = (f (s.reg l) (s.reg r)).value ∧ t.carry = (f (s.reg l) (s.reg r)).carry ∧
      (∀ q, q ≠ .status → q ≠ l → t.reg q = s.reg q) ∧ t.config = s.config := by
  obtain ⟨lStatus, lPcon, lPdata, lEcscr⟩ := hl
  obtain ⟨rStatus, -, rPdata, rEcscr⟩ := hr
  obtain ⟨a, b, ha, hb, -, write⟩ := execFlagged_spec l r f s lStatus
  rw [ha.stored lStatus lPdata lEcscr, hb.stored rStatus rPdata rEcscr] at write
  rw [FlaggedWrite, if_neg (by rw [cancels_idle s l _ fun e => absurd e lPcon]; decide)] at write
  obtain ⟨u, run, wrote, carry, -, -, frame, -⟩ := write
  rw [h] at run
  cases run
  exact ⟨wrote.stored lPcon, carry, fun q qs ql => frame.regs q (by simp [touched, lPcon, qs, ql]), frame.config⟩

/-- Two flag-writing instructions, on the low halves and then on the high halves of two pairs, as one operation: the second
pair stays, and the halves of the first are the two results. -/
theorem execFlagged_chain {p q : Pair} (ne : p ≠ q) {f g : Byte → Byte → AluOut} {s t u : State}
    (low : execFlagged p.lo q.lo f s = .next t) (high : execFlagged p.hi q.hi g t = .next u) :
    (u.pair p).toNat = (g (s.reg p.hi) (s.reg q.hi)).value.toNat * 256 + (f (s.reg p.lo) (s.reg q.lo)).value.toNat ∧
      u.pair q = s.pair q ∧ t.carry = (f (s.reg p.lo) (s.reg q.lo)).carry ∧
      u.carry = (g (s.reg p.hi) (s.reg q.hi)).carry ∧ t.config = s.config := by
  obtain ⟨pLo, pHi⟩ := plain_halves p
  obtain ⟨qLo, qHi⟩ := plain_halves q
  have loHi : p.lo ≠ p.hi := (pair_halves p).1
  obtain ⟨qLoOut, qHiOut⟩ := pair_halves_disjoint ne.symm
  simp only [List.mem_cons, List.not_mem_nil, or_false, not_or] at qLoOut qHiOut
  obtain ⟨lowValue, lowCarry, lowKept, config⟩ := execFlagged_plain pLo qLo low
  obtain ⟨highValue, highCarry, highKept, -⟩ := execFlagged_plain pHi qHi high
  have hiKept : t.reg p.hi = s.reg p.hi := lowKept p.hi pHi.1 loHi.symm
  have qHiKept : t.reg q.hi = s.reg q.hi := lowKept q.hi qHi.1 qHiOut.2
  rw [hiKept, qHiKept] at highValue highCarry
  refine ⟨?_, ?_, lowCarry, highCarry, config⟩
  · rw [State.pair_toNat, highValue, highKept p.lo pLo.1 loHi, lowValue]
  · rw [State.pair, State.pair, highKept q.hi qHi.1 qHiOut.1, qHiKept, highKept q.lo qLo.1 qLoOut.1,
      lowKept q.lo qLo.1 qLoOut.2]

/-- Settles O21: the carry of the low halves is the carry in of the high halves. -/
theorem addThenAddcAddsPairs : Obligations.AddThenAddcAddsPairs := by
  intro p q s t u ne low high
  rw [exec_add] at low
  rw [exec_addc] at high
  obtain ⟨value, kept, lowCarry, highCarry, -⟩ := execFlagged_chain ne low high
  rw [addOut_carry, Bool.toNat_false] at lowCarry
  rw [lowCarry, addOut_value_toNat, addOut_value_toNat] at value
  rw [lowCarry, addOut_carry] at highCarry
  simp only [State.pair_toNat s] at value ⊢
  have bounds := And.intro (s.reg p.lo).isLt (s.reg q.lo).isLt
  refine ⟨?_, kept, ?_⟩
  · rw [value]
    by_cases carry : 256 ≤ (s.reg p.lo).toNat + (s.reg q.lo).toNat + 0 <;> simp only [carry, decide_true, decide_false,
      Bool.toNat_true, Bool.toNat_false] <;> omega
  · rw [highCarry, decide_eq_decide]
    by_cases carry : 256 ≤ (s.reg p.lo).toNat + (s.reg q.lo).toNat + 0 <;> simp only [carry, decide_true, decide_false,
      Bool.toNat_true, Bool.toNat_false] <;> omega

/-- Settles O22: the borrow of the low halves is the borrow in of the high halves. -/
theorem subThenSubcSubtractsPairs : Obligations.SubThenSubcSubtractsPairs := by
  intro p q s t u ne setting low high
  rw [exec_sub] at low
  rw [exec_subc] at high
  obtain ⟨value, kept, lowCarry, highCarry, config⟩ := execFlagged_chain ne low high
  rw [subOut_carry, Bool.toNat_false] at lowCarry
  rw [config, setting, borrowIn, lowCarry, subOut_value_toNat, subOut_value_toNat] at value
  rw [config, setting, borrowIn, lowCarry, subOut_carry] at highCarry
  simp only [State.pair_toNat s] at value ⊢
  have bounds := And.intro (s.reg p.lo).isLt (And.intro (s.reg q.lo).isLt (s.reg q.hi).isLt)
  refine ⟨?_, kept, ?_⟩
  · rw [value]
    by_cases borrow : (s.reg p.lo).toNat < (s.reg q.lo).toNat + 0 <;> simp only [borrow, decide_true, decide_false,
      Bool.toNat_true, Bool.toNat_false] <;> omega
  · rw [highCarry, decide_eq_decide]
    by_cases borrow : (s.reg p.lo).toNat < (s.reg q.lo).toNat + 0 <;> simp only [borrow, decide_true, decide_false,
      Bool.toNat_true, Bool.toNat_false] <;> omega

end Sys2Proof.Machine
end

