-- ==== Sys2Proof/Proofs/LogicShift.lean ====
section
/-! PROOFS. The logic, shift and move instructions (R151 to R162, R173, R174, R185, R186): each result as a number or bit by
bit, over the shared shape of its family. -/

namespace Sys2Proof.Machine

/-! ### Shifts as numbers -/

theorem ofNat_toNat_byte (v : Byte) : BitVec.ofNat 8 v.toNat = v := by
  rw [BitVec.ofNat_toNat, BitVec.setWidth_eq]

theorem shiftLeftLogical_eq (v : Byte) (n : BitVec 3) :
    shiftLeftLogical v n = BitVec.ofNat 8 (v.toNat * 2 ^ n.toNat) := by
  apply BitVec.eq_of_toNat_eq
  rw [shiftLeftLogical, BitVec.toNat_shiftLeft, BitVec.toNat_ofNat, Nat.shiftLeft_eq]

theorem shiftRightLogical_eq (v : Byte) (n : BitVec 3) :
    shiftRightLogical v n = BitVec.ofNat 8 (v.toNat / 2 ^ n.toNat) := by
  rw [← Nat.shiftRight_eq_div_pow, ← BitVec.toNat_ushiftRight, ofNat_toNat_byte]
  rfl

/-- The sign bit kept beside seven shifted bits: the two do not overlap, so their union is their sum. -/
theorem shiftLeftArith_eq (v : Byte) (n : BitVec 3) :
    shiftLeftArith v n = BitVec.ofNat 8 (v.toNat / 128 * 128 + v.toNat * 2 ^ n.toNat % 128) := by
  have sign : ∀ x : Byte, x &&& 0x80#8 = BitVec.ofNat 8 (x.toNat / 128 * 128) := by decide
  have low : ∀ x : Byte, x &&& 0x7F#8 = BitVec.ofNat 8 (x.toNat % 128) := by decide
  have apart : (v &&& 0x80#8) &&& ((v <<< n.toNat) &&& 0x7F#8) = 0#8 := by
    rw [BitVec.and_assoc, BitVec.and_comm 0x80#8, BitVec.and_assoc (v <<< n.toNat),
      show 0x7F#8 &&& 0x80#8 = 0#8 by decide, BitVec.and_zero, BitVec.and_zero]
  have shifted : (v <<< n.toNat).toNat % 128 = v.toNat * 2 ^ n.toNat % 128 := by
    rw [BitVec.toNat_shiftLeft, Nat.shiftLeft_eq]
    omega
  rw [shiftLeftArith, ← BitVec.add_eq_or_of_and_eq_zero _ _ apart, sign, low, shifted, BitVec.ofNat_add]

theorem shiftRightArith_eq (v : Byte) (n : BitVec 3) :
    shiftRightArith v n = BitVec.ofInt 8 (v.toInt / (2 ^ n.toNat : Int)) := by
  have floor : v.toInt / (2 ^ n.toNat : Int) = (shiftRightArith v n).toInt := by
    rw [shiftRightArith, BitVec.toInt_sshiftRight, Int.shiftRight_eq_div_pow]
    norm_cast
  rw [floor, BitVec.ofInt_toInt]

/-- Settles O23: each shift is a change of the register as read. -/
theorem shiftsWriteTheRegister : Obligations.ShiftsWriteTheRegister := by
  intro r n s
  refine ⟨bytesH_of_map (by decide) r n, bytesH_of_map (by decide) r n, bytesH_of_map (by decide) r n,
    bytesH_of_map (by decide) r n, ?shll, ?shlr, ?shal, ?shar⟩
  case shll =>
    obtain ⟨v, shows, write⟩ := execModify_spec r (fun v => shiftLeftLogical v n) s
    rw [shiftLeftLogical_eq] at write
    exact ⟨v, shows, write⟩
  case shlr =>
    obtain ⟨v, shows, write⟩ := execModify_spec r (fun v => shiftRightLogical v n) s
    rw [shiftRightLogical_eq] at write
    exact ⟨v, shows, write⟩
  case shal =>
    obtain ⟨v, shows, write⟩ := execModify_spec r (fun v => shiftLeftArith v n) s
    rw [shiftLeftArith_eq] at write
    exact ⟨v, shows, write⟩
  case shar =>
    obtain ⟨v, shows, write⟩ := execModify_spec r (fun v => shiftRightArith v n) s
    rw [shiftRightArith_eq] at write
    exact ⟨v, shows, write⟩

/-! ### The ring of the rotates -/

theorem ringOf_toNat (c : Bool) (b : Byte) : (ringOf c b).toNat = c.toNat * 256 + b.toNat := by
  have below : b.toNat < 2 ^ 8 := b.isLt
  rw [ringOf, BitVec.toNat_append, ← Nat.shiftLeft_add_eq_or_of_lt below, Nat.shiftLeft_eq]
  cases c <;> rfl

/-- The ring turned `m` places to the left: the high part moves up, the `m` bits that leave at the top enter below. -/
theorem turn_toNat (x : BitVec 9) {m : Nat} (hm : m ≤ 9) :
    ((x <<< m) ||| (x >>> (9 - m))).toNat = x.toNat * 2 ^ m % 512 + x.toNat / 2 ^ (9 - m) := by
  have width : 512 = 2 ^ m * 2 ^ (9 - m) := by rw [← pow_add, Nat.add_sub_cancel' hm]; rfl
  have leave : x.toNat / 2 ^ (9 - m) < 2 ^ m := Nat.div_lt_of_lt_mul (by rw [mul_comm, ← width]; exact x.isLt)
  have rise : x.toNat * 2 ^ m % 512 = (x.toNat % 2 ^ (9 - m)) <<< m := by
    rw [width, mul_comm x.toNat, Nat.mul_mod_mul_left, Nat.shiftLeft_eq, mul_comm]
  rw [BitVec.toNat_or, BitVec.toNat_shiftLeft, BitVec.toNat_ushiftRight, Nat.shiftLeft_eq, Nat.shiftRight_eq_div_pow,
    show 2 ^ 9 = 512 from rfl, rise, Nat.shiftLeft_add_eq_or_of_lt leave]

theorem ringLeft_toNat (x : BitVec 9) (n : BitVec 3) :
    (ringLeft x n).toNat = x.toNat * 2 ^ n.toNat % 512 + x.toNat / 2 ^ (9 - n.toNat) :=
  turn_toNat x (by have := n.isLt; omega)

theorem ringRight_toNat (x : BitVec 9) (n : BitVec 3) :
    (ringRight x n).toNat = x.toNat / 2 ^ n.toNat + x.toNat * 2 ^ (9 - n.toNat) % 512 := by
  have turned := turn_toNat x (m := 9 - n.toNat) (by omega)
  rw [show 9 - (9 - n.toNat) = n.toNat by have := n.isLt; omega] at turned
  rw [ringRight, BitVec.or_comm, turned, add_comm]

theorem ringByte_eq (x : BitVec 9) : ringByte x = BitVec.ofNat 8 (x.toNat % 256) := by
  apply BitVec.eq_of_toNat_eq
  simp [ringByte]

theorem ringCarry_eq (x : BitVec 9) : ringCarry x = decide (x.toNat / 256 = 1) := by
  have := x.isLt
  rw [ringCarry, BitVec.getLsbD, Nat.testBit_eq_decide_div_mod_eq, decide_eq_decide]
  omega

/-- A rotate of the value a read of the register shows: two rotates of one register read the same. -/
theorem execRotate_read (r : Reg) (f : BitVec 9 → BitVec 9) (s : State) (hr : r ≠ .status) :
    FlaggedWrite s r (ringByte (f (ringOf s.carry (s.readReg r).1))) (ringCarry (f (ringOf s.carry (s.readReg r).1))) s.zero
      (execRotate r f s) := by
  obtain ⟨k, hk⟩ := s.readReg_state r
  unfold execRotate
  rw [if_neg hr]
  simp only [hk]
  refine flagged_write s k r _ hr _ _ (fun t => t.setCarry _) (fun t => ?_)
  obtain ⟨carry, zero, kept, only⟩ := t.setCarry_spec (ringCarry (f (ringOf s.carry (s.readReg r).1)))
  exact ⟨carry, fun e => zero.trans e, kept, only⟩

/-- Settles O24: both rotates take their parts of the turned ring. -/
theorem rotatesTurnTheRing : Obligations.RotatesTurnTheRing := by
  intro r n s
  refine ⟨bytesH_of_map (by decide) r n, bytesH_of_map (by decide) r n, ?_, fun hr => ?_⟩
  · rintro rfl
    exact ⟨rfl, rfl⟩
  · have left := execRotate_read r (fun x => ringLeft x n) s hr
    have right := execRotate_read r (fun x => ringRight x n) s hr
    rw [ringByte_eq, ringCarry_eq, ringLeft_toNat, ringOf_toNat] at left
    rw [ringByte_eq, ringCarry_eq, ringRight_toNat, ringOf_toNat] at right
    exact ⟨(s.readReg r).1, _, _, _, s.readReg_shows r, rfl, rfl, rfl, left, right⟩

/-! ### Single bits -/

theorem bitOf_bitMask (n : BitVec 3) (j : Nat) (hj : j < 8) : bitOf (bitMask n) j = decide (j = n.toNat) := by
  revert n
  interval_cases j <;> decide

theorem bitOf_or (a b : Byte) (j : Nat) : bitOf (a ||| b) j = (bitOf a j || bitOf b j) := BitVec.getLsbD_or

theorem bitOf_and (a b : Byte) (j : Nat) : bitOf (a &&& b) j = (bitOf a j && bitOf b j) := BitVec.getLsbD_and

theorem bitOf_xor (a b : Byte) (j : Nat) : bitOf (a ^^^ b) j = (bitOf a j != bitOf b j) := BitVec.getLsbD_xor

/-- Settles O25: the mask of the bit is set or cleared in the register as read. -/
theorem setAndClearChangeOneBit : Obligations.SetAndClearChangeOneBit := by
  intro r n s
  refine ⟨bytesH_of_map (by decide) r n, bytesH_of_map (by decide) r n, ?set, ?clear⟩
  case set =>
    obtain ⟨v, shows, write⟩ := execModify_spec r (fun v => v ||| bitMask n) s
    refine ⟨v, _, shows, fun j hj => ?_, write⟩
    rw [bitOf_or, bitOf_bitMask n j hj, Bool.or_comm]
  case clear =>
    obtain ⟨v, shows, write⟩ := execModify_spec r (fun v => v &&& ~~~(bitMask n)) s
    refine ⟨v, _, shows, fun j hj => ?_, write⟩
    rw [bitOf_andNot _ _ j hj, bitOf_bitMask n j hj, Bool.and_comm]

theorem bitOf_eq_decide (b : Byte) (j : Nat) : bitOf b j = decide (b.toNat / 2 ^ j % 2 = 1) :=
  Nat.testBit_eq_decide_div_mod_eq

/-- Settles O26: after the read only Z is written. -/
theorem testCopiesTheBitIntoZero : Obligations.TestCopiesTheBitIntoZero := by
  intro r n s
  obtain ⟨k, hk⟩ := s.readReg_state r
  have run : exec (.test r n) s = .next ((s.withDraws k).setZero (bitOf (s.readReg r).1 n.toNat)) := by
    rw [← hk]
    rfl
  obtain ⟨carry, zero, kept, only⟩ := (s.withDraws k).setZero_spec (bitOf (s.readReg r).1 n.toNat)
  refine ⟨bytesH_of_map (by decide) r n, _, _, s.readReg_shows r, run, zero.trans (bitOf_eq_decide _ _), carry, kept, ?_, rfl⟩
  rw [only]
  exact (Frame.withDraws s k).putStatus _

/-! ### AND, OR, XOR -/

/-- A flag-writing instruction on the values the reads of both registers show: two of them read the same. -/
theorem execFlagged_read (l r : Reg) (f : Byte → Byte → AluOut) (s : State) (hl : l ≠ .status) :
    FlaggedWrite s l (f (s.readTwo l r).1.1 (s.readTwo l r).1.2).value (f (s.readTwo l r).1.1 (s.readTwo l r).1.2).carry
      (f (s.readTwo l r).1.1 (s.readTwo l r).1.2).zero (execFlagged l r f s) := by
  obtain ⟨⟨k, hk⟩, -⟩ := s.readTwo_spec l r
  unfold execFlagged
  rw [if_neg hl]
  simp only [hk]
  refine flagged_write s k l _ hl _ _ (fun t => t.setFlags _ _) (fun t => ?_)
  obtain ⟨carry, zero, kept, only⟩ := t.setFlags_spec (f (s.readTwo l r).1.1 (s.readTwo l r).1.2).carry
    (f (s.readTwo l r).1.1 (s.readTwo l r).1.2).zero
  exact ⟨carry, fun _ => zero, kept, only⟩

theorem logicOut_write {s : State} {l : Reg} {v : Byte} {o : Result}
    (h : FlaggedWrite s l (logicOut v).value (logicOut v).carry (logicOut v).zero o) :
    FlaggedWrite s l v false (decide (v = 0x00#8)) o := by
  rw [show (logicOut v).zero = (v == 0#8) from rfl, beq_eq_decide] at h
  exact h

/-- Settles O27: the three work on the same two values read. -/
theorem logicWorksBitByBit : Obligations.LogicWorksBitByBit := by
  intro l r s
  refine ⟨bytesF_of_map (by decide) l r, bytesF_of_map (by decide) l r, bytesF_of_map (by decide) l r, ?_, fun hl => ?_⟩
  · rintro rfl
    exact ⟨rfl, rfl, rfl⟩
  · obtain ⟨-, ha, hb, same⟩ := s.readTwo_spec l r
    exact ⟨_, _, ha, hb, same,
      ⟨_, fun j _ => bitOf_and _ _ j, logicOut_write (execFlagged_read l r (fun a b => logicOut (a &&& b)) s hl)⟩,
      ⟨_, fun j _ => bitOf_or _ _ j, logicOut_write (execFlagged_read l r (fun a b => logicOut (a ||| b)) s hl)⟩,
      ⟨_, fun j _ => bitOf_xor _ _ j, logicOut_write (execFlagged_read l r (fun a b => logicOut (a ^^^ b)) s hl)⟩⟩

/-! ### MOVE, MOVEI, INC, DEC -/

/-- Settles O28: a read of the right register, then a write of the left one. -/
theorem moveCopiesTheRegister : Obligations.MoveCopiesTheRegister := by
  intro l r s
  exact ⟨bytesF_of_map (by decide) l r, execMove_spec l r s⟩

/-- Settles O30: both halves of the pair are replaced by the bytes of the immediate. -/
theorem moveiWritesThePair : Obligations.MoveiWritesThePair := by
  intro p value s
  refine ⟨?encoding, s.putPair p value, rfl, ?low, ?high, (Frame.putPair s p value).mono (by simp [and_comm]), rfl⟩
  case encoding =>
    rw [← bytesI_of_halves]
    exact congrArg (fun b => [b, loByte value, hiByte value]) (pairByte_eq_ofNat 0b11100#5 p 0#1)
  case low => rw [State.putPair_lo, loByte_toNat]
  case high => rw [State.putPair_hi, hiByte_toNat]

theorem exec_inc (p : Pair) (s : State) :
    exec (.inc p) s = execPair p (s.pair p + 1#16) (incPairCarry (s.pair p)) s := rfl
theorem exec_dec (p : Pair) (s : State) :
    exec (.dec p) s = execPair p (s.pair p - 1#16) (decPairCarry (s.pair p)) s := rfl

/-- A pair replaced by a value, with the flags as numbers say. -/
theorem execPair_numbers (p : Pair) (s : State) {v : Addr} {c : Bool} {n : Nat} {carry : Prop} [Decidable carry]
    (value : v.toNat = n) (flag : c = decide carry) :
    ∃ t, execPair p v c s = .next t ∧ (t.pair p).toNat = n ∧ t.carry = decide carry ∧
      t.zero = decide ((t.pair p).toNat = 0) ∧ StatusKept s t ∧ Frame [.status, p.lo, p.hi] s t ∧ t.pc = s.pc := by
  obtain ⟨t, run, pair, hc, hz, kept, frame, pc⟩ := execPair_spec p v c s
  refine ⟨t, run, pair ▸ value, hc.trans flag, ?_, kept, frame.mono (by simp; tauto), pc⟩
  rw [hz, pair, beq_eq_decide, decide_eq_decide, ← BitVec.toNat_inj]
  rfl

/-- Settles O36: INC and DEC replace the pair by its neighbour modulo 2^16. -/
theorem pairsStepByOne : Obligations.PairsStepByOne := by
  intro p s
  have bound := (s.pair p).isLt
  have max : incPairCarry (s.pair p) = decide ((s.pair p).toNat + 1 = 65536) := by
    rw [incPairCarry, beq_eq_decide, decide_eq_decide, ← BitVec.toNat_inj, BitVec.toNat_ofNat]
    omega
  have min : decPairCarry (s.pair p) = decide ((s.pair p).toNat = 0) := by
    rw [decPairCarry, beq_eq_decide, decide_eq_decide, ← BitVec.toNat_inj, BitVec.toNat_ofNat]
  refine ⟨pairByte_eq_bytesB 0b01100#5 p 0#1, pairByte_eq_bytesB 0b01100#5 p 1#1, ?up, ?down⟩
  case up =>
    rw [exec_inc]
    exact execPair_numbers p s (BitVec.toNat_add _ _) max
  case down =>
    rw [exec_dec]
    refine execPair_numbers p s ?_ min
    rw [BitVec.toNat_sub, BitVec.toNat_ofNat]
    omega

end Sys2Proof.Machine
end

