-- ==== Sys2Proof/Proofs/MemoryAccess.lean ====
section
/-! PROOFS. LOAD, STORE, PUSH and POP (R181 to R184): the checks first, then one byte or the word on the stack; and that a
pop gives back what a push stored. -/

namespace Sys2Proof.Machine

/-! ### LOAD and STORE -/

theorem effAddr_toNat (s : State) (p : Pair) (disp : BitVec 4) :
    (s.effAddr p disp).toNat = ((s.pair p).toNat + disp.toNat) % 65536 := by
  have small := disp.isLt
  rw [State.effAddr, BitVec.toNat_add, zext16, BitVec.toNat_setWidth]
  omega

/-- Settles O31: the check, the read of the byte, and the write of the register. -/
theorem loadReadsTheEffectiveAddress : Obligations.LoadReadsTheEffectiveAddress := by
  intro r p disp s
  obtain ⟨-, unreadable⟩ := s.loadCheck_cases (s.effAddr p disp)
  refine ⟨bytesG_of_pair 0b10100#5 p r disp, effAddr_toNat s p disp, fun may => ⟨fun ordinary => ?_, fun _ => ?_⟩,
    fun mayNot => ?_⟩
  · have write := exec_load_readable (r := r) may
    rwa [State.readByte, ordinary] at write
  · exact ⟨_, exec_load_readable may⟩
  · obtain ⟨on, off⟩ := unreadable mayNot
    rw [exec_load]
    exact ⟨fun h => by rw [on h, guarded_nmi], fun h => by rw [off h, guarded_refuse]⟩

theorem exec_store (r : Reg) (p : Pair) (disp : BitVec 4) (s : State) : exec (.store p disp r) s =
    guarded (s.storeCheck (s.effAddr p disp)) s
      (.next ((s.readReg r).2.writeByte (s.effAddr p disp) (s.readReg r).1)) := rfl

theorem withDraws_same (s : State) (k : Nat) : SameMachine s (s.withDraws k) := by
  constructor <;> rfl

theorem SameMachine.trans' {s t u : State} (h : SameMachine s t) (k : SameMachine t u) : SameMachine s u :=
  ⟨k.regs.trans h.regs, k.port.trans h.port, k.pdataUndefined.trans h.pdataUndefined, k.pwmDuty.trans h.pwmDuty,
    k.dout.trans h.dout, k.policing.trans h.policing, k.sci.trans h.sci, k.hostRead.trans h.hostRead,
    k.arrivals.trans h.arrivals, k.timerWait.trans h.timerWait, k.config.trans h.config⟩

theorem writeByte_same (s : State) (a : Addr) (v : Byte) : SameMachine s (s.writeByte a v) := by
  constructor <;> simp

/-- Settles O32: the check, the read of the register, and the write of the byte. -/
theorem storeWritesTheEffectiveAddress : Obligations.StoreWritesTheEffectiveAddress := by
  intro r p disp s
  obtain ⟨inside, outside⟩ := s.storeCheck_cases (s.effAddr p disp)
  refine ⟨bytesG_of_pair 0b10101#5 p r disp, fun ram => ?_, fun noRam => ?_⟩
  · obtain ⟨k, hk⟩ := s.readReg_state r
    have run : exec (.store p disp r) s =
        .next ((s.withDraws k).writeByte (s.effAddr p disp) (s.readReg r).1) := by
      rw [exec_store, inside ram, guarded_pass, hk]
    refine ⟨_, _, s.readReg_shows r, run, fun ordinary => ?_, ?_, (withDraws_same s k).trans' (writeByte_same _ _ _),
      State.writeByte_sp _ _ _, State.writeByte_irq _ _ _, State.writeByte_pc _ _ _⟩
    · rw [State.byteAt_writeByte _ _ _ _ ordinary, if_pos rfl]
    · rintro a (other | zone)
      · exact State.byteAt_writeByte_other _ _ _ _ other
      · rw [State.writeByte_smb _ _ _ zone]
        rfl
  · obtain ⟨on, off⟩ := outside noRam
    rw [exec_store]
    exact ⟨fun h => by rw [on h, guarded_nmi], fun h => by rw [off h, guarded_refuse]⟩

/-! ### PUSH and POP -/

theorem exec_push (p : Pair) (s : State) :
    exec (.push p) s = guarded s.pushCheck s (.next (s.pushWord (s.pair p))) := rfl

theorem exec_pop (p : Pair) (s : State) : exec (.pop p) s =
    guarded s.popCheck s (.next ((s.topWord.2.putPair p s.topWord.1).withSp (s.sp + 2#16))) := rfl

/-- What a push does where there is no room (R74, R76). -/
theorem guarded_push_noRoom {s : State} (room : pushRoom s = false) (k : Result) :
    (s.policing = true → guarded s.pushCheck s k = raiseNmi .stack s.sp s) ∧
    (s.policing = false → ∃ a, (a = s.sp - 2#16 ∨ a = s.sp - 1#16) ∧ s.inRam a = false ∧
      guarded s.pushCheck s k = .refused (storeRefusal s a)) := by
  obtain ⟨-, on, off⟩ := s.pushCheck_cases
  refine ⟨fun h => by rw [on room h, guarded_nmi], fun h => ?_⟩
  obtain ⟨a, place, outside, check⟩ := off room h
  exact ⟨a, place, outside, by rw [check, guarded_refuse]⟩

/-- What a pop does where the stack may not be read (R74, R76). -/
theorem guarded_pop_noRoom {s : State} (room : popRoom s = false) (k : Result) :
    (s.policing = true → guarded s.popCheck s k = raiseNmi .stack s.sp s) ∧
    (s.policing = false → ∃ a, (a = s.sp ∨ a = s.sp + 1#16) ∧ readable s a = false ∧
      guarded s.popCheck s k = .refused (.unimplementedAddress a)) := by
  obtain ⟨-, on, off⟩ := s.popCheck_cases
  refine ⟨fun h => by rw [on room h, guarded_nmi], fun h => ?_⟩
  obtain ⟨a, place, outside, check⟩ := off room h
  exact ⟨a, place, outside, by rw [check, guarded_refuse]⟩

theorem guarded_push_room {s : State} (room : pushRoom s = true) (k : Result) : guarded s.pushCheck s k = k := by
  rw [s.pushCheck_cases.1 room, guarded_pass]

theorem guarded_pop_room {s : State} (room : popRoom s = true) (k : Result) : guarded s.popCheck s k = k := by
  rw [s.popCheck_cases.1 room, guarded_pass]

/-- Settles O33: where there is room the word of the pair is pushed. -/
theorem pushStoresHighByteLower : Obligations.PushStoresHighByteLower := by
  intro p s
  rw [exec_push]
  refine ⟨pairByte_eq_bytesB 0b01101#5 p 1#1, fun room => ?_, fun room => (guarded_push_noRoom room _).1,
    fun room => (guarded_push_noRoom room _).2⟩
  rw [guarded_push_room room]
  exact ⟨_, rfl, s.pushWord_pushed _, s.pushWord_same _, s.pushWord_irq _, s.pushWord_pc _⟩

theorem Frame.withSp {rs : List Reg} {s t : State} (h : Frame rs s t) (x : Addr) :
    Frame rs (s.withSp x) (t.withSp x) :=
  ⟨h.regs, h.bytes, rfl, h.irq, h.policing, h.hostRead, h.arrivals, h.timerWait, h.config, h.ports, h.pdataUndefined,
    h.sci⟩

/-- Settles O34: where the stack may be read its top word replaces the pair. -/
theorem popLoadsThePair : Obligations.PopLoadsThePair := by
  intro p s
  rw [exec_pop]
  refine ⟨pairByte_eq_bytesB 0b01101#5 p 0#1, fun room => ?_, fun room => (guarded_pop_noRoom room _).1,
    fun room => (guarded_pop_noRoom room _).2⟩
  rw [guarded_pop_room room]
  obtain ⟨k, hk⟩ := s.topWord_state
  obtain ⟨hi, lo, word, high, low⟩ := s.topWord_bytes
  rw [hk, word]
  refine ⟨_, rfl, fun ordinary => ?_, fun ordinary => ?_, rfl, ?_, rfl⟩
  · rw [State.withSp_reg, State.putPair_hi, hiByte_join, high ordinary]
  · rw [State.withSp_reg, State.putPair_lo, loByte_join, low ordinary]
  · exact (((Frame.putPair (s.withDraws k) p _).of_draws).withSp _).mono (by simp [and_comm])

/-! ### What a push stored is on top of the stack -/

/-- After a push onto ordinary memory the stack may be read, its top word is the one pushed, and `sp + 2` is the old `sp`. -/
theorem Pushed.topWord {s t : State} {v : Addr} (h : Pushed s t v) (config : t.config = s.config)
    (room : pushRoom s = true) (high : inSmbZone (s.sp - 2#16) = false) (low : inSmbZone (s.sp - 1#16) = false) :
    popRoom t = true ∧ t.topWord = (v, t) ∧ t.sp + 2#16 = s.sp := by
  have next : t.sp + 1#16 = s.sp - 1#16 := by
    rw [h.sp]
    bv_omega
  obtain ⟨ramHigh, ramLow⟩ := Bool.and_eq_true_iff.1 room
  refine ⟨?_, ?_, ?_⟩
  · rw [State.inRam, ← config] at ramHigh ramLow
    rw [popRoom, readable, readable, next, h.sp, State.inRam, State.inRam, ramHigh, ramLow]
    rfl
  · rw [t.topWord_value (h.sp ▸ high) (next ▸ low), next, h.sp, h.high high, h.low low, joinBytes_halves]
  · rw [h.sp, BitVec.sub_add_cancel]

/-- The same machine with the same requests, stack pointer and memory is a full frame. -/
theorem SameMachine.frame {s t : State} (h : SameMachine s t) (mem : t.mem = s.mem) (sp : t.sp = s.sp)
    (irq : t.irq = s.irq) : Frame [] s t where
  regs q _ := by rw [State.reg, h.regs]; rfl
  bytes a := by rw [State.byteAt, mem]; rfl
  sp := sp
  irq := irq
  policing := h.policing
  hostRead := h.hostRead
  arrivals := h.arrivals
  timerWait := h.timerWait
  config := h.config
  ports _ := ⟨h.port, h.pwmDuty, h.dout⟩
  pdataUndefined _ _ := h.pdataUndefined
  sci _ := h.sci

/-- Settles O35: the pop finds the word the push stored, and the push changed only memory and `sp`. -/
theorem popUndoesPush : Obligations.PopUndoesPush := by
  intro p q s t room high low run
  rw [exec_push, guarded_push_room room] at run
  cases run
  obtain ⟨popRoom, word, back⟩ :=
    (s.pushWord_pushed (s.pair p)).topWord (s.pushWord_same _).config room high low
  rw [exec_pop, guarded_pop_room popRoom, word, back]
  refine ⟨_, rfl, State.pair_putPair _ q (s.pair p), rfl, ?_⟩
  have same := s.pushWord_same (s.pair p)
  have restored : Frame [] s (((s.pushWord (s.pair p)).withSp s.sp).withMem s.mem) :=
    SameMachine.frame ⟨same.regs, same.port, same.pdataUndefined, same.pwmDuty, same.dout, same.policing, same.sci,
      same.hostRead, same.arrivals, same.timerWait, same.config⟩ rfl rfl (s.pushWord_irq _)
  exact ((restored.putReg q.lo (loByte (s.pair p))).putReg q.hi (hiByte (s.pair p))).mono (by simp [and_comm])

end Sys2Proof.Machine
end

