-- ==== Sys2Proof/Proofs/Sequencing.lean ====
section
/-! PROOFS. The sequencing instructions (R201 to R212): branches, CALL, JUMP, RETURN and RESET. -/

namespace Sys2Proof.Machine

/-! ### Branches -/

theorem sext16_toNat (off : Byte) : ((sext16 off).toNat : Int) = off.toInt % 65536 := by
  rw [sext16, BitVec.signExtend, BitVec.toNat_ofInt]
  omega

/-- A target relative to the next instruction, as a number. -/
theorem branchTarget_toNat (pc : Addr) (off : Byte) :
    ((pc + sext16 off).toNat : Int) = ((pc.toNat : Int) + off.toInt) % 65536 := by
  have ext := sext16_toNat off
  rw [BitVec.toNat_add]
  omega

/-- What the statement of the branches says of one of them. -/
theorem branch_spec {i : Instr} {b0 off : Byte} {taken : Bool} {s : State} {op : DfhOp}
    (encoding : encode Config.default i = [Config.default.dfhByte op, off]) (first : Config.default.dfhByte op = b0)
    (run : exec i s = execBranch taken off s) :
    encode Config.default i = [b0, off] ∧
      (taken = false → exec i s = .next s) ∧
      (taken = true → ∃ t : Addr, (t.toNat : Int) = ((s.pc.toNat : Int) + off.toInt) % 65536 ∧
        (targetOk s t = true → exec i s = .next (s.withPc t)) ∧
        (targetOk s t = false → exec i s = raiseNmi .invalidBranch t s)) := by
  obtain ⟨stay, go⟩ := execBranch_cases taken off s
  rw [run, encoding, first]
  exact ⟨rfl, stay, fun h => ⟨_, branchTarget_toNat s.pc off, go h⟩⟩

/-- Settles O37: each branch is the relative branch on its condition. -/
theorem branchesFollowTheFlags : Obligations.BranchesFollowTheFlags := by
  rintro off s c z rfl rfl i b0 taken (⟨rfl, rfl, rfl⟩ | ⟨rfl, rfl, rfl⟩ | ⟨rfl, rfl, rfl⟩ | ⟨rfl, rfl, rfl⟩ | ⟨rfl, rfl, rfl⟩ |
    ⟨rfl, rfl, rfl⟩ | ⟨rfl, rfl, rfl⟩)
  · exact branch_spec rfl (by decide) (exec_brc off s)
  · exact branch_spec rfl (by decide) (exec_brnc off s)
  · exact branch_spec rfl (by decide) (exec_brz off s)
  · exact branch_spec rfl (by decide) (exec_brnz off s)
  · exact branch_spec rfl (by decide) (exec_brcz off s)
  · exact branch_spec rfl (by decide) (exec_brncz off s)
  · exact branch_spec rfl (by decide) (exec_br off s)

/-! ### CALL, JUMP and RETURN -/

theorem exec_call (target : Addr) (s : State) : exec (.call target) s =
    guarded (s.targetCheck target) s (guarded s.pushCheck s (.next ((s.pushWord s.pc).withPc target))) := rfl

theorem exec_jump (target : Addr) (s : State) :
    exec (.jump target) s = guarded (s.targetCheck target) s (.next (s.withPc target)) := rfl

theorem exec_ret (s : State) : exec .ret s = guarded s.popCheck s (guarded (s.topWord.2.targetCheck s.topWord.1) s.topWord.2
    (.next ((s.topWord.2.withSp (s.sp + 2#16)).withPc s.topWord.1))) := rfl

/-- A valid target lets the transfer go on, another raises the NMI (R71). -/
theorem guarded_target (s : State) (t : Addr) (k : Result) :
    (targetOk s t = true → guarded (s.targetCheck t) s k = k) ∧
    (targetOk s t = false → guarded (s.targetCheck t) s k = raiseNmi .invalidBranch t s) := by
  obtain ⟨valid, other⟩ := s.targetCheck_cases t
  exact ⟨fun h => by rw [valid h, guarded_pass], fun h => by rw [other h, guarded_nmi]⟩

/-- Settles O38: the target first, then the stack, then the push and the transfer. -/
theorem callPushesTheReturnAddress : Obligations.CallPushesTheReturnAddress := by
  intro target s
  rw [exec_call]
  obtain ⟨valid, other⟩ := guarded_target s target
    (guarded s.pushCheck s (.next ((s.pushWord s.pc).withPc target)))
  refine ⟨bytesI_of_halves 0xC0 target, other, fun ok => ?_⟩
  rw [valid ok]
  refine ⟨fun room => ?_, fun room => (guarded_push_noRoom room _).1, fun room => (guarded_push_noRoom room _).2⟩
  rw [guarded_push_room room]
  exact ⟨_, rfl, State.enterTrap_spec s target s.pc⟩

/-- Settles O39: the target is checked and taken. -/
theorem jumpSetsThePc : Obligations.JumpSetsThePc := by
  intro target s
  rw [exec_jump]
  exact ⟨bytesI_of_halves 0xC1 target, guarded_target s target _⟩

/-- Reading the top of the stack moves the count of draws, and not even that outside the SMB zone. -/
theorem topWord_draws (s : State) : s.topWord.2 = s.withDraws s.topWord.2.draws ∧
    (inSmbZone s.sp = false → inSmbZone (s.sp + 1#16) = false → s.topWord.2.draws = s.draws) := by
  obtain ⟨k, hk⟩ := s.topWord_state
  refine ⟨by rw [hk]; rfl, fun high low => by rw [s.topWord_value high low]⟩

/-- Settles O40: the word on top of the stack is checked as a target and taken. -/
theorem returnPopsThePc : Obligations.ReturnPopsThePc := by
  intro s
  rw [exec_ret]
  refine ⟨rfl, fun room => ?_, fun room => (guarded_pop_noRoom room _).1, fun room => (guarded_pop_noRoom room _).2⟩
  obtain ⟨onlyDraws, noDraws⟩ := topWord_draws s
  obtain ⟨hi, lo, word, high, low⟩ := s.topWord_bytes
  have value : s.topWord.1.toNat = hi.toNat * 256 + lo.toNat := by rw [word, joinBytes_toNat]
  have bound := lo.isLt
  rw [guarded_pop_room room]
  refine ⟨s.topWord.1, s.topWord.2.draws, fun ordinary => ?_, fun ordinary => ?_, noDraws, ?_⟩
  · rw [← high ordinary, value]
    omega
  · rw [← low ordinary, value]
    omega
  · rw [← onlyDraws]
    obtain ⟨valid, other⟩ := guarded_target s.topWord.2 s.topWord.1
      (.next ((s.topWord.2.withSp (s.sp + 2#16)).withPc s.topWord.1))
    have same : targetOk s.topWord.2 s.topWord.1 = targetOk s s.topWord.1 := by
      rw [onlyDraws]
      rfl
    rw [← same]
    exact ⟨valid, other⟩

/-- Settles O41: the return finds the address the call pushed. -/
theorem returnUndoesCall : Obligations.ReturnUndoesCall := by
  intro target s t nextOk ok room high low run
  rw [exec_call, (guarded_target s target _).1 ok, guarded_push_room room] at run
  cases run
  obtain ⟨-, pushed, same, -⟩ := State.enterTrap_spec s target s.pc
  obtain ⟨popRoom, word, back⟩ := pushed.topWord same.config room high low
  have valid : targetOk (s.enterTrap target s.pc) s.pc = true := by
    rwa [targetOk, State.inFlash, same.policing, same.config]
  change ∃ u, exec .ret (s.enterTrap target s.pc) = .next u ∧ _
  rw [exec_ret, guarded_pop_room popRoom, word, back, (guarded_target _ _ _).1 valid]
  exact ⟨_, rfl, rfl, rfl, same.regs, same.port, same.pdataUndefined, same.pwmDuty, same.dout, same.policing, same.sci,
    same.hostRead, same.arrivals, same.timerWait, same.config⟩

/-! ### RESET -/

/-- Settles O42: RESET is the device reset, field by field. -/
theorem resetInstructionResets : Obligations.ResetInstructionResets := by
  intro s
  refine ⟨rfl, s.deviceReset, rfl, rfl, rfl, rfl, rfl, rfl, rfl, fun q notStatus notPcon => ?_, fun _ => rfl, rfl, rfl, rfl,
    rfl, rfl, rfl, rfl, rfl, rfl⟩
  exact (State.putReg_reg_other _ .pcon q _ notPcon).trans (State.putReg_reg_other _ .status q _ notStatus)

end Sys2Proof.Machine
end

