-- ==== Sys2Proof/Proofs/Exceptions.lean ====
section
/-! PROOFS. The exceptions (R220 to R234): the NMI, the maskable interrupt as the whole step, and which one is taken. -/

namespace Sys2Proof.Machine

/-! ### The NMI -/

theorem raiseNmi_fault {s : State} (h : s.config.nmiMode = .fault) (cause : NmiCause) (info : Addr) :
    raiseNmi cause info s = .fault (.nmi cause info) := by
  rw [raiseNmi, h]

/-- NMI entry where there is room, and the double fault where there is none (R233). -/
theorem raiseNmi_enter {s : State} (h : s.config.nmiMode = .enter) (cause : NmiCause) (info : Addr) :
    (pushRoom s = false → raiseNmi cause info s = .fault (.doubleFault cause info)) ∧
    (pushRoom s = true → raiseNmi cause info s = .next (s.drawWord.2.enterTrap s.config.vecNmi s.drawWord.1)) := by
  rw [raiseNmi, h]
  exact ⟨fun room => if_neg (Bool.not_eq_true _ ▸ room), fun room => if_pos room⟩

/-- Settles O43: by the mode, and under enter by the room on the stack. -/
theorem nmiFaultsOrEnters : Obligations.NmiFaultsOrEnters := by
  refine ⟨rfl, fun cause info s => ⟨fun mode => raiseNmi_fault mode cause info,
    fun mode => (raiseNmi_enter mode cause info).1, fun mode room => ?_⟩⟩
  obtain ⟨pc, pushed, same, irq⟩ := State.enterTrap_spec s.drawWord.2 s.config.vecNmi s.drawWord.1
  exact ⟨_, _, (raiseNmi_enter mode cause info).2 room, pc,
    ⟨pushed.sp, pushed.high, pushed.low, pushed.others, pushed.zone⟩, (withDraws_same s _).trans' same, irq⟩

/-! ### A maskable interrupt -/

theorem step_of_irq {s : State} {x : Irq} (h : (boundary s).nextIrq = some x) : step s = takeIrq x (boundary s) := by
  simp only [step, coreStep, h]

/-- Clearing a request touches the requests alone, and of them the one (R225 (c)). -/
theorem clearPending_eq (s : State) (x : Irq) : s.clearPending x =
    s.withIrq ⟨s.irq.timer && decide (x ≠ .timer), s.irq.smb && decide (x ≠ .smb), s.irq.acpi && decide (x ≠ .acpi)⟩ := by
  cases x <;> simp [State.clearPending]

/-- Trap entry after the clearing of requests: the requests as cleared, the word pushed, everything else kept (R228). -/
theorem enterTrap_withIrq_spec (s : State) (y : Pending) (vec saved : Addr) :
    ((s.withIrq y).enterTrap vec saved).pc = vec ∧ Pushed s ((s.withIrq y).enterTrap vec saved) saved ∧
      SameMachine s ((s.withIrq y).enterTrap vec saved) ∧ ((s.withIrq y).enterTrap vec saved).irq = y := by
  obtain ⟨pc, pushed, same, irq⟩ := State.enterTrap_spec (s.withIrq y) vec saved
  exact ⟨pc, ⟨pushed.sp, pushed.high, pushed.low, pushed.others, pushed.zone⟩,
    ⟨same.regs, same.port, same.pdataUndefined, same.pwmDuty, same.dout, same.policing, same.sci, same.hostRead,
      same.arrivals, same.timerWait, same.config⟩, irq⟩

/-- Settles O44: the check of the stack, then the trap entry with the request cleared. -/
theorem interruptIsTheWholeStep : Obligations.InterruptIsTheWholeStep := by
  refine ⟨⟨rfl, rfl, rfl⟩, ?_⟩
  rintro s b x rfl taken
  rw [step_of_irq taken, takeIrq]
  refine ⟨fun room => ?_, fun room => (guarded_push_noRoom room _).1, fun room => (guarded_push_noRoom room _).2⟩
  rw [guarded_push_room room, clearPending_eq]
  obtain ⟨pc, pushed, same, irq⟩ := enterTrap_withIrq_spec (boundary s) _ (vecOf (boundary s).config x) (boundary s).pc
  refine ⟨_, rfl, ?_, ?_, ?_, pushed, same, irq⟩
  all_goals
    rintro rfl
    exact pc

/-! ### Which interrupt is taken -/

theorem irqRequested_iff (s : State) (x : Irq) :
    s.irqRequested x = true ↔ s.irqEnabled x = true ∧ s.irqPending x = true :=
  Bool.and_eq_true_iff

theorem nextIrq_requested {s : State} {x : Irq} (h : s.nextIrq = some x) : s.irqRequested x = true :=
  List.find?_some h

/-- With every source in the priority order, some interrupt is taken exactly when some source requests one (R226). -/
theorem nextIrq_isSome_iff {s : State} (hc : s.config.wellFormed = true) :
    (∃ x, s.nextIrq = some x) ↔ ∃ x, s.irqRequested x = true := by
  obtain ⟨-, -, -, order⟩ := s.config.wellFormed_iff.1 hc
  have every : ∀ x, x ∈ s.config.irqOrder := by
    simp only [Config.irqOrderOk, List.all_cons, List.all_nil, Bool.and_true, Bool.and_eq_true,
      List.contains_iff_mem] at order
    rintro (_ | _ | _)
    · exact order.1
    · exact order.2.1
    · exact order.2.2
  rw [← Option.isSome_iff_exists, State.nextIrq, List.find?_isSome]
  exact ⟨fun ⟨x, _, h⟩ => ⟨x, h⟩, fun ⟨x, h⟩ => ⟨x, every x, h⟩⟩

theorem nextIrq_default_order {s : State} (order : s.config.irqOrder = [.timer, .smb, .acpi]) :
    (s.irqRequested .timer = true → s.nextIrq = some .timer) ∧
    (s.irqRequested .timer = false → s.irqRequested .smb = true → s.nextIrq = some .smb) ∧
    (s.irqRequested .timer = false → s.irqRequested .smb = false → s.irqRequested .acpi = true →
      s.nextIrq = some .acpi) := by
  rw [State.nextIrq, order]
  refine ⟨fun timer => ?_, fun noTimer smb => ?_, fun noTimer noSmb acpi => ?_⟩
  · simp only [List.find?_cons, timer]
  · simp only [List.find?_cons, noTimer, smb]
  · simp only [List.find?_cons, noTimer, noSmb, acpi]

/-- Settles O45: the first source of the order that is enabled and pending. -/
theorem priorityIsTimerSmbAcpi : Obligations.PriorityIsTimerSmbAcpi := by
  intro s
  have requested (x : Irq) (enabled : s.irqEnabled x = true) (pending : s.irqPending x = true) :
      s.irqRequested x = true := (irqRequested_iff s x).2 ⟨enabled, pending⟩
  refine ⟨⟨bitOf_eq_decide _ 5, bitOf_eq_decide _ 6, bitOf_eq_decide _ 7⟩,
    ⟨rfl, rfl, fun event => ?_, fun level => ?_⟩, fun hc => ?_,
    fun x h => (irqRequested_iff s x).1 (nextIrq_requested h), fun order => ?_⟩
  · rw [State.irqPending, event]
  · rw [State.irqPending, level]
    exact bitOf_eq_decide _ 1
  · rw [nextIrq_isSome_iff hc]
    exact exists_congr (irqRequested_iff s)
  · obtain ⟨timer, smb, acpi⟩ := nextIrq_default_order order
    exact ⟨fun e p => timer (requested _ e p), fun noTimer e p => smb noTimer (requested _ e p),
      fun noTimer noSmb e p => acpi noTimer noSmb (requested _ e p)⟩

end Sys2Proof.Machine
end

