-- ==== Sys2Proof/Proofs/Agents.lean ====
section
/-! PROOFS. The agents other than the core (R247 to R275): the writes of the host, the SCI, the actions of a boundary and
their order, and what they leave to the program. -/

namespace Sys2Proof.Machine

/-! ### The writes of the host -/

@[simp] theorem State.requestAcpi_regs (s : State) : s.requestAcpi.regs = s.regs := by
  unfold State.requestAcpi
  split <;> rfl

theorem State.requestAcpi_reg (s : State) (r : Reg) : s.requestAcpi.reg r = s.reg r := by
  rw [State.reg, State.requestAcpi_regs, State.reg]

theorem State.requestAcpi_event {s : State} (h : s.config.acpiIrq = .event) :
    s.requestAcpi = s.withIrq { s.irq with acpi := true } := by
  rw [State.requestAcpi, h]

theorem State.requestAcpi_level {s : State} (h : s.config.acpiIrq = .levelIbf) : s.requestAcpi = s := by
  rw [State.requestAcpi, h]

/-- A host write: a byte latched in a register, CMD and IBF written, the request made (R261, R262). -/
def State.hostWrite (s : State) (r : Reg) (b : Byte) (cmd : Bool) : State :=
  ((s.putReg r b).putReg .ecscr (withBit (withBit s.regs.ecscr 3 cmd) 1 true)).requestAcpi

theorem act_hostWriteCommand (b : Byte) (s : State) : act (.hostWriteCommand b) s = s.hostWrite .ecscw b true := rfl
theorem act_hostWriteData (b : Byte) (s : State) : act (.hostWriteData b) s = s.hostWrite .ecdata b false := rfl

theorem hostWrite_reg (s : State) (r q : Reg) (b : Byte) (cmd : Bool) : (s.hostWrite r b cmd).reg q =
    if q = .ecscr then withBit (withBit s.regs.ecscr 3 cmd) 1 true else if q = r then b else s.reg q := by
  rw [State.hostWrite, State.requestAcpi_reg, State.putReg_reg, State.putReg_reg]

theorem hostWrite_irq (s : State) (r : Reg) (b : Byte) (cmd : Bool) :
    (s.config.acpiIrq = .event → (s.hostWrite r b cmd).irq = { s.irq with acpi := true }) ∧
    (s.config.acpiIrq = .levelIbf → (s.hostWrite r b cmd).irq = s.irq) := by
  refine ⟨fun event => ?_, fun level => ?_⟩
  · rw [State.hostWrite, State.requestAcpi_event (by exact event)]
    rfl
  · rw [State.hostWrite, State.requestAcpi_level (by exact level)]
    rfl

theorem hostWrite_config (s : State) (r : Reg) (b : Byte) (cmd : Bool) : (s.hostWrite r b cmd).config = s.config := by
  unfold State.hostWrite State.requestAcpi
  split <;> rfl

/-- A host write to an interface register requests the ACPI interrupt by either setting (R266). -/
theorem hostWrite_requests {s : State} (enabled : s.irqEnabled .acpi = true) {r : Reg} (hr : r ≠ .status) (b : Byte)
    (cmd : Bool) : (s.hostWrite r b cmd).irqRequested .acpi = true := by
  obtain ⟨event, level⟩ := hostWrite_irq s r b cmd
  have status : (s.hostWrite r b cmd).reg .status = s.reg .status := by
    rw [hostWrite_reg, if_neg (by decide), if_neg hr.symm]
  have ibf : bitOf ((s.hostWrite r b cmd).reg .ecscr) 1 = true := by
    rw [hostWrite_reg, if_pos rfl, bitOf_withBit_same _ _ (by omega)]
  rw [irqRequested_iff]
  refine ⟨?_, ?_⟩
  · simp only [State.irqEnabled, ← State.reg_status] at enabled ⊢
    rw [status, enabled]
  · cases setting : s.config.acpiIrq with
    | event => simp only [State.irqPending, hostWrite_config, setting, event setting]
    | levelIbf =>
      simp only [State.irqPending, hostWrite_config, setting]
      exact ibf

/-- Settles O51: both writes are one host write, to ECSCW with CMD and to ECDATA without. -/
theorem hostWritesSetIbf : Obligations.HostWritesSetIbf := by
  intro b s
  have bits : ∀ e : Byte, withBit (withBit e 3 true) 1 true = e ||| 0x0A#8 ∧
      withBit (withBit e 3 false) 1 true = (e &&& 0xF7#8) ||| 0x02#8 := by decide
  obtain ⟨command, data⟩ := bits s.regs.ecscr
  rw [act_hostWriteCommand, act_hostWriteData]
  refine ⟨⟨?_, ?_, fun q notByte notEcscr => ?_⟩, ⟨?_, ?_, fun q notByte notEcscr => ?_⟩,
    fun event => ⟨(hostWrite_irq s _ b _).1 event, (hostWrite_irq s _ b _).1 event⟩,
    fun level => ⟨(hostWrite_irq s _ b _).2 level, (hostWrite_irq s _ b _).2 level⟩,
    fun enabled => ⟨hostWrite_requests enabled (by decide) b true, hostWrite_requests enabled (by decide) b false⟩⟩
  · rw [hostWrite_reg, if_neg (by decide), if_pos rfl]
  · rw [hostWrite_reg, if_pos rfl, command]
    rfl
  · rw [hostWrite_reg, if_neg notEcscr, if_neg notByte]
  · rw [hostWrite_reg, if_neg (by decide), if_pos rfl]
  · rw [hostWrite_reg, if_pos rfl, data]
    rfl
  · rw [hostWrite_reg, if_neg notEcscr, if_neg notByte]

/-! ### The SCI -/

/-- Settles O53: only a write of ECSCR touches the SCI, and it asks for the three changes. -/
theorem sciFollowsEcscrWrites : Obligations.SciFollowsEcscrWrites := by
  intro r v s t write quiet
  cases r with
  | ecscr =>
    cases write
    have raised : ((s.putReg .ecscr v).withSci (s.sci || sciRaised s.regs.ecscr v)).sci = sciRaised s.regs.ecscr v := by
      rw [State.withSci_sci, quiet, Bool.false_or]
    rw [raised, sciRaised]
    simp [or_assoc]
  | pcon =>
    have kept := (writePcon_portOnly v s t write).sci
    simp [kept, quiet]
  | pdata | r0 | r1 | r2 | r3 | r4 | r5 | r6 | r7 | ecdata | c0 | c1 | ecscw | status =>
    cases write
    simp [quiet, State.putPdata]

/-! ### A boundary, action by action -/

theorem actAll_countersKept : ∀ (l : List EnvAction) (s : State), .deviceReset ∉ l → CountersKept s (actAll l s)
  | [], s, _ => CountersKept.rfl s
  | a :: l, s, noReset => by
    obtain ⟨first, others⟩ := not_or.1 (mt List.mem_cons.2 noReset)
    exact (act_countersKept a s (Ne.symm first)).trans' (actAll_countersKept l (act a s) others)

/-- Settles O54: no action touches the program's registers and memory, and only a device reset the counters. -/
theorem otherAgentsLeaveTheProgramAlone : Obligations.OtherAgentsLeaveTheProgramAlone := by
  intro s
  have agent := boundary_agentKept s
  refine ⟨agent.regs, boundary_byteAt s, agent.config, fun noReset => ?_⟩
  have ports := (portBoundary_portOnly (clockBoundary s)).countersKept
  have counters : CountersKept s (boundary s) := by
    refine CountersKept.trans' (t := (portBoundary (clockBoundary s)).withArrivals s.arrivals.tail)
      ⟨ports.pc, ports.sp, ports.status⟩ (actAll_countersKept _ _ noReset)
  exact ⟨counters.pc, counters.sp, counters.status⟩

theorem actAll_append : ∀ (l l' : List EnvAction) (s : State), actAll (l ++ l') s = actAll l' (actAll l s)
  | [], _, _ => rfl
  | a :: l, l', s => actAll_append l l' (act a s)

/-- The schedule plays no part in the port work of a boundary. -/
theorem portBoundary_withArrivals (s : State) (x : List (List EnvAction)) :
    portBoundary (s.withArrivals x) = (portBoundary s).withArrivals x := by
  cases busy : s.port with
  | idle => simp only [portBoundary, State.withArrivals_port, busy]
  | adc ch n =>
    cases n with
    | zero =>
      rw [portBoundary_adc_zero busy, portBoundary_adc_zero (s := s.withArrivals x) busy]
      rfl
    | succ n =>
      rw [portBoundary_adc_succ busy, portBoundary_adc_succ (s := s.withArrivals x) busy]
      rfl
  | pwm ch duty n =>
    cases n with
    | zero =>
      rw [portBoundary_pwm_zero busy, portBoundary_pwm_zero (s := s.withArrivals x) busy]
      rfl
    | succ n =>
      rw [portBoundary_pwm_succ busy, portBoundary_pwm_succ (s := s.withArrivals x) busy]
      rfl
  | several n =>
    cases n with
    | zero =>
      rw [portBoundary_several_zero busy, portBoundary_several_zero (s := s.withArrivals x) busy]
      rfl
    | succ n =>
      rw [portBoundary_several_succ busy, portBoundary_several_succ (s := s.withArrivals x) busy]
      rfl

/-- The last action listed for a boundary is done there after the others (R275). -/
theorem boundary_append {s : State} {l : List EnvAction} {a : EnvAction} {rest : List (List EnvAction)}
    (h : s.arrivals = (l ++ [a]) :: rest) : boundary s = act a (boundary (s.withArrivals (l :: rest))) := by
  have clock : clockBoundary (s.withArrivals (l :: rest)) = (clockBoundary s).withArrivals (l :: rest) := rfl
  simp only [boundary, h, clock, portBoundary_withArrivals, State.withArrivals_arrivals, List.headD_cons, List.tail_cons,
    actAll_append]
  rfl

/-- Only a Timer tick sets the distance of the next (R247). -/
theorem act_timerWait {a : EnvAction} (h : a ≠ .timerTick) (s : State) : (act a s).timerWait = s.timerWait := by
  cases a with
  | timerTick => exact absurd rfl h
  | adcComplete v => exact (adcComplete_portOnly v s).timerWait
  | pwmComplete => exact (pwmComplete_portOnly s).timerWait
  | hostReadStatus =>
    obtain ⟨k, hk⟩ := s.readReg_state .ecscr
    rw [act_hostReadStatus, hk]
    rfl
  | hostWriteCommand | hostWriteData =>
    simp only [act_hostWriteCommand, act_hostWriteData]
    unfold State.hostWrite State.requestAcpi
    split <;> rfl
  | hostReadData | smbEvent | setPolicingPin | deviceReset => rfl

theorem actAll_timerWait : ∀ (l : List EnvAction) (s : State), .timerTick ∉ l → (actAll l s).timerWait = s.timerWait
  | [], _, _ => rfl
  | a :: l, s, noTick => by
    obtain ⟨first, others⟩ := not_or.1 (mt List.mem_cons.2 noTick)
    exact (actAll_timerWait l (act a s) others).trans (act_timerWait (Ne.symm first) s)

theorem boundary_timerWait {s : State} (noTick : .timerTick ∉ s.arrivals.headD []) :
    (boundary s).timerWait = s.timerWait - 1 :=
  (actAll_timerWait _ _ noTick).trans (portBoundary_portOnly (clockBoundary s)).timerWait

theorem timerTick_due {s : State} (h : s.timerWait = 0) :
    timerTick s = (s.withIrq { s.irq with timer := true }).withTimerWait s.config.timerMinSteps := by
  rw [timerTick, if_pos h]

theorem timerTick_early {s : State} (h : s.timerWait ≠ 0) : timerTick s = s := by
  rw [timerTick, if_neg h]

theorem adcComplete_adc {s : State} {ch : BitVec 4} {n : Nat} (h : s.port = .adc ch n) (v : Byte) :
    adcComplete v s = (s.putPdata v).endPort := by
  simp only [adcComplete, h]

theorem pwmComplete_pwm {s : State} {ch : BitVec 4} {duty : Byte} {n : Nat} (h : s.port = .pwm ch duty n) :
    pwmComplete s = (s.putDuty ch duty).endPort := by
  simp only [pwmComplete, h]

/-- Settles O60: the order at a boundary, and each of the six actions. -/
theorem environmentActionsDoTheirWork : Obligations.EnvironmentActionsDoTheirWork := by
  intro s v on
  refine ⟨fun l a rest h => boundary_append h, timerTick_due, timerTick_early, boundary_timerWait, rfl,
    fun ch n busy => ?adc, ?adcOther, fun ch duty n busy => ?pwm, ?pwmOther, rfl, rfl⟩
  case adc =>
    have only := adcComplete_portOnly v s
    rw [adcComplete_adc busy] at only
    exact ⟨_, adcComplete_adc busy v, rfl, rfl, rfl, rfl, rfl, rfl, only.frame, only.pc⟩
  case adcOther =>
    rintro (busy | ⟨ch, duty, n, busy⟩) <;> simp only [act, adcComplete, busy]
  case pwm =>
    have only := pwmComplete_portOnly s
    rw [pwmComplete_pwm busy] at only
    exact ⟨_, pwmComplete_pwm busy, State.putDuty_get s ch duty, rfl, rfl, rfl, rfl, only.frame_pcon ⟨rfl, rfl⟩, only.pc⟩
  case pwmOther =>
    rintro (busy | ⟨ch, n, busy⟩) <;> simp only [act, pwmComplete, busy]

end Sys2Proof.Machine
end
